-- ==== Sys2Proof/Word.lean ====
section
/-! DEFINITION. The two word sizes of the block (00_scope.md R7): a byte is 8 bits, a word is 16 bits. Every
register, memory cell and address of the CPU is one of the two, and all arithmetic on them wraps. -/

namespace Sys2Proof

/-- A byte, 8 bits, unsigned (R7). -/
abbrev Byte := BitVec 8

/-- A word, 16 bits, unsigned (R7): the program counter, an address of the CPU bus. -/
abbrev Word := BitVec 16

end Sys2Proof
end

