-- ==== Sys2Proof/Syntax.lean ====
section
/-! DEFINITION. The instructions as syntax. One constructor of `Instr` per mnemonic of spec/opcode_table.json, its operand
form (addressing mode with its operand bytes) as the argument, and one constructor for the unofficial opcode bytes: a row of
the table is a constructor together with a mode (30_encoding.md R95, R99; notes/assumptions/9.md). -/

namespace Sys2Proof

/-- The thirteen addressing modes by name (30_encoding.md R94). -/
inductive Mode where
  | imp | acc | imm | zp0 | zpx | zpy | abs | abx | aby | rel | ind | izx | izy
  deriving DecidableEq, Repr

/-- An operand form that an instruction with several forms can carry: the mode with the operand bytes read from the
instruction stream, assembled as 30_encoding.md R92 says. The modes IMP and REL belong to instructions that have no other
form, so they are not operands: such an instruction carries nothing, or its branch offset. -/
inductive Operand where
  /-- ACC: the accumulator (40 R115). -/
  | acc
  /-- IMM: the operand byte itself (R116). -/
  | imm (value : Byte)
  /-- ZP0: a zero-page address (R117). -/
  | zp0 (base : Byte)
  /-- ZPX: a zero-page address, indexed by x (R118). -/
  | zpx (base : Byte)
  /-- ZPY: a zero-page address, indexed by y (R119). -/
  | zpy (base : Byte)
  /-- ABS: an address (R120). -/
  | abs (addr : Word)
  /-- ABX: an address, indexed by x (R121). -/
  | abx (base : Word)
  /-- ABY: an address, indexed by y (R122). -/
  | aby (base : Word)
  /-- IND: the address of a pointer (R124). -/
  | ind (ptr : Word)
  /-- IZX: a zero-page address which, indexed by x, is the address of a pointer (R125). -/
  | izx (base : Byte)
  /-- IZY: the zero-page address of a pointer, to which y is added (R126). -/
  | izy (base : Byte)
  deriving DecidableEq, Repr

/-- The mode of an operand form. -/
def Operand.mode : Operand → Mode
  | .acc => .acc
  | .imm _ => .imm
  | .zp0 _ => .zp0
  | .zpx _ => .zpx
  | .zpy _ => .zpy
  | .abs _ => .abs
  | .abx _ => .abx
  | .aby _ => .aby
  | .ind _ => .ind
  | .izx _ => .izx
  | .izy _ => .izy

/-- The 56 official instructions and the unofficial no-operations (30_encoding.md R95, R99). -/
inductive Instr where
  | adc (m : Operand)
  | and (m : Operand)
  | asl (m : Operand)
  | bcc (offset : Byte)
  | bcs (offset : Byte)
  | beq (offset : Byte)
  | bit (m : Operand)
  | bmi (offset : Byte)
  | bne (offset : Byte)
  | bpl (offset : Byte)
  | brk
  | bvc (offset : Byte)
  | bvs (offset : Byte)
  | clc
  | cld
  | cli
  | clv
  | cmp (m : Operand)
  | cpx (m : Operand)
  | cpy (m : Operand)
  | dec (m : Operand)
  | dex
  | dey
  | eor (m : Operand)
  | inc (m : Operand)
  | inx
  | iny
  | jmp (m : Operand)
  | jsr (addr : Word)
  | lda (m : Operand)
  | ldx (m : Operand)
  | ldy (m : Operand)
  | lsr (m : Operand)
  | nop
  | ora (m : Operand)
  | pha
  | php
  | pla
  | plp
  | rol (m : Operand)
  | ror (m : Operand)
  | rti
  | rts
  | sbc (m : Operand)
  | sec
  | sed
  | sei
  | sta (m : Operand)
  | stx (m : Operand)
  | sty (m : Operand)
  | tax
  | tay
  | tsx
  | txa
  | txs
  | tya
  /-- One of the 105 opcode bytes the table gives no official instruction (R99); the byte is kept. -/
  | nopUnofficial (opcode : Byte)
  deriving DecidableEq, Repr

/-- The mode a table row gives the instruction: the operand's, REL for a branch, ABS for JSR, else IMP (R95). -/
def Instr.mode : Instr → Mode
  | .adc m | .and m | .asl m | .bit m | .cmp m | .cpx m | .cpy m | .dec m | .eor m | .inc m | .jmp m | .lda m
  | .ldx m | .ldy m | .lsr m | .ora m | .rol m | .ror m | .sbc m | .sta m | .stx m | .sty m => m.mode
  | .bcc _ | .bcs _ | .beq _ | .bmi _ | .bne _ | .bpl _ | .bvc _ | .bvs _ => .rel
  | .jsr _ => .abs
  | .brk | .clc | .cld | .cli | .clv | .dex | .dey | .inx | .iny | .nop | .pha | .php | .pla | .plp | .rti | .rts
  | .sec | .sed | .sei | .tax | .tay | .tsx | .txa | .txs | .tya | .nopUnofficial _ => .imp

end Sys2Proof
end

