-- ==== Sys2Proof/WellFormed.lean ====
section
/-! DEFINITION. Which instructions the opcode table has: each mnemonic is paired with the modes of its row in
30_encoding.md R95, and an unofficial opcode is one of the 105 bytes of R99. -/

namespace Sys2Proof

/-- The 105 unofficial opcode bytes, as 30_encoding.md R99 lists them. -/
def unofficialOpcodes : List Byte :=
  [0x02, 0x03, 0x04, 0x07, 0x0B, 0x0C, 0x0F, 0x12, 0x13, 0x14, 0x17, 0x1A, 0x1B, 0x1C, 0x1F, 0x22, 0x23, 0x27] ++
  [0x2B, 0x2F, 0x32, 0x33, 0x34, 0x37, 0x3A, 0x3B, 0x3C, 0x3F, 0x42, 0x43, 0x44, 0x47, 0x4B] ++
  [0x4F, 0x52, 0x53, 0x54, 0x57, 0x5A, 0x5B, 0x5C, 0x5F, 0x62, 0x63, 0x64, 0x67, 0x6B, 0x6F, 0x72, 0x73, 0x74] ++
  [0x77, 0x7A, 0x7B, 0x7C, 0x7F, 0x80, 0x82, 0x83, 0x87, 0x89, 0x8B, 0x8F, 0x92, 0x93, 0x97] ++
  [0x9B, 0x9C, 0x9E, 0x9F, 0xA3, 0xA7, 0xAB, 0xAF, 0xB2, 0xB3, 0xB7, 0xBB, 0xBF, 0xC2, 0xC3, 0xC7, 0xCB, 0xCF] ++
  [0xD2, 0xD3, 0xD4, 0xD7, 0xDA, 0xDB, 0xDC, 0xDF, 0xE2, 0xE3, 0xE7, 0xEB, 0xEF, 0xF2, 0xF3] ++
  [0xF4, 0xF7, 0xFA, 0xFB, 0xFC, 0xFF]

/-- The modes of an operation that reads its operand into or against `a` (R95: ADC AND CMP EOR LDA ORA SBC). -/
def accumulatorReadModes : List Mode := [.imm, .zp0, .zpx, .abs, .abx, .aby, .izx, .izy]

/-- The modes of STA (R95). -/
def staModes : List Mode := [.zp0, .zpx, .abs, .abx, .aby, .izx, .izy]

/-- The modes of the four shifts (R95). -/
def shiftModes : List Mode := [.acc, .zp0, .zpx, .abs, .abx]

/-- The modes of INC and DEC (R95). -/
def incDecModes : List Mode := [.zp0, .zpx, .abs, .abx]

/-- Is this a term that some opcode byte of the table stands for (R95, R97, R99)? -/
def Instr.WellFormed : Instr → Bool
  | .adc m | .and m | .cmp m | .eor m | .lda m | .ora m | .sbc m => accumulatorReadModes.contains m.mode
  | .sta m => staModes.contains m.mode
  | .ldx m => [Mode.imm, .zp0, .zpy, .abs, .aby].contains m.mode
  | .ldy m => [Mode.imm, .zp0, .zpx, .abs, .abx].contains m.mode
  | .stx m => [Mode.zp0, .zpy, .abs].contains m.mode
  | .sty m => [Mode.zp0, .zpx, .abs].contains m.mode
  | .bit m => [Mode.zp0, .abs].contains m.mode
  | .cpx m | .cpy m => [Mode.imm, .zp0, .abs].contains m.mode
  | .asl m | .lsr m | .rol m | .ror m => shiftModes.contains m.mode
  | .inc m | .dec m => incDecModes.contains m.mode
  | .jmp m => [Mode.abs, .ind].contains m.mode
  | .nopUnofficial opcode => unofficialOpcodes.contains opcode
  | .bcc _ | .bcs _ | .beq _ | .bmi _ | .bne _ | .bpl _ | .bvc _ | .bvs _ | .jsr _ => true
  | .brk | .clc | .cld | .cli | .clv | .dex | .dey | .inx | .iny | .nop | .pha | .php | .pla | .plp | .rti | .rts
  | .sec | .sed | .sei | .tax | .tay | .tsx | .txa | .txs | .tya => true

end Sys2Proof
end

