-- ==== Sys2Proof/Decode.lean ====
section
/-! DEFINITION. The decoder, a 256-way table lookup on the opcode byte (30_encoding.md R90, R95, R96, R99), the lengths, and
after them the encoder, from the same table read by mnemonic. No byte sequence but one that is too short is refused: every
opcode byte has a meaning. -/

namespace Sys2Proof

/-- The word with high byte `hi` and low byte `lo` (00_scope.md R7: `hi << 8 | lo`; 20_memory.md R80: little-endian). -/
def wordOf (hi lo : Byte) : Word := hi ++ lo

/-- The high byte of a word. -/
def hiByte (w : Word) : Byte := w.extractLsb' 8 8

/-- The low byte of a word. -/
def loByte (w : Word) : Byte := w.extractLsb' 0 8

/-- The opcode map (30_encoding.md R96): the instruction an opcode byte stands for, its operand bytes being `lo` and `hi` in
address order (R91, R92); a byte the table gives no operand does not look at them. An opcode byte outside R95 is an unofficial
no-operation of length 1 (R99; D2). -/
def decodeOp (op lo hi : Byte) : Instr :=
  match op.toNat with
  | 0x00 => .brk
  | 0x01 => .ora (.izx lo)
  | 0x05 => .ora (.zp0 lo)
  | 0x06 => .asl (.zp0 lo)
  | 0x08 => .php
  | 0x09 => .ora (.imm lo)
  | 0x0A => .asl .acc
  | 0x0D => .ora (.abs (wordOf hi lo))
  | 0x0E => .asl (.abs (wordOf hi lo))
  | 0x10 => .bpl lo
  | 0x11 => .ora (.izy lo)
  | 0x15 => .ora (.zpx lo)
  | 0x16 => .asl (.zpx lo)
  | 0x18 => .clc
  | 0x19 => .ora (.aby (wordOf hi lo))
  | 0x1D => .ora (.abx (wordOf hi lo))
  | 0x1E => .asl (.abx (wordOf hi lo))
  | 0x20 => .jsr (wordOf hi lo)
  | 0x21 => .and (.izx lo)
  | 0x24 => .bit (.zp0 lo)
  | 0x25 => .and (.zp0 lo)
  | 0x26 => .rol (.zp0 lo)
  | 0x28 => .plp
  | 0x29 => .and (.imm lo)
  | 0x2A => .rol .acc
  | 0x2C => .bit (.abs (wordOf hi lo))
  | 0x2D => .and (.abs (wordOf hi lo))
  | 0x2E => .rol (.abs (wordOf hi lo))
  | 0x30 => .bmi lo
  | 0x31 => .and (.izy lo)
  | 0x35 => .and (.zpx lo)
  | 0x36 => .rol (.zpx lo)
  | 0x38 => .sec
  | 0x39 => .and (.aby (wordOf hi lo))
  | 0x3D => .and (.abx (wordOf hi lo))
  | 0x3E => .rol (.abx (wordOf hi lo))
  | 0x40 => .rti
  | 0x41 => .eor (.izx lo)
  | 0x45 => .eor (.zp0 lo)
  | 0x46 => .lsr (.zp0 lo)
  | 0x48 => .pha
  | 0x49 => .eor (.imm lo)
  | 0x4A => .lsr .acc
  | 0x4C => .jmp (.abs (wordOf hi lo))
  | 0x4D => .eor (.abs (wordOf hi lo))
  | 0x4E => .lsr (.abs (wordOf hi lo))
  | 0x50 => .bvc lo
  | 0x51 => .eor (.izy lo)
  | 0x55 => .eor (.zpx lo)
  | 0x56 => .lsr (.zpx lo)
  | 0x58 => .cli
  | 0x59 => .eor (.aby (wordOf hi lo))
  | 0x5D => .eor (.abx (wordOf hi lo))
  | 0x5E => .lsr (.abx (wordOf hi lo))
  | 0x60 => .rts
  | 0x61 => .adc (.izx lo)
  | 0x65 => .adc (.zp0 lo)
  | 0x66 => .ror (.zp0 lo)
  | 0x68 => .pla
  | 0x69 => .adc (.imm lo)
  | 0x6A => .ror .acc
  | 0x6C => .jmp (.ind (wordOf hi lo))
  | 0x6D => .adc (.abs (wordOf hi lo))
  | 0x6E => .ror (.abs (wordOf hi lo))
  | 0x70 => .bvs lo
  | 0x71 => .adc (.izy lo)
  | 0x75 => .adc (.zpx lo)
  | 0x76 => .ror (.zpx lo)
  | 0x78 => .sei
  | 0x79 => .adc (.aby (wordOf hi lo))
  | 0x7D => .adc (.abx (wordOf hi lo))
  | 0x7E => .ror (.abx (wordOf hi lo))
  | 0x81 => .sta (.izx lo)
  | 0x84 => .sty (.zp0 lo)
  | 0x85 => .sta (.zp0 lo)
  | 0x86 => .stx (.zp0 lo)
  | 0x88 => .dey
  | 0x8A => .txa
  | 0x8C => .sty (.abs (wordOf hi lo))
  | 0x8D => .sta (.abs (wordOf hi lo))
  | 0x8E => .stx (.abs (wordOf hi lo))
  | 0x90 => .bcc lo
  | 0x91 => .sta (.izy lo)
  | 0x94 => .sty (.zpx lo)
  | 0x95 => .sta (.zpx lo)
  | 0x96 => .stx (.zpy lo)
  | 0x98 => .tya
  | 0x99 => .sta (.aby (wordOf hi lo))
  | 0x9A => .txs
  | 0x9D => .sta (.abx (wordOf hi lo))
  | 0xA0 => .ldy (.imm lo)
  | 0xA1 => .lda (.izx lo)
  | 0xA2 => .ldx (.imm lo)
  | 0xA4 => .ldy (.zp0 lo)
  | 0xA5 => .lda (.zp0 lo)
  | 0xA6 => .ldx (.zp0 lo)
  | 0xA8 => .tay
  | 0xA9 => .lda (.imm lo)
  | 0xAA => .tax
  | 0xAC => .ldy (.abs (wordOf hi lo))
  | 0xAD => .lda (.abs (wordOf hi lo))
  | 0xAE => .ldx (.abs (wordOf hi lo))
  | 0xB0 => .bcs lo
  | 0xB1 => .lda (.izy lo)
  | 0xB4 => .ldy (.zpx lo)
  | 0xB5 => .lda (.zpx lo)
  | 0xB6 => .ldx (.zpy lo)
  | 0xB8 => .clv
  | 0xB9 => .lda (.aby (wordOf hi lo))
  | 0xBA => .tsx
  | 0xBC => .ldy (.abx (wordOf hi lo))
  | 0xBD => .lda (.abx (wordOf hi lo))
  | 0xBE => .ldx (.aby (wordOf hi lo))
  | 0xC0 => .cpy (.imm lo)
  | 0xC1 => .cmp (.izx lo)
  | 0xC4 => .cpy (.zp0 lo)
  | 0xC5 => .cmp (.zp0 lo)
  | 0xC6 => .dec (.zp0 lo)
  | 0xC8 => .iny
  | 0xC9 => .cmp (.imm lo)
  | 0xCA => .dex
  | 0xCC => .cpy (.abs (wordOf hi lo))
  | 0xCD => .cmp (.abs (wordOf hi lo))
  | 0xCE => .dec (.abs (wordOf hi lo))
  | 0xD0 => .bne lo
  | 0xD1 => .cmp (.izy lo)
  | 0xD5 => .cmp (.zpx lo)
  | 0xD6 => .dec (.zpx lo)
  | 0xD8 => .cld
  | 0xD9 => .cmp (.aby (wordOf hi lo))
  | 0xDD => .cmp (.abx (wordOf hi lo))
  | 0xDE => .dec (.abx (wordOf hi lo))
  | 0xE0 => .cpx (.imm lo)
  | 0xE1 => .sbc (.izx lo)
  | 0xE4 => .cpx (.zp0 lo)
  | 0xE5 => .sbc (.zp0 lo)
  | 0xE6 => .inc (.zp0 lo)
  | 0xE8 => .inx
  | 0xE9 => .sbc (.imm lo)
  | 0xEA => .nop
  | 0xEC => .cpx (.abs (wordOf hi lo))
  | 0xED => .sbc (.abs (wordOf hi lo))
  | 0xEE => .inc (.abs (wordOf hi lo))
  | 0xF0 => .beq lo
  | 0xF1 => .sbc (.izy lo)
  | 0xF5 => .sbc (.zpx lo)
  | 0xF6 => .inc (.zpx lo)
  | 0xF8 => .sed
  | 0xF9 => .sbc (.aby (wordOf hi lo))
  | 0xFD => .sbc (.abx (wordOf hi lo))
  | 0xFE => .inc (.abx (wordOf hi lo))
  | _ => .nopUnofficial op

/-- How many operand bytes follow the opcode byte in a mode (30_encoding.md R91). -/
def Mode.operandBytes : Mode → Nat
  | .imp | .acc => 0
  | .imm | .zp0 | .zpx | .zpy | .rel | .izx | .izy => 1
  | .abs | .abx | .aby | .ind => 2

/-- The length of an instruction in bytes (30_encoding.md R91, R93). -/
def Instr.length (i : Instr) : Nat := 1 + i.mode.operandBytes

/-- How many operand bytes an opcode byte calls for; it depends on the opcode byte alone (30_encoding.md R93). -/
def operandCount (op : Byte) : Nat := (decodeOp op 0 0).mode.operandBytes

/-- Why a list of bytes is no instruction. -/
inductive DecodeError where
  /-- There is no byte at all. -/
  | noOpcode
  /-- The bytes end before the operand bytes that the opcode calls for. -/
  | operandMissing (opcode : Byte)
  deriving DecidableEq, Repr

/-- Decode the instruction at the head of a list of bytes, in address order: the instruction and the bytes after it (R90
to R93). -/
def decode : List Byte → Except DecodeError (Instr × List Byte)
  | [] => .error .noOpcode
  | op :: rest =>
    match operandCount op, rest with
    | 0, rest => .ok (decodeOp op 0 0, rest)
    | 1, lo :: rest => .ok (decodeOp op lo 0, rest)
    | 2, lo :: hi :: rest => .ok (decodeOp op lo hi, rest)
    | _, _ => .error (.operandMissing op)

/-- The number of CPU cycles of an operation that reads its operand, by mode, without the page-cross cycle (30 R95, R102). -/
def readCycles : Mode → Nat
  | .imm => 2
  | .zp0 => 3
  | .zpx | .zpy | .abs | .abx | .aby => 4
  | .izx => 6
  | .izy => 5
  | .imp | .acc | .rel | .ind => 2

/-- The number of CPU cycles of a store, by mode (30 R95, R102). -/
def storeCycles : Mode → Nat
  | .zp0 => 3
  | .zpx | .zpy | .abs => 4
  | .abx | .aby => 5
  | .izx | .izy => 6
  | .imp | .acc | .imm | .rel | .ind => 2

/-- The number of CPU cycles of a shift, rotate, INC or DEC, by mode (30 R95, R102). -/
def modifyCycles : Mode → Nat
  | .acc => 2
  | .zp0 => 5
  | .zpx | .abs => 6
  | .abx => 7
  | .imp | .imm | .zpy | .aby | .rel | .ind | .izx | .izy => 2

/-- `base_cycles` of the opcode table (30_encoding.md R95, R102; 2 for every unofficial opcode, R99). The entries of modes
that R95 does not pair with the mnemonic are never loaded: the decoder gives no such term. -/
def Instr.baseCycles : Instr → Nat
  | .adc m | .and m | .bit m | .cmp m | .cpx m | .cpy m | .eor m | .lda m | .ldx m | .ldy m | .ora m | .sbc m =>
    readCycles m.mode
  | .sta m | .stx m | .sty m => storeCycles m.mode
  | .asl m | .lsr m | .rol m | .ror m | .inc m | .dec m => modifyCycles m.mode
  | .jmp m => if m.mode = .ind then 5 else 3
  | .jsr _ | .rti | .rts => 6
  | .brk => 7
  | .pha | .php => 3
  | .pla | .plp => 4
  | .bcc _ | .bcs _ | .beq _ | .bmi _ | .bne _ | .bpl _ | .bvc _ | .bvs _ => 2
  | .clc | .cld | .cli | .clv | .dex | .dey | .inx | .iny | .nop | .sec | .sed | .sei => 2
  | .tax | .tay | .tsx | .txa | .txs | .tya | .nopUnofficial _ => 2

/-- The opcode that a mnemonic's row of 30_encoding.md R95 has in the column of a mode. -/
def opcodeAt (mode : Mode) : List (Mode × Byte) → Option Byte
  | [] => none
  | (m, op) :: row => if m = mode then some op else opcodeAt mode row

/-- The opcode byte of an instruction: 30_encoding.md R95 read by mnemonic; none where the row has no such mode. -/
def opcodeOf : Instr → Option Byte
  | .adc m => opcodeAt m.mode [(.izx, 0x61), (.zp0, 0x65), (.imm, 0x69), (.abs, 0x6D), (.izy, 0x71), (.zpx, 0x75), (.aby, 0x79), (.abx, 0x7D)]
  | .and m => opcodeAt m.mode [(.izx, 0x21), (.zp0, 0x25), (.imm, 0x29), (.abs, 0x2D), (.izy, 0x31), (.zpx, 0x35), (.aby, 0x39), (.abx, 0x3D)]
  | .asl m => opcodeAt m.mode [(.zp0, 0x06), (.acc, 0x0A), (.abs, 0x0E), (.zpx, 0x16), (.abx, 0x1E)]
  | .bcc _ => some 0x90
  | .bcs _ => some 0xB0
  | .beq _ => some 0xF0
  | .bit m => opcodeAt m.mode [(.zp0, 0x24), (.abs, 0x2C)]
  | .bmi _ => some 0x30
  | .bne _ => some 0xD0
  | .bpl _ => some 0x10
  | .brk => some 0x00
  | .bvc _ => some 0x50
  | .bvs _ => some 0x70
  | .clc => some 0x18
  | .cld => some 0xD8
  | .cli => some 0x58
  | .clv => some 0xB8
  | .cmp m => opcodeAt m.mode [(.izx, 0xC1), (.zp0, 0xC5), (.imm, 0xC9), (.abs, 0xCD), (.izy, 0xD1), (.zpx, 0xD5), (.aby, 0xD9), (.abx, 0xDD)]
  | .cpx m => opcodeAt m.mode [(.imm, 0xE0), (.zp0, 0xE4), (.abs, 0xEC)]
  | .cpy m => opcodeAt m.mode [(.imm, 0xC0), (.zp0, 0xC4), (.abs, 0xCC)]
  | .dec m => opcodeAt m.mode [(.zp0, 0xC6), (.abs, 0xCE), (.zpx, 0xD6), (.abx, 0xDE)]
  | .dex => some 0xCA
  | .dey => some 0x88
  | .eor m => opcodeAt m.mode [(.izx, 0x41), (.zp0, 0x45), (.imm, 0x49), (.abs, 0x4D), (.izy, 0x51), (.zpx, 0x55), (.aby, 0x59), (.abx, 0x5D)]
  | .inc m => opcodeAt m.mode [(.zp0, 0xE6), (.abs, 0xEE), (.zpx, 0xF6), (.abx, 0xFE)]
  | .inx => some 0xE8
  | .iny => some 0xC8
  | .jmp m => opcodeAt m.mode [(.abs, 0x4C), (.ind, 0x6C)]
  | .jsr _ => some 0x20
  | .lda m => opcodeAt m.mode [(.izx, 0xA1), (.zp0, 0xA5), (.imm, 0xA9), (.abs, 0xAD), (.izy, 0xB1), (.zpx, 0xB5), (.aby, 0xB9), (.abx, 0xBD)]
  | .ldx m => opcodeAt m.mode [(.imm, 0xA2), (.zp0, 0xA6), (.abs, 0xAE), (.zpy, 0xB6), (.aby, 0xBE)]
  | .ldy m => opcodeAt m.mode [(.imm, 0xA0), (.zp0, 0xA4), (.abs, 0xAC), (.zpx, 0xB4), (.abx, 0xBC)]
  | .lsr m => opcodeAt m.mode [(.zp0, 0x46), (.acc, 0x4A), (.abs, 0x4E), (.zpx, 0x56), (.abx, 0x5E)]
  | .nop => some 0xEA
  | .ora m => opcodeAt m.mode [(.izx, 0x01), (.zp0, 0x05), (.imm, 0x09), (.abs, 0x0D), (.izy, 0x11), (.zpx, 0x15), (.aby, 0x19), (.abx, 0x1D)]
  | .pha => some 0x48
  | .php => some 0x08
  | .pla => some 0x68
  | .plp => some 0x28
  | .rol m => opcodeAt m.mode [(.zp0, 0x26), (.acc, 0x2A), (.abs, 0x2E), (.zpx, 0x36), (.abx, 0x3E)]
  | .ror m => opcodeAt m.mode [(.zp0, 0x66), (.acc, 0x6A), (.abs, 0x6E), (.zpx, 0x76), (.abx, 0x7E)]
  | .rti => some 0x40
  | .rts => some 0x60
  | .sbc m => opcodeAt m.mode [(.izx, 0xE1), (.zp0, 0xE5), (.imm, 0xE9), (.abs, 0xED), (.izy, 0xF1), (.zpx, 0xF5), (.aby, 0xF9), (.abx, 0xFD)]
  | .sec => some 0x38
  | .sed => some 0xF8
  | .sei => some 0x78
  | .sta m => opcodeAt m.mode [(.izx, 0x81), (.zp0, 0x85), (.abs, 0x8D), (.izy, 0x91), (.zpx, 0x95), (.aby, 0x99), (.abx, 0x9D)]
  | .stx m => opcodeAt m.mode [(.zp0, 0x86), (.abs, 0x8E), (.zpy, 0x96)]
  | .sty m => opcodeAt m.mode [(.zp0, 0x84), (.abs, 0x8C), (.zpx, 0x94)]
  | .tax => some 0xAA
  | .tay => some 0xA8
  | .tsx => some 0xBA
  | .txa => some 0x8A
  | .txs => some 0x9A
  | .tya => some 0x98
  | .nopUnofficial op => if unofficialOpcodes.contains op then some op else none

/-- The operand bytes of an operand form, in address order (30_encoding.md R91, R92). -/
def Operand.bytes : Operand → List Byte
  | .acc => []
  | .imm b | .zp0 b | .zpx b | .zpy b | .izx b | .izy b => [b]
  | .abs w | .abx w | .aby w | .ind w => [loByte w, hiByte w]

/-- The operand bytes of an instruction, in address order. -/
def Instr.operandList : Instr → List Byte
  | .adc m | .and m | .asl m | .bit m | .cmp m | .cpx m | .cpy m | .dec m | .eor m | .inc m | .jmp m | .lda m
  | .ldx m | .ldy m | .lsr m | .ora m | .rol m | .ror m | .sbc m | .sta m | .stx m | .sty m => m.bytes
  | .bcc d | .bcs d | .beq d | .bmi d | .bne d | .bpl d | .bvc d | .bvs d => [d]
  | .jsr w => [loByte w, hiByte w]
  | .brk | .clc | .cld | .cli | .clv | .dex | .dey | .inx | .iny | .nop | .pha | .php | .pla | .plp | .rti | .rts
  | .sec | .sed | .sei | .tax | .tay | .tsx | .txa | .txs | .tya | .nopUnofficial _ => []

/-- The bytes of a well-formed instruction, in address order; none for a term the table has no opcode for. -/
def encode (i : Instr) : Option (List Byte) := (opcodeOf i).map (· :: i.operandList)

/-- The bytes of a table word: `nbits` bits of `w`, bit 0 the least significant bit of the first byte, zero bits above, up to
the longest instruction (three bytes, 30_encoding.md R93). -/
def tableBytes (nbits w : Nat) : List Byte :=
  let v := w % 2 ^ nbits
  [BitVec.ofNat 8 v, BitVec.ofNat 8 (v / 256), BitVec.ofNat 8 (v / 65536)]

/-- The instruction the decoder reads from a table word. -/
def decodeTableWord (nbits w : Nat) : Option Instr :=
  match decode (tableBytes nbits w) with
  | .ok (i, _) => some i
  | .error _ => none

end Sys2Proof
end

