-- ==== Sys2Proof/Config.lean ====
section
/-! DEFINITION. What is fixed for every instance of the block (00_scope.md R6: "Fixed by the document and not
parameters"), and the one value the spec leaves free for ever (`PEEK_PPU`). The parameters of an instance (the cartridge,
the power-on memories, the schedule of the environment) are data: `Machine.Params` in Machine/State.lean. -/

namespace Sys2Proof.Config

/-- The CPU is clocked on every third master tick (60_exceptions.md R260, R261). -/
def cpuDivider : Nat := 3

/-- Dots per scanline (60_exceptions.md R262; 90_conflicts.md C2). -/
def dotsPerScanline : Nat := 341

/-- Scanlines per frame (60_exceptions.md R262; 90_conflicts.md C2: 261, not the glossary's 262). -/
def scanlinesPerFrame : Nat := 261

/-- Where the NMI vector's low byte lies (60_exceptions.md R255). -/
def nmiVector : Word := 0xFFFA

/-- Where the RESET vector's low byte lies (60_exceptions.md R255). -/
def resetVector : Word := 0xFFFC

/-- Where the IRQ and BRK vector's low byte lies (60_exceptions.md R255). -/
def irqVector : Word := 0xFFFE

/-- What `cycles_remaining` becomes by RESET (70_reset_and_hazards.md R280). -/
def resetCycles : Nat := 8

/-- What `cycles_remaining` becomes by IRQ entry (60_exceptions.md R254). -/
def irqCycles : Nat := 7

/-- What `cycles_remaining` becomes by NMI entry (60_exceptions.md R256). -/
def nmiCycles : Nat := 8

/-- `PEEK_PPU` (00_scope.md R6; 20_memory.md R77; D32): the byte a read-only debugger read returns in the PPU window. The
spec leaves it open ("any byte"), so it is a free value: it has no body, nothing can be proved of it. The first argument
numbers the debugger read (the parameter is "a byte per debugger read"), the second is the address. DESIGN CHOICE, safe:
notes/assumptions/7.md. -/
opaque peekPpu : Nat → Word → Byte

end Sys2Proof.Config
end

