-- ==== Sys2Proof/Machine/State.lean ====
section
/-! DEFINITION. The state of the block as plain data (10_state.md), the parameters of an instance (00_scope.md R6), and the
state right after reset. Every piece of state the spec names has one home here; nothing is a function. -/

namespace Sys2Proof.Machine

/-- A byte array of the block (system RAM, PRG, CHR, palette, pattern shadow): (index, byte) pairs, indices strictly rising,
no pair whose byte is what an unlisted index reads as (`memUnlisted` of Machine/Ops.lean). -/
abbrev Memory := List Host.Cell

/-- The fitted cartridge (10_state.md R34; 20_memory.md R49 to R56). The mapper is Mapper 0 and has no state (R35, R56). -/
structure Cartridge where
  /-- `N_PRG_BANKS`, 16 KiB each (20_memory.md R52). -/
  prgBanks : Nat
  /-- `N_CHR_BANKS`, 8 KiB each (20_memory.md R53). -/
  chrBanks : Nat
  /-- `prg`, indices 0 to N_PRG_BANKS * 16384 - 1; a CPU write to 0x8000..0xFFFF changes it (20_memory.md R50). -/
  prg : Memory
  /-- `chr`, indices 0 to N_CHR_BANKS * 8192 - 1; never written (20_memory.md R54). -/
  chr : Memory
  deriving DecidableEq, Repr

/-- What the CPU reaches of the PPU: the registers behind the window 0x2000..0x3FFF and the PPU's own memories. -/
structure Ppu where
  /-- `ctrl`, `$2000` (10_state.md R23). -/
  ctrl : Byte
  /-- `mask`, `$2001` (R24). -/
  mask : Byte
  /-- `ppu_status`, `$2002` (R25). -/
  status : Byte
  /-- `address_latch`: is the next `$2006` write the second of a pair? (R27) -/
  addressLatch : Bool
  /-- `ppu_addr_reg`, all 16 bits (R28). -/
  addrReg : Word
  /-- `data_buffer` (R29). -/
  dataBuffer : Byte
  /-- `palette`, indices 0 to 31 (R30). -/
  palette : Memory
  /-- `pattern[2][4096]`, cell `[t][i]` at index `t * 4096 + i` (R31). -/
  pattern : Memory
  deriving DecidableEq, Repr

/-- What the environment can do between two master ticks (60_exceptions.md R252, R266; 20_memory.md R77). -/
inductive Event where
  /-- RESET is asserted (70_reset_and_hazards.md R281). -/
  | reset
  /-- IRQ is asserted (60_exceptions.md R254). -/
  | irq
  /-- NMI is asserted (60_exceptions.md R256). -/
  | nmi
  /-- The debugger port reads an address, `readonly_hint = false` (20_memory.md R77). -/
  | debugRead (addr : Word)
  /-- The debugger port writes a byte (20_memory.md R77). -/
  | debugWrite (addr : Word) (value : Byte)
  /-- The environment clears `frame_complete` (60_exceptions.md R266). -/
  | clearFrame
  deriving DecidableEq, Repr

/-- The state of the block. -/
structure State where
  /-- The accumulator (10_state.md R10). -/
  a : Byte
  /-- Index register x (R10). -/
  x : Byte
  /-- Index register y (R10). -/
  y : Byte
  /-- The stack pointer, an index into page 1 (R11 to R13). -/
  sp : Byte
  /-- The program counter (R14). -/
  pc : Word
  /-- The flag register, bits N V U B D I Z C from 7 to 0 (R15 to R18). -/
  status : Byte
  /-- Scratch: the operand byte (R19). -/
  fetched : Byte
  /-- Scratch: the effective address (R19). -/
  addrAbs : Word
  /-- Scratch: the sign-extended branch offset (R19). -/
  addrRel : Word
  /-- Scratch: the opcode byte of the instruction last fetched (R19). -/
  opcode : Byte
  /-- `cycles_remaining`: CPU clocks still to idle (R20). -/
  cyclesRemaining : Nat
  /-- System RAM, indices 0 to 0x7FF (R21). -/
  ram : Memory
  /-- `system_clock`: master ticks since reset (R22). -/
  systemClock : Nat
  /-- The fitted cartridge, if there is one (`CART_PRESENT`, 00_scope.md R6; 10_state.md R34). -/
  cart : Option Cartridge
  /-- The PPU behind its register window (R23 to R31). -/
  ppu : Ppu
  /-- `dot`, 0 to 340 (R33). -/
  dot : Nat
  /-- `scanline`, 0 to 260 (R33). -/
  scanline : Nat
  /-- `frame_complete` (R33). -/
  frameComplete : Bool
  /-- The model's own: RESET has been asserted since power-on (R38: before that no CPU step is claimed about).
  DESIGN CHOICE, safe: notes/assumptions/3.md. -/
  everReset : Bool
  /-- The model's own: what is left of the environment's schedule `ENV` (00_scope.md R6), each entry the number of master
  ticks to let pass and then the event. A finite list: a schedule with events for ever is held only as far as its first
  so many events. DESIGN CHOICE: notes/assumptions/2.md. -/
  env : List (Nat × Event)
  deriving DecidableEq, Repr

/-- Why the machine stops with a fault: never. "The hardware raises no synchronous exception", "There is no behaviour in
this block that the spec treats as `fault` or `stuck`" (60_exceptions.md R250; 93_implementation_defined.md). -/
inductive Fault where
  deriving DecidableEq, Repr

/-- Why a step is refused. -/
inductive Refusal where
  /-- Raised by an arm of `exec` for an instruction that has no meaning yet; safe (nothing is claimed of it). -/
  | notModelled (mnemonic : String)
  /-- Raised by `step` when RESET has never been asserted since power-on and the schedule asks for a tick or an interrupt:
  "should treat a CPU step from a never-reset state as refused" (10_state.md R38; U3); safe. -/
  | neverReset
  /-- Raised by `step` when the fitted cartridge has no PRG or no CHR bank: "A model refuses `N_PRG_BANKS == 0`", "A model
  refuses `N_CHR_BANKS == 0`" (20_memory.md R52, R53; U6, U8); safe. -/
  | cartridgeNotAdmitted
  deriving DecidableEq, Repr

/-- The outcome of a step of this machine. -/
abbrev Outcome := Host.Outcome State Fault Refusal

/-- The parameters of an instance (00_scope.md R6). -/
structure Params where
  /-- The cartridge, none for `CART_PRESENT == false`: `N_PRG_BANKS`, `N_CHR_BANKS`, `PRG_INIT`, `CHR`. -/
  cart : Option Cartridge
  /-- `RAM_INIT`. -/
  ram : Memory
  /-- `PPU_MEM_INIT`, the palette. -/
  palette : Memory
  /-- `PPU_MEM_INIT`, the pattern shadow. -/
  pattern : Memory
  /-- `ENV`, restricted to the schedules with finitely many events, where R6 speaks of every tick boundary and D8 leaves the
  parameter open. DESIGN CHOICE, unsafe for a claim about endless runs: notes/assumptions/2.md. -/
  env : List (Nat × Event)
  deriving DecidableEq, Repr

/-- The cartridge of `State.reset`: that of the "standard start" of 95_test_vectors.md (one PRG bank, one CHR bank), with no
byte of it set. DESIGN CHOICE, unsafe: notes/assumptions/5.md. -/
def Cartridge.blank : Cartridge := { prgBanks := 1, chrBanks := 1, prg := [], chr := [] }

/-- The parameters of the instance `State.reset` belongs to. DESIGN CHOICE: notes/assumptions/2.md, 4.md, 5.md. -/
def Params.standard : Params := { cart := some Cartridge.blank, ram := [], palette := [], pattern := [], env := [] }

/-- The PPU at power-on with given memories (10_state.md R38; D26). -/
def Ppu.powerOn (palette pattern : Memory) : Ppu :=
  { ctrl := 0, mask := 0, status := 0, addressLatch := false, addrReg := 0, dataBuffer := 0, palette, pattern }

/-- The machine right after reset (10_state.md R38; 70_reset_and_hazards.md R280 to R282, R284) with the parameters
`Params.standard`. The pc is the word at 0xFFFC read through the bus: 0x0000, the blank cartridge's (log 5). The value of
`opcode` is a DESIGN CHOICE (log 6), the memories' contents are (log 4). -/
def State.reset : State :=
  { a := 0, x := 0, y := 0, sp := 0xFD, pc := 0x0000, status := 0x20
    fetched := 0, addrAbs := 0, addrRel := 0, opcode := 0, cyclesRemaining := Config.resetCycles
    ram := Params.standard.ram, systemClock := 0, cart := Params.standard.cart
    ppu := Ppu.powerOn Params.standard.palette Params.standard.pattern
    dot := 0, scanline := 0, frameComplete := false, everReset := true, env := Params.standard.env }

end Sys2Proof.Machine
end

