-- ==== Sys2Proof/Machine/Ops.lean ====
section
/-! DEFINITION. The named operations over memory and registers: byte arrays, Mapper 0, the PPU bus, the PPU register window,
the CPU bus, the stack, and taking an exception (IRQ, NMI, RESET, BRK's share of it) with the return from one. Every access of
an instruction goes through `busRead` and `busWrite`. -/

namespace Sys2Proof.Machine

/-! ### Byte arrays -/

/-- What a cell reads as that no pair lists. DESIGN CHOICE, unsafe: the spec leaves the power-on contents open (D26);
notes/assumptions/4.md. -/
def memUnlisted : Byte := 0x00

/-- The byte at an index. -/
def memRead : Memory → Nat → Byte
  | [], _ => memUnlisted
  | (k, b) :: m, i => if k = i then b else memRead m i

/-- Store a byte at an index; the canonical form is kept, so writing what an unlisted index reads as removes the pair. -/
def memWrite : Memory → Nat → Byte → Memory
  | [], i, v => if v = memUnlisted then [] else [(i, v)]
  | (k, b) :: m, i, v =>
    if i < k then (if v = memUnlisted then (k, b) :: m else (i, v) :: (k, b) :: m)
    else if i = k then (if v = memUnlisted then m else (k, v) :: m)
    else (k, b) :: memWrite m i v

/-- The canonical form of an array of `size` bytes: indices strictly rising and below `size`, no pair that an unlisted index
would read as. -/
def Memory.wf (size : Nat) : Memory → Bool
  | [] => true
  | (k, b) :: m => decide (k < size) && b != memUnlisted && m.all (fun c => decide (k < c.1)) && Memory.wf size m

/-- The array with given leading bytes from index `i` on. -/
def memOfBytes : Nat → List Byte → Memory
  | _, [] => []
  | i, b :: bs => if b = memUnlisted then memOfBytes (i + 1) bs else (i, b) :: memOfBytes (i + 1) bs

/-! ### Mapper 0 (20_memory.md R51, R54, R55) -/

/-- `CpuMapRead = CpuMapWrite` (R51): the offset into `prg` of a CPU address the cartridge claims. On a miss there is no
`mapped` to see (R55). -/
def cpuMap (c : Cartridge) (addr : Word) : Option Nat :=
  if 0x8000 ≤ addr then some ((addr &&& (if c.prgBanks = 2 then 0x7FFF else 0x3FFF)).toNat) else none

/-- The PPU read channel of Mapper 0 (R54): the offset into `chr` of a PPU address. The PPU write channel never hits. -/
def ppuMapRead (addr : Word) : Option Nat := if addr ≤ 0x1FFF then some addr.toNat else none

/-- Cartridge CPU read (R49): an answer only where the mapper hits. -/
def cartRead (c : Cartridge) (addr : Word) : Option Byte := (cpuMap c addr).map (memRead c.prg)

/-- Cartridge CPU write (R50): on a hit the byte goes into `prg`. -/
def cartWrite (c : Cartridge) (addr : Word) (v : Byte) : Option Cartridge :=
  (cpuMap c addr).map fun k => { c with prg := memWrite c.prg k v }

/-- Has the cartridge a shape the model admits (20_memory.md R52, R53; D28)? No cartridge at all is admitted. -/
def cartAdmitted : Option Cartridge → Bool
  | none => true
  | some c => c.prgBanks != 0 && c.chrBanks != 0

/-! ### The PPU's internal bus (20_memory.md R70 to R76) -/

/-- The palette cell of a PPU address (R74): five bits, with 0x10, 0x14, 0x18, 0x1C mirroring 0x00, 0x04, 0x08, 0x0C. -/
def paletteIndex (addr : Word) : Nat :=
  let i := (addr &&& 0x1F).toNat
  if i = 0x10 ∨ i = 0x14 ∨ i = 0x18 ∨ i = 0x1C then i - 0x10 else i

/-- The cell `pattern[addr[12]][addr[11:0]]` (R72) as an index of the array. -/
def patternIndex (addr : Word) : Nat := (addr &&& 0x1FFF).toNat

/-- `PpuRead` (R70, R72, R74, R75): pattern range (the cartridge's `chr` where the mapper answers, else the shadow),
nametable range (nothing is connected: 0x00), palette. A PPU read changes no state (R76). -/
def ppuRead (cart : Option Cartridge) (p : Ppu) (addr : Word) : Byte :=
  let addr := addr &&& 0x3FFF
  if addr ≤ 0x1FFF then
    match cart.bind fun c => (ppuMapRead addr).map (memRead c.chr) with
    | some v => v
    | none => memRead p.pattern (patternIndex addr)
  else if addr ≤ 0x3EFF then 0x00
  else memRead p.palette (paletteIndex addr)

/-- `PpuWrite` (R71, R72, R74, R75): the pattern shadow (Mapper 0 never claims a PPU write), nothing in the nametable range,
the palette. -/
def ppuWrite (p : Ppu) (addr : Word) (v : Byte) : Ppu :=
  let addr := addr &&& 0x3FFF
  if addr ≤ 0x1FFF then { p with pattern := memWrite p.pattern (patternIndex addr) v }
  else if addr ≤ 0x3EFF then p
  else { p with palette := memWrite p.palette (paletteIndex addr) v }

/-! ### The PPU register window (20_memory.md R60 to R69) -/

/-- `PpuRegRead(2)` (R63): the top three bits of `ppu_status` with the low five of the buffer; then bit 7 and the latch are
cleared. -/
def ppuReadStatus (p : Ppu) : Byte × Ppu :=
  ((p.status &&& 0xE0) ||| (p.dataBuffer &&& 0x1F), { p with status := p.status &&& 0x7F, addressLatch := false })

/-- `PpuRegRead(7)` (R68): the buffered byte, or the fresh one from 0x3F00 of the 16-bit pointer on; the buffer is refilled
and the pointer incremented in either case. -/
def ppuReadData (cart : Option Cartridge) (p : Ppu) : Byte × Ppu :=
  let fresh := ppuRead cart p p.addrReg
  (if 0x3F00 ≤ p.addrReg then fresh else p.dataBuffer, { p with dataBuffer := fresh, addrReg := p.addrReg + 1 })

/-- `PpuRegRead(r)`, `r` in 0..7 (R61, R63, R68). -/
def ppuRegRead (cart : Option Cartridge) (p : Ppu) (r : Word) : Byte × Ppu :=
  if r = 2 then ppuReadStatus p
  else if r = 7 then ppuReadData cart p
  else (0x00, p)

/-- `PpuRegWrite(6, v)` (R67): the high six bits, then the low eight, told apart by the latch. -/
def ppuWriteAddr (p : Ppu) (v : Byte) : Ppu :=
  if p.addressLatch = false then
    { p with addrReg := wordOf (v &&& 0x3F) (loByte p.addrReg), addressLatch := true }
  else { p with addrReg := wordOf (hiByte p.addrReg) v, addressLatch := false }

/-- `PpuRegWrite(7, v)` (R69): a PPU-bus write, then the pointer is incremented. -/
def ppuWriteData (p : Ppu) (v : Byte) : Ppu :=
  let q := ppuWrite p p.addrReg v
  { q with addrReg := q.addrReg + 1 }

/-- `PpuRegWrite(r, v)`, `r` in 0..7 (R62, R64 to R67, R69): registers 2, 3 and 4 drop the byte, 5 flips the latch. -/
def ppuRegWrite (p : Ppu) (r : Word) (v : Byte) : Ppu :=
  if r = 0 then { p with ctrl := v }
  else if r = 1 then { p with mask := v }
  else if r = 5 then { p with addressLatch := !p.addressLatch }
  else if r = 6 then ppuWriteAddr p v
  else if r = 7 then ppuWriteData p v
  else p

/-! ### The CPU bus (20_memory.md R40 to R48) -/

/-- The RAM cell of a CPU address in 0x0000..0x1FFF (R44). -/
def ramIndex (addr : Word) : Nat := (addr &&& 0x07FF).toNat

/-- `MemRead(addr, 1)` (R41): the cartridge is asked first, then RAM, the PPU window, and nothing (0x00). -/
def busRead (addr : Word) (s : State) : Byte × State :=
  match s.cart.bind fun c => cartRead c addr with
  | some v => (v, s)
  | none =>
    if addr ≤ 0x1FFF then (memRead s.ram (ramIndex addr), s)
    else if addr ≤ 0x3FFF then
      let r := ppuRegRead s.cart s.ppu (addr &&& 0x0007)
      (r.1, { s with ppu := r.2 })
    else (0x00, s)

/-- `MemWrite(addr, 1, v)` (R42): the cartridge is asked first, then RAM, the PPU window; elsewhere nothing happens. -/
def busWrite (addr : Word) (v : Byte) (s : State) : State :=
  match s.cart.bind fun c => cartWrite c addr v with
  | some c => { s with cart := some c }
  | none =>
    if addr ≤ 0x1FFF then { s with ram := memWrite s.ram (ramIndex addr) v }
    else if addr ≤ 0x3FFF then { s with ppu := ppuRegWrite s.ppu (addr &&& 0x0007) v }
    else s

/-- The byte at a CPU address as a read would see it, with no side effect; none in the PPU window, where a read is not
inspection (20_memory.md R77, R82). -/
def busPeek (addr : Word) (s : State) : Option Byte :=
  match s.cart.bind fun c => cartRead c addr with
  | some v => some v
  | none =>
    if addr ≤ 0x1FFF then some (memRead s.ram (ramIndex addr))
    else if addr ≤ 0x3FFF then none
    else some 0x00

/-- Is the byte at a CPU address a cell that a write stores into and a read gives back: RAM, or `prg` (R43, R44, R50)? -/
def isStorage (s : State) (addr : Word) : Bool :=
  decide (addr ≤ 0x1FFF) || (s.cart.isSome && decide (0x8000 ≤ addr))

/-- `ReadWord(addr)` (00_scope.md R7; 20_memory.md R80): low byte first, at the lower address; the addresses wrap. -/
def readWord (addr : Word) (s : State) : Word × State :=
  let lo := busRead addr s
  let hi := busRead (addr + 1) lo.2
  (wordOf hi.1 lo.1, hi.2)

/-- The debugger port's read (20_memory.md R77): a bus read, or, with the read-only hint, no change of state and in the PPU
window the free value `PEEK_PPU` of the `n`-th such read. -/
def debugRead (readonlyHint : Bool) (n : Nat) (addr : Word) (s : State) : Byte × State :=
  if readonlyHint then ((busPeek addr s).getD (Config.peekPpu n addr), s) else busRead addr s

/-! ### The stack (10_state.md R12, R13) -/

/-- The address the stack pointer points at: `0x0100 + sp` (R13). -/
def stackAddr (sp : Byte) : Word := wordOf 0x01 sp

/-- `Push(v)` (R13): store at the stack pointer, then decrement it modulo 256. -/
def push (v : Byte) (s : State) : State :=
  let t := busWrite (stackAddr s.sp) v s
  { t with sp := t.sp - 1 }

/-- `Pull()` (R13): increment the stack pointer modulo 256, then read there. -/
def pull (s : State) : Byte × State := busRead (stackAddr (s.sp + 1)) { s with sp := s.sp + 1 }

/-- Push a word, high byte first (44 R211; 20_memory.md R80). -/
def pushWord (w : Word) (s : State) : State := push (loByte w) (push (hiByte w) s)

/-- Pull a word, low byte first (44 R212). -/
def pullWord (s : State) : Word × State :=
  let lo := pull s
  let hi := pull lo.2
  (wordOf hi.1 lo.1, hi.2)

/-! ### Taking an exception (45 R227, R232; 60_exceptions.md R254 to R256) and returning from one (45 R234) -/

/-- The save-and-vector sequence that IRQ, NMI and BRK share: the pc is pushed, high byte first, then a status byte; the live
status becomes `live` with I set; the pc becomes the word at the vector. -/
def enterHandler (pushed live : Byte) (vector : Word) (s : State) : State :=
  let t := push pushed (pushWord s.pc s)
  let r := readWord vector { t with status := live ||| 0x04 }
  { r.2 with pc := r.1 }

/-- The status with B cleared and U set, which interrupt entry both leaves in the live register and pushes (60 R254; R227). -/
def interruptStatus (status : Byte) : Byte := (status &&& ~~~(0x10 : Byte)) ||| 0x20

/-- The status byte that PHP and BRK push: B and U forced to 1 (45 R225, R227). -/
def pushedStatus (status : Byte) : Byte := status ||| 0x30

/-- `EnterNMI` (60 R256): always honoured. -/
def enterNmi (s : State) : State :=
  { enterHandler (interruptStatus s.status) (interruptStatus s.status) Config.nmiVector s with
    cyclesRemaining := Config.nmiCycles }

/-- `EnterIRQ` (60 R253, R254): only with I clear; otherwise nothing at all, and the request is lost. -/
def enterIrq (s : State) : State :=
  if s.status &&& 0x04 = 0 then
    { enterHandler (interruptStatus s.status) (interruptStatus s.status) Config.irqVector s with
      cyclesRemaining := Config.irqCycles }
  else s

/-- BRK's own sequence (45 R232): the byte after the opcode is skipped, then the shared entry with B and U set in the pushed
byte only and the rest of the live status kept. -/
def enterBrk (s : State) : State :=
  enterHandler (pushedStatus s.status) s.status Config.irqVector { s with pc := s.pc + 1 }

/-- The return from an exception (45 R234): status from the stack with B and U cleared, then the pc, with nothing added. -/
def returnFromInterrupt (s : State) : State :=
  let p := pull s
  let r := pullWord { p.2 with status := p.1 &&& 0xCF }
  { r.2 with pc := r.1 }

/-- `CpuReset` (70 R280): nothing is pushed, `opcode` is not touched. -/
def cpuReset (s : State) : State :=
  let r := readWord Config.resetVector { s with a := 0, x := 0, y := 0, sp := 0xFD, status := 0x20 }
  { r.2 with pc := r.1, addrAbs := 0, addrRel := 0, fetched := 0, cyclesRemaining := Config.resetCycles }

/-- `Reset` (70 R281, R282): the CPU and the clock counter, nothing else. From now on the machine has been reset (log 3). -/
def assertReset (s : State) : State := { cpuReset s with systemClock := 0, everReset := true }

end Sys2Proof.Machine
end

