-- ==== Sys2Proof/Machine/Clock.lean ====
section
/-! DEFINITION. The clocks between instructions (60_exceptions.md R260 to R262) and the environment's events (R252, R266). -/

namespace Sys2Proof.Machine

/-- One PPU dot clock (60 R262): the dot counter, the scanline counter, and `frame_complete` when the latter wraps. -/
def ppuDotClock (s : State) : State :=
  let dot := s.dot + 1
  let s :=
    if dot = Config.dotsPerScanline then { s with dot := 0, scanline := s.scanline + 1 } else { s with dot := dot }
  if s.scanline = Config.scanlinesPerFrame then { s with scanline := 0, frameComplete := true } else s

/-- A master tick on which the CPU executes nothing (60 R260; 40 R110): the dot clock, on every third tick one CPU clock that
only counts down, the tick counter. -/
def idleTick (s : State) : State :=
  let t := ppuDotClock s
  { t with
    cyclesRemaining := if s.systemClock % Config.cpuDivider = 0 then s.cyclesRemaining - 1 else s.cyclesRemaining
    systemClock := s.systemClock + 1 }

/-- So many idle ticks, one after the other. -/
def idleTicks : Nat → State → State
  | 0, s => s
  | n + 1, s => idleTicks n (idleTick s)

/-- How many of the next `n` master ticks clock the CPU (60 R260, R261). -/
def cpuClocksIn (clock n : Nat) : Nat :=
  (clock + n + (Config.cpuDivider - 1)) / Config.cpuDivider - (clock + (Config.cpuDivider - 1)) / Config.cpuDivider

/-- So many idle ticks at once: where the dot counter stays within its scanline, the counters are advanced by plain addition.
It equals `idleTicks` on every state (Laws/Clock.lean, `passTicks_eq`), and it is what `step` evaluates. -/
def passTicks (n : Nat) (s : State) : State :=
  if s.dot + n < Config.dotsPerScanline ∧ s.scanline < Config.scanlinesPerFrame then
    { s with dot := s.dot + n, cyclesRemaining := s.cyclesRemaining - cpuClocksIn s.systemClock n
             systemClock := s.systemClock + n }
  else idleTicks n s

/-- How many master ticks pass before the one on which the CPU executes its next instruction (60 R261): up to the next tick
that clocks the CPU, and three for every cycle still to idle. -/
def ticksToExecute (s : State) : Nat :=
  (Config.cpuDivider - s.systemClock % Config.cpuDivider) % Config.cpuDivider + Config.cpuDivider * s.cyclesRemaining

/-- What an event of the environment does, at once (60 R252, R266; 20_memory.md R77). -/
def deliver (e : Event) (s : State) : State :=
  match e with
  | .reset => assertReset s
  | .irq => enterIrq s
  | .nmi => enterNmi s
  | .debugRead addr => (busRead addr s).2
  | .debugWrite addr v => busWrite addr v s
  | .clearFrame => { s with frameComplete := false }

/-- Is an event an interrupt entry, which needs CPU registers that a reset has set (10_state.md R38)? -/
def isInterrupt : Event → Bool
  | .irq | .nmi => true
  | .reset | .debugRead _ | .debugWrite _ _ | .clearFrame => false

/-- The schedule after so many ticks in which no event fell. -/
def waitEnv (n : Nat) : List (Nat × Event) → List (Nat × Event)
  | [] => []
  | (d, e) :: rest => (d - n, e) :: rest

/-- The next event, if it falls at or before the boundary at which the CPU would execute its next instruction: the idle ticks
before it, the event, the rest of the schedule. -/
def dueEvent (s : State) : Option (Nat × Event × List (Nat × Event)) :=
  match s.env with
  | [] => none
  | (d, e) :: rest => if d ≤ ticksToExecute s then some (d, e, rest) else none

end Sys2Proof.Machine
end

