-- ==== Sys2Proof/Machine/Flags.lean ====
section
/-! DEFINITION. The flags: the masks, setting one bit of `status`, and every flag computation of the spec (40 R130; 42 R160,
R166, R167; 43 R181 to R184). -/

namespace Sys2Proof.Machine

/-- The mask of C, carry (10_state.md R15). -/
def flagC : Byte := 0x01
/-- The mask of Z, zero. -/
def flagZ : Byte := 0x02
/-- The mask of I, interrupt disable. -/
def flagI : Byte := 0x04
/-- The mask of D, decimal. -/
def flagD : Byte := 0x08
/-- The mask of V, overflow. -/
def flagV : Byte := 0x40
/-- The mask of N, negative. -/
def flagN : Byte := 0x80

/-- Is a flag set in a status byte? -/
def hasFlag (mask status : Byte) : Bool := status &&& mask != 0

/-- Set or clear one flag "via OR / AND-NOT with the mask", leaving the other seven bits alone (10_state.md R15). -/
def putFlag (mask : Byte) (b : Bool) (status : Byte) : Byte := if b then status ||| mask else status &&& ~~~mask

/-- `SetZN(v)` on a status byte (40 R130). -/
def znStatus (v status : Byte) : Byte := putFlag flagN (v &&& 0x80 != 0) (putFlag flagZ (v == 0) status)

/-- `SetZN(v)` (40 R130). -/
def setZN (v : Byte) (s : State) : State := { s with status := znStatus v s.status }

/-- The carry flag as a number. -/
def carryNat (status : Byte) : Nat := if hasFlag flagC status then 1 else 0

/-- `temp` of `AddWithCarry` (42 R160): the exact sum, 0 to 511. -/
def adcSum (a value status : Byte) : Nat := a.toNat + value.toNat + carryNat status

/-- The accumulator after `AddWithCarry` (R160): the sum modulo 256. -/
def adcResult (a value status : Byte) : Byte := BitVec.ofNat 8 (adcSum a value status)

/-- V of `AddWithCarry` (R160), by the document's formula on the old accumulator. -/
def adcOverflow (a value status : Byte) : Bool :=
  (~~~(a ^^^ value) &&& (a ^^^ adcResult a value status)) &&& 0x80 != 0

/-- The status after `AddWithCarry` (R160): C, Z, N, V from the old accumulator and the old carry. -/
def adcStatus (a value status : Byte) : Byte :=
  putFlag flagV (adcOverflow a value status)
    (znStatus (adcResult a value status) (putFlag flagC (decide (adcSum a value status > 255)) status))

/-- `AddWithCarry(value)` (42 R160), the adder of ADC and SBC; D is not read. -/
def addWithCarry (value : Byte) (s : State) : State :=
  { s with a := adcResult s.a value s.status, status := adcStatus s.a value s.status }

/-- The status after a compare of a register value with an operand (42 R167): C unsigned at-least, Z equal, N bit 7 of the
difference. -/
def compareStatus (r m status : Byte) : Byte := znStatus (r - m) (putFlag flagC (decide (m ≤ r)) status)

/-- The status after BIT (42 R166): Z from the and, N and V from bits 7 and 6 of the operand. -/
def bitStatus (a m status : Byte) : Byte :=
  putFlag flagV (m &&& 0x40 != 0) (putFlag flagN (m &&& 0x80 != 0) (putFlag flagZ (a &&& m == 0) status))

/-- What a shift or rotate makes of its operand: the byte, and the bit shifted out. -/
structure Shifted where
  value : Byte
  carry : Bool
  deriving DecidableEq, Repr

/-- ASL (43 R181): zero in at the right, old bit 7 out. -/
def shiftLeft (_carryIn : Bool) (m : Byte) : Shifted := { value := m <<< 1, carry := m.getLsbD 7 }

/-- LSR (43 R182): zero in at the left, old bit 0 out. -/
def shiftRight (_carryIn : Bool) (m : Byte) : Shifted := { value := m >>> 1, carry := m.getLsbD 0 }

/-- ROL (43 R183): the old carry in at the right, old bit 7 out. -/
def rotateLeft (carryIn : Bool) (m : Byte) : Shifted :=
  { value := (m <<< 1) ||| (if carryIn then 0x01 else 0x00), carry := m.getLsbD 7 }

/-- ROR (43 R184): the old carry in at the left, old bit 0 out. -/
def rotateRight (carryIn : Bool) (m : Byte) : Shifted :=
  { value := (if carryIn then 0x80 else 0x00) ||| (m >>> 1), carry := m.getLsbD 0 }

/-- The status after a shift or rotate (43 R181 to R184): C the bit shifted out, Z and N from the result. -/
def shiftStatus (r : Shifted) (status : Byte) : Byte := znStatus r.value (putFlag flagC r.carry status)

end Sys2Proof.Machine
end

