-- ==== Sys2Proof/Machine/Operands.lean ====
section
/-! DEFINITION. The address-mode resolver and the helpers of the instruction files (40_fetch_execute_and_addressing.md). The
operand bytes have been read from the instruction stream before a mode runs (Machine/Run.lean, `fetch`), all of them before any
other access of the instruction, as the rules have it; so a mode here starts with its operand bytes and with the pc at the next
instruction. -/

namespace Sys2Proof.Machine

/-- A byte as a word (00_scope.md R7, `zext_16`). -/
def zext16 (b : Byte) : Word := wordOf 0x00 b

/-- A byte as a signed word (00_scope.md R7, `sext_16`; 40 R123). -/
def sext16 (b : Byte) : Word := if b &&& 0x80 = 0 then wordOf 0x00 b else wordOf 0xFF b

/-- Has adding an index changed the high byte of an address (40 R113, R121)? -/
def pageCrossed (base addr : Word) : Bool := hiByte base != hiByte addr

/-- Read a pointer of page zero: both bytes from page 0, low byte first, the second address wrapping in the page (40 R125,
R126). -/
def readZeroPageWord (t : Byte) (s : State) : Word × State :=
  let lo := busRead (zext16 t) s
  let hi := busRead (zext16 (t + 1)) lo.2
  (wordOf hi.1 lo.1, hi.2)

/-- Where the high byte of an indirect target lies (40 R124): after the pointer, or, with the page-wrap bug, at the start of
the pointer's page when its low byte is 0xFF. -/
def indirectHighAddr (ptr : Word) : Word := if loByte ptr = 0xFF then ptr &&& 0xFF00 else ptr + 1

/-- Read the target of JMP's IND mode, low byte first (40 R124). -/
def readIndirect (ptr : Word) (s : State) : Word × State :=
  let lo := busRead ptr s
  let hi := busRead (indirectHighAddr ptr) lo.2
  (wordOf hi.1 lo.1, hi.2)

/-- Run an addressing mode (40 R115 to R126): set the scratch it sets, with the bus reads of its pointers in order; the first
component is `add1`, whether indexing crossed a page. -/
def addrMode (m : Operand) (s : State) : Bool × State :=
  match m with
  | .acc => (false, { s with fetched := s.a })
  | .imm _ => (false, { s with addrAbs := s.pc - 1 })
  | .zp0 b => (false, { s with addrAbs := zext16 b })
  | .zpx b => (false, { s with addrAbs := zext16 (b + s.x) })
  | .zpy b => (false, { s with addrAbs := zext16 (b + s.y) })
  | .abs w => (false, { s with addrAbs := w })
  | .abx w => (pageCrossed w (w + zext16 s.x), { s with addrAbs := w + zext16 s.x })
  | .aby w => (pageCrossed w (w + zext16 s.y), { s with addrAbs := w + zext16 s.y })
  | .ind w =>
    let r := readIndirect w s
    (false, { r.2 with addrAbs := r.1 })
  | .izx b =>
    let r := readZeroPageWord (b + s.x) s
    (false, { r.2 with addrAbs := r.1 })
  | .izy b =>
    let r := readZeroPageWord b s
    (pageCrossed r.1 (r.1 + zext16 s.y), { r.2 with addrAbs := r.1 + zext16 s.y })

/-- Run the mode IMP (40 R114). -/
def impliedMode (s : State) : State := { s with fetched := s.a }

/-- `Fetch()` (40 R112) after the mode has run: the accumulator in mode ACC, the operand byte in mode IMM (that byte of the
instruction stream has been read once, by `fetch` of Machine/Run.lean), else one bus read of the effective address. -/
def fetchOperand (m : Operand) (s : State) : Byte × State :=
  match m with
  | .acc => (s.fetched, s)
  | .imm v => (v, { s with fetched := v })
  | .zp0 _ | .zpx _ | .zpy _ | .abs _ | .abx _ | .aby _ | .ind _ | .izx _ | .izy _ =>
    let r := busRead s.addrAbs s
    (r.1, { r.2 with fetched := r.1 })

/-- Add to the cycles the instruction will take. -/
def addCycles (n : Nat) (s : State) : State := { s with cyclesRemaining := s.cyclesRemaining + n }

/-- Mode and `Fetch()` of an operation that reads its operand; `sensitive` is the operation's `add2` (40 R113; 30 R103): the
page-cross cycle is added when it and `add1` are both 1. -/
def readOperand (sensitive : Bool) (m : Operand) (s : State) : Byte × State :=
  let r := addrMode m s
  let v := fetchOperand m r.2
  (v.1, if r.1 && sensitive then addCycles 1 v.2 else v.2)

/-- `WriteBack(v)` (40 R128): to the accumulator in mode ACC, else one bus write at the effective address. -/
def writeBack (m : Operand) (v : Byte) (s : State) : State :=
  match m with
  | .acc => { s with a := v }
  | .imm _ | .zp0 _ | .zpx _ | .zpy _ | .abs _ | .abx _ | .aby _ | .ind _ | .izx _ | .izy _ => busWrite s.addrAbs v s

/-- A store (41 R143 to R145): the mode, then one bus write and no read of the target (40 R129). -/
def storeOperand (m : Operand) (v : Byte) (s : State) : State :=
  let r := addrMode m s
  busWrite r.2.addrAbs v r.2

/-- A shift or rotate (43 R180 to R184): mode, one read, flags from the result, one write back. -/
def shiftOperand (f : Bool → Byte → Shifted) (m : Operand) (s : State) : State :=
  let r := readOperand false m s
  let res := f (hasFlag flagC r.2.status) r.1
  writeBack m res.value { r.2 with status := shiftStatus res r.2.status }

/-- INC and DEC (43 R185, R186): mode, one read, one write of the changed byte at the same address, Z and N from it. -/
def modifyMemory (f : Byte → Byte) (m : Operand) (s : State) : State :=
  let r := readOperand false m s
  setZN (f r.1) (busWrite r.2.addrAbs (f r.1) r.2)

/-- `Branch(cond)` after the mode REL (40 R123; 44 R200): a taken branch costs one cycle, and one more when the target lies on
another page than the next instruction. -/
def branch (cond : Bool) (offset : Byte) (s : State) : State :=
  let s := { s with addrRel := sext16 offset }
  if cond then
    let target := s.pc + s.addrRel
    let s := addCycles (if pageCrossed s.pc target then 2 else 1) s
    { s with pc := target }
  else s

end Sys2Proof.Machine
end

