-- ==== Sys2Proof/Machine/Arithmetic.lean ====
section
/-! DEFINITION. Arithmetic, logic, bit-test and compare instructions (42_arithmetic_logic_compare.md). `D` is read by none of them. -/

namespace Sys2Proof.Machine

/-- ADC (42 R161): the adder on the operand; page-cross sensitive. -/
def execAdc (m : Operand) (s : State) : Outcome :=
  let r := readOperand true m s
  .next (addWithCarry r.1 r.2)

/-- SBC (42 R162): the adder on the inverted operand; page-cross sensitive. -/
def execSbc (m : Operand) (s : State) : Outcome :=
  let r := readOperand true m s
  .next (addWithCarry (r.1 ^^^ 0xFF) r.2)

/-- AND (42 R163): bitwise and of `a` and the operand, Z and N from it; page-cross sensitive. -/
def execAnd (m : Operand) (s : State) : Outcome :=
  let r := readOperand true m s
  let v := r.2.a &&& r.1
  .next (setZN v { r.2 with a := v })

/-- ORA (42 R164): bitwise or of `a` and the operand, Z and N from it; page-cross sensitive. -/
def execOra (m : Operand) (s : State) : Outcome :=
  let r := readOperand true m s
  let v := r.2.a ||| r.1
  .next (setZN v { r.2 with a := v })

/-- EOR (42 R165): bitwise exclusive or of `a` and the operand, Z and N from it; page-cross sensitive. -/
def execEor (m : Operand) (s : State) : Outcome :=
  let r := readOperand true m s
  let v := r.2.a ^^^ r.1
  .next (setZN v { r.2 with a := v })

/-- BIT (42 R166): Z from `a` and the operand, N and V from bits 7 and 6 of the operand; `a` is kept. -/
def execBit (m : Operand) (s : State) : Outcome :=
  let r := readOperand false m s
  .next { r.2 with status := bitStatus r.2.a r.1 r.2.status }

/-- CMP (42 R168): C, Z, N from `a` against the operand, nothing stored; page-cross sensitive. -/
def execCmp (m : Operand) (s : State) : Outcome :=
  let r := readOperand true m s
  .next { r.2 with status := compareStatus r.2.a r.1 r.2.status }

/-- CPX (42 R169): C, Z, N from `x` against the operand, nothing stored. -/
def execCpx (m : Operand) (s : State) : Outcome :=
  let r := readOperand false m s
  .next { r.2 with status := compareStatus r.2.x r.1 r.2.status }

/-- CPY (42 R170): C, Z, N from `y` against the operand, nothing stored. -/
def execCpy (m : Operand) (s : State) : Outcome :=
  let r := readOperand false m s
  .next { r.2 with status := compareStatus r.2.y r.1 r.2.status }

end Sys2Proof.Machine
end

