-- ==== Sys2Proof/Machine/Control.lean ====
section
/-! DEFINITION. Branches, jumps, subroutine call and return (44_branch_jump_subroutine.md). None writes a flag. -/

namespace Sys2Proof.Machine

/-- BCC (44 R201), branch if carry clear. -/
def execBcc (offset : Byte) (s : State) : Outcome :=
  .next (branch (!hasFlag flagC s.status) offset s)

/-- BCS (44 R202), branch if carry set. -/
def execBcs (offset : Byte) (s : State) : Outcome :=
  .next (branch (hasFlag flagC s.status) offset s)

/-- BEQ (44 R203), branch if zero set. -/
def execBeq (offset : Byte) (s : State) : Outcome :=
  .next (branch (hasFlag flagZ s.status) offset s)

/-- BNE (44 R204), branch if zero clear. -/
def execBne (offset : Byte) (s : State) : Outcome :=
  .next (branch (!hasFlag flagZ s.status) offset s)

/-- BMI (44 R205), branch if negative set. -/
def execBmi (offset : Byte) (s : State) : Outcome :=
  .next (branch (hasFlag flagN s.status) offset s)

/-- BPL (44 R206), branch if negative clear. -/
def execBpl (offset : Byte) (s : State) : Outcome :=
  .next (branch (!hasFlag flagN s.status) offset s)

/-- BVC (44 R207), branch if overflow clear. -/
def execBvc (offset : Byte) (s : State) : Outcome :=
  .next (branch (!hasFlag flagV s.status) offset s)

/-- BVS (44 R208), branch if overflow set. -/
def execBvs (offset : Byte) (s : State) : Outcome :=
  .next (branch (hasFlag flagV s.status) offset s)

/-- JMP (44 R209): the pc becomes the effective address; the two forms differ in the mode alone. -/
def execJmp (m : Operand) (s : State) : Outcome :=
  let r := addrMode m s
  .next { r.2 with pc := r.2.addrAbs }

/-- JSR (44 R211): push the address of its own last byte, high byte first, and jump. -/
def execJsr (addr : Word) (s : State) : Outcome :=
  let s := { s with addrAbs := addr }
  let t := pushWord (s.pc - 1) s
  .next { t with pc := addr }

/-- RTS (44 R212): pull a word, low byte first; the pc is one more. -/
def execRts (s : State) : Outcome :=
  let r := pullWord (impliedMode s)
  .next { r.2 with pc := r.1 + 1 }

end Sys2Proof.Machine
end

