-- ==== Sys2Proof/Machine/Shift.lean ====
section
/-! DEFINITION. Shift, rotate, increment and decrement instructions (43_shift_rotate_incdec.md). -/

namespace Sys2Proof.Machine

/-- ASL (43 R181). -/
def execAsl (m : Operand) (s : State) : Outcome :=
  .next (shiftOperand shiftLeft m s)

/-- LSR (43 R182). -/
def execLsr (m : Operand) (s : State) : Outcome :=
  .next (shiftOperand shiftRight m s)

/-- ROL (43 R183). -/
def execRol (m : Operand) (s : State) : Outcome :=
  .next (shiftOperand rotateLeft m s)

/-- ROR (43 R184). -/
def execRor (m : Operand) (s : State) : Outcome :=
  .next (shiftOperand rotateRight m s)

/-- INC (43 R185): memory plus one modulo 256, Z and N from it; C and V untouched. -/
def execInc (m : Operand) (s : State) : Outcome :=
  .next (modifyMemory (· + 1) m s)

/-- DEC (43 R186): memory minus one modulo 256, Z and N from it; C and V untouched. -/
def execDec (m : Operand) (s : State) : Outcome :=
  .next (modifyMemory (· - 1) m s)

/-- INX (43 R187): `x` + 1 modulo 256, Z and N from it. -/
def execInx (s : State) : Outcome :=
  let s := impliedMode s
  .next (setZN (s.x + 1) { s with x := s.x + 1 })

/-- INY (43 R188): `y` + 1 modulo 256, Z and N from it. -/
def execIny (s : State) : Outcome :=
  let s := impliedMode s
  .next (setZN (s.y + 1) { s with y := s.y + 1 })

/-- DEX (43 R189): `x` - 1 modulo 256, Z and N from it. -/
def execDex (s : State) : Outcome :=
  let s := impliedMode s
  .next (setZN (s.x - 1) { s with x := s.x - 1 })

/-- DEY (43 R190): `y` - 1 modulo 256, Z and N from it. -/
def execDey (s : State) : Outcome :=
  let s := impliedMode s
  .next (setZN (s.y - 1) { s with y := s.y - 1 })

end Sys2Proof.Machine
end

