-- ==== Sys2Proof/Machine/System.lean ====
section
/-! DEFINITION. Stack, flag and system instructions (45_stack_flag_system.md): PHA PLA PHP PLP, BRK and RTI, the seven flag instructions, NOP and the unofficial opcodes. All are one byte, mode IMP. -/

namespace Sys2Proof.Machine

/-- PHA (45 R221): push `a`; no flag. -/
def execPha (s : State) : Outcome :=
  let s := impliedMode s
  .next (push s.a s)

/-- PLA (45 R222): pull into `a`, Z and N from it. -/
def execPla (s : State) : Outcome :=
  let r := pull (impliedMode s)
  .next (setZN r.1 { r.2 with a := r.1 })

/-- PHP (45 R225): push the status with B and U set; the live register is kept. -/
def execPhp (s : State) : Outcome :=
  let s := impliedMode s
  .next (push (pushedStatus s.status) s)

/-- PLP (45 R226): pull all eight bits of the status. -/
def execPlp (s : State) : Outcome :=
  let r := pull (impliedMode s)
  .next { r.2 with status := r.1 }

/-- BRK (45 R232): takes the software interrupt through the IRQ vector, whatever I is. -/
def execBrk (s : State) : Outcome :=
  .next (enterBrk (impliedMode s))

/-- RTI (45 R234): the return from an interrupt or BRK. -/
def execRti (s : State) : Outcome :=
  .next (returnFromInterrupt (impliedMode s))

/-- CLC (45 R236): C <- 0. -/
def execClc (s : State) : Outcome :=
  let s := impliedMode s
  .next { s with status := putFlag flagC false s.status }

/-- SEC (45 R237): C <- 1. -/
def execSec (s : State) : Outcome :=
  let s := impliedMode s
  .next { s with status := putFlag flagC true s.status }

/-- CLD (45 R238): D <- 0. -/
def execCld (s : State) : Outcome :=
  let s := impliedMode s
  .next { s with status := putFlag flagD false s.status }

/-- SED (45 R239): D <- 1; no other instruction heeds D. -/
def execSed (s : State) : Outcome :=
  let s := impliedMode s
  .next { s with status := putFlag flagD true s.status }

/-- CLI (45 R240): I <- 0, IRQ is deliverable from the next boundary on. -/
def execCli (s : State) : Outcome :=
  let s := impliedMode s
  .next { s with status := putFlag flagI false s.status }

/-- SEI (45 R241): I <- 1, IRQ requests are dropped from now on. -/
def execSei (s : State) : Outcome :=
  let s := impliedMode s
  .next { s with status := putFlag flagI true s.status }

/-- CLV (45 R242): V <- 0. -/
def execClv (s : State) : Outcome :=
  let s := impliedMode s
  .next { s with status := putFlag flagV false s.status }

/-- NOP (45 R245): nothing. -/
def execNop (s : State) : Outcome :=
  .next (impliedMode s)

/-- An unofficial opcode (45 R246; 30 R99): executes exactly as NOP does. The opcode byte does not matter. -/
def execNopUnofficial (_opcode : Byte) (s : State) : Outcome :=
  .next (impliedMode s)

end Sys2Proof.Machine
end

