-- ==== Sys2Proof/Machine/Transfer.lean ====
section
/-! DEFINITION. Load, store and register-transfer instructions (41_load_store_transfer.md). -/

namespace Sys2Proof.Machine

/-- LDA (41 R140): the operand into `a`, Z and N from it; page-cross sensitive. -/
def execLda (m : Operand) (s : State) : Outcome :=
  let r := readOperand true m s
  .next (setZN r.1 { r.2 with a := r.1 })

/-- LDX (41 R141): the operand into `x`, Z and N from it; page-cross sensitive. -/
def execLdx (m : Operand) (s : State) : Outcome :=
  let r := readOperand true m s
  .next (setZN r.1 { r.2 with x := r.1 })

/-- LDY (41 R142): the operand into `y`, Z and N from it; page-cross sensitive. -/
def execLdy (m : Operand) (s : State) : Outcome :=
  let r := readOperand true m s
  .next (setZN r.1 { r.2 with y := r.1 })

/-- STA (41 R143): one write of `a`, no read of the target, no flag. -/
def execSta (m : Operand) (s : State) : Outcome :=
  .next (storeOperand m s.a s)

/-- STX (41 R144): one write of `x`, no read of the target, no flag. -/
def execStx (m : Operand) (s : State) : Outcome :=
  .next (storeOperand m s.x s)

/-- STY (41 R145): one write of `y`, no read of the target, no flag. -/
def execSty (m : Operand) (s : State) : Outcome :=
  .next (storeOperand m s.y s)

/-- TAX (41 R146): `x <- a`, Z and N from the byte. -/
def execTax (s : State) : Outcome :=
  let s := impliedMode s
  .next (setZN s.a { s with x := s.a })

/-- TAY (41 R147): `y <- a`, Z and N from the byte. -/
def execTay (s : State) : Outcome :=
  let s := impliedMode s
  .next (setZN s.a { s with y := s.a })

/-- TXA (41 R148): `a <- x`, Z and N from the byte. -/
def execTxa (s : State) : Outcome :=
  let s := impliedMode s
  .next (setZN s.x { s with a := s.x })

/-- TYA (41 R149): `a <- y`, Z and N from the byte. -/
def execTya (s : State) : Outcome :=
  let s := impliedMode s
  .next (setZN s.y { s with a := s.y })

/-- TSX (41 R150): `x <- sp`, Z and N from the byte. -/
def execTsx (s : State) : Outcome :=
  let s := impliedMode s
  .next (setZN s.sp { s with x := s.sp })

/-- TXS (41 R151): `sp <- x`, no flag. -/
def execTxs (s : State) : Outcome :=
  let s := impliedMode s
  .next { s with sp := s.x }

end Sys2Proof.Machine
end

