-- ==== Sys2Proof/Machine/Run.lean ====
section
/-! DEFINITION. Fetching and executing an instruction (40 R110, R111), the master tick (60 R260), the step of the model, the
environment's stepping helpers (60 R267, R268), power-on (70 R284), and where a word is placed so that it is fetched next. -/

namespace Sys2Proof.Machine

/-- What a fetch gives: the instruction, and the state after its bytes have been read, with the pc past them. -/
structure Fetched where
  instr : Instr
  state : State
  deriving DecidableEq, Repr

/-- Read the byte at the pc and advance the pc (`read(pc++)`, 40 section 2). -/
def readPc (s : State) : Byte × State :=
  let r := busRead s.pc s
  (r.1, { r.2 with pc := s.pc + 1 })

/-- Fetch and decode the instruction at the pc (40 R111; 30 R90 to R93): the opcode byte, then the operand bytes its mode
reads, each one bus read with the side effects of its address (20_memory.md R85). -/
def fetch (s : State) : Fetched :=
  let op := readPc s
  let s1 := { op.2 with opcode := op.1 }
  match operandCount op.1 with
  | 0 => { instr := decodeOp op.1 0 0, state := s1 }
  | 1 =>
    let lo := readPc s1
    { instr := decodeOp op.1 lo.1 0, state := lo.2 }
  | _ =>
    let lo := readPc s1
    let hi := readPc lo.2
    { instr := decodeOp op.1 lo.1 hi.1, state := hi.2 }

/-- Go on from a next state. -/
def andThen (o : Outcome) (f : State → Outcome) : Outcome :=
  match o with
  | .next s => f s
  | .fault r => .fault r
  | .refused r => .refused r

/-- `ExecuteInstruction` (40 R111): fetch, load the base count, then the mode and the operation. -/
def executeInstruction (s : State) : Outcome :=
  let f := fetch s
  exec f.instr { f.state with cyclesRemaining := f.instr.baseCycles }

/-- `CpuClock` (40 R110): execute when nothing is left to idle; count down in either case. -/
def cpuClock (s : State) : Outcome :=
  andThen (if s.cyclesRemaining = 0 then executeInstruction s else .next s) fun t =>
    .next { t with cyclesRemaining := t.cyclesRemaining - 1 }

/-- `MasterTick` (60 R260). -/
def masterTick (s : State) : Outcome :=
  andThen (if s.systemClock % Config.cpuDivider = 0 then cpuClock (ppuDotClock s) else .next (ppuDotClock s)) fun t =>
    .next { t with systemClock := t.systemClock + 1 }

/-- So many master ticks, stopping where one gives no next state. -/
def masterTicks : Nat → State → Outcome
  | 0, s => .next s
  | n + 1, s => andThen (masterTick s) (masterTicks n)

/-- One master tick of the schedule (60 R252): an event that is due at this boundary, or else a master tick, by which the
next event comes one tick nearer. -/
def scheduledTick (s : State) : Outcome :=
  match s.env with
  | (0, e) :: rest => .next (deliver e { s with env := rest })
  | env => masterTick { s with env := waitEnv 1 env }

/-- So many ticks and events of the schedule. -/
def scheduledTicks : Nat → State → Outcome
  | 0, s => .next s
  | n + 1, s => andThen (scheduledTick s) (scheduledTicks n)

/-- The step of the model (notes/assumptions/1.md): let the idle ticks pass and deliver the next event of the environment, if
one falls before the CPU executes again; else let them pass and run the master tick on which the CPU executes one instruction. A
machine that has never been reset delivers a RESET or an access of the debugger port that is due at once, and nothing else. -/
def stepBody (s : State) : Outcome :=
  if !cartAdmitted s.cart then .refused .cartridgeNotAdmitted
  else
    match dueEvent s with
    | some (d, e, rest) =>
      if s.everReset || (d == 0 && !isInterrupt e) then .next (deliver e (passTicks d { s with env := rest }))
      else .refused .neverReset
    | none =>
      if s.everReset then
        masterTick (passTicks (ticksToExecute s) { s with env := waitEnv (ticksToExecute s + 1) s.env })
      else .refused .neverReset

/-! ### The environment's stepping helpers (60 R267, R268) -/

/-- Master ticks while a condition holds, at most `fuel` of them; none where the condition still holds then. -/
def ticksWhile (cond : State → Bool) : Nat → State → Option Outcome
  | 0, s => if cond s then none else some (.next s)
  | n + 1, s =>
    if cond s then
      match masterTick s with
      | .next t => ticksWhile cond n t
      | o => some o
    else some (.next s)

/-- A do-while loop of master ticks: one tick, then more while the condition holds. -/
def ticksDoWhile (cond : State → Bool) (fuel : Nat) (s : State) : Option Outcome :=
  match masterTick s with
  | .next t => ticksWhile cond fuel t
  | o => some o

/-- Go on from the next state a loop ends in. -/
def thenLoop (o : Option Outcome) (f : State → Option Outcome) : Option Outcome :=
  match o with
  | some (.next s) => f s
  | o => o

/-- `StepCpuInstruction` (60 R267; C12): until `cycle_complete()` is false, then until it is true. The fuel of each loop is what
its bound needs: a CPU clock comes within three ticks, and every third tick counts one cycle down. -/
def stepCpuInstruction (s : State) : Option Outcome :=
  thenLoop (ticksDoWhile (fun t => t.cyclesRemaining == 0) Config.cpuDivider s) fun t =>
    ticksDoWhile (fun t => t.cyclesRemaining != 0) (Config.cpuDivider * t.cyclesRemaining) t

/-- Master ticks in a frame (60 R262): 89001. -/
def frameTicks : Nat := Config.dotsPerScanline * Config.scanlinesPerFrame

/-- `StepPpuFrame` (60 R268): tick until `frame_complete`, finish the instruction, clear `frame_complete`. -/
def stepPpuFrame (s : State) : Option Outcome :=
  thenLoop (ticksDoWhile (fun t => !t.frameComplete) frameTicks s) fun t =>
    thenLoop (ticksWhile (fun t => t.cyclesRemaining != 0) (Config.cpuDivider * (t.cyclesRemaining + 1)) t) fun t =>
      some (.next { t with frameComplete := false })

/-! ### Power-on (70 R284) -/

/-- The machine at power-on, before the first reset (10_state.md R38; 70 R284): the memories as the parameters say, the PPU
registers and the counters 0; the CPU registers have no defined value yet (0 here, log 6). -/
def powerOn (p : Params) : State :=
  { a := 0, x := 0, y := 0, sp := 0, pc := 0, status := 0, fetched := 0, addrAbs := 0, addrRel := 0, opcode := 0
    cyclesRemaining := 0, ram := p.ram, systemClock := 0, cart := p.cart, ppu := Ppu.powerOn p.palette p.pattern
    dot := 0, scanline := 0, frameComplete := false, everReset := false, env := p.env }

/-- The power-on sequence of an instance (70 R284): power-on, then the first reset. -/
def boot (p : Params) : State := assertReset (powerOn p)

/-! ### Placing a word where it is fetched next -/

/-- Write bytes at consecutive addresses. -/
def storeBytes : Word → List Byte → State → State
  | _, [], s => s
  | addr, b :: bs, s => storeBytes (addr + 1) bs (busWrite addr b s)

/-- Make the next step an instruction fetch from memory that holds what is stored in it: nothing of the schedule falls before
it, the machine has been reset, its cartridge is admitted, and the pc and the two addresses after it are storage. At
`State.reset` all of this holds and nothing changes. -/
def readyToFetch (s : State) : State :=
  let s := { s with everReset := true, env := if (dueEvent s).isSome then [] else s.env
                    cart := if cartAdmitted s.cart then s.cart else none }
  if isStorage s s.pc && isStorage s (s.pc + 1) && isStorage s (s.pc + 2) then s else { s with pc := 0x0000 }

/-- The state with the bytes of a table word stored where the next instruction is fetched. -/
def placeWord (s : State) (nbits w : Nat) : State :=
  let s := readyToFetch s
  storeBytes s.pc (tableBytes nbits w) s

end Sys2Proof.Machine
end

