-- ==== Sys2Proof/Machine/INes.lean ====
section
/-! DEFINITION. The iNES v1 image that the cartridge is built from before the machine exists (20_memory.md R57 to R59). The
loader's failures are no faults of the machine: no cartridge is built. -/

namespace Sys2Proof.Machine

/-- Why no cartridge is built from an image (20_memory.md R59), and the shapes a model refuses (R52, R53; D28). -/
inductive LoadError where
  /-- The magic bytes do not match (R58 step 1). -/
  | invalidFormat
  /-- The mapper id is not 0 (R56; R58 step 6). -/
  | unsupportedMapper (id : Byte)
  /-- The image is shorter than its header declares (R59). -/
  | ioError
  /-- Zero PRG banks or zero CHR banks (R52, R53; 90_conflicts.md C11). -/
  | shapeNotAdmitted
  deriving DecidableEq, Repr

/-- The magic bytes "NES" and 0x1A (R57). -/
def inesMagic : List Byte := [0x4E, 0x45, 0x53, 0x1A]

/-- The header is 16 bytes (R57). -/
def inesHeaderBytes : Nat := 16

/-- A trainer is 512 bytes (R57, R58 step 3). -/
def inesTrainerBytes : Nat := 512

/-- The header byte at an offset (R57). -/
def headerByte (image : List Byte) (k : Nat) : Byte := image.getD k 0

/-- `mapper_id` (R58 step 4): the high nibble of byte 7 and, as low nibble, the high nibble of byte 6. -/
def mapperId (flags6 flags7 : Byte) : Byte := (flags7 &&& 0xF0) ||| (flags6 >>> 4)

/-- Has the image a trainer (R57: byte 6 bit 2)? -/
def hasTrainer (flags6 : Byte) : Bool := flags6 &&& 0x04 != 0

/-- Take exactly so many bytes off a list, or fail as a read past the end does (R59). -/
def takeBytes (n : Nat) (bytes : List Byte) : Except LoadError (List Byte × List Byte) :=
  if bytes.length < n then .error .ioError else .ok (bytes.take n, bytes.drop n)

/-- Build the cartridge from an image, in the order of R58. -/
def loadImage (image : List Byte) : Except LoadError Cartridge := do
  let (header, rest) ← takeBytes inesHeaderBytes image
  if header.take 4 ≠ inesMagic then .error .invalidFormat
  let prgBanks := (headerByte header 4).toNat
  let chrBanks := (headerByte header 5).toNat
  let (_, rest) ← takeBytes (if hasTrainer (headerByte header 6) then inesTrainerBytes else 0) rest
  let (prg, rest) ← takeBytes (prgBanks * 16384) rest
  let (chr, _) ← takeBytes (chrBanks * 8192) rest
  let id := mapperId (headerByte header 6) (headerByte header 7)
  if id ≠ 0 then .error (.unsupportedMapper id)
  if prgBanks = 0 ∨ chrBanks = 0 then .error .shapeNotAdmitted
  return { prgBanks, chrBanks, prg := memOfBytes 0 prg, chr := memOfBytes 0 chr }

end Sys2Proof.Machine
end

