-- ==== Sys2Proof/Safety.lean ====
section
/-! DEFINITION. What the states of a run are like: the canonical form of every memory and the ranges the spec gives the
counters. A step from such a state gives such a state (a statement of Certificates/Slice0). -/

namespace Sys2Proof.Machine

/-- `prg` and `chr` are canonical arrays of the sizes the bank counts give (10_state.md R34), and the shape is one the model
admits (20_memory.md R52, R53). With one bank or three and more only the first 16 KiB of `prg` are ever written (R51, R52). -/
def Cartridge.wf (c : Cartridge) : Bool :=
  c.prgBanks != 0 && c.chrBanks != 0 && Memory.wf (c.prgBanks * 16384) c.prg && Memory.wf (c.chrBanks * 8192) c.chr

/-- The palette and the pattern shadow are canonical arrays of 32 and 8192 bytes (10_state.md R30, R31), and no one has listed
a palette cell that only its mirror reaches (20_memory.md R74). -/
def Ppu.wf (p : Ppu) : Bool :=
  Memory.wf 32 p.palette && Memory.wf 8192 p.pattern &&
    p.palette.all fun c => decide (c.1 ≠ 0x10 ∧ c.1 ≠ 0x14 ∧ c.1 ≠ 0x18 ∧ c.1 ≠ 0x1C)

/-- Every memory of a state is in its canonical form and within its array. -/
def State.memoriesWf (s : State) : Bool :=
  Memory.wf 2048 s.ram && Ppu.wf s.ppu && (s.cart.all Cartridge.wf)

/-- The counters are in the ranges the spec gives them (10_state.md R20, R33). -/
def State.countersOk (s : State) : Bool :=
  decide (s.cyclesRemaining ≤ 8 ∧ s.dot ≤ 340 ∧ s.scanline ≤ 260)

/-- The state invariant of the block. -/
def State.Inv (s : State) : Bool := s.memoriesWf && s.countersOk

/-- The bits of `status` but B and U, the two that no computation reads (10_state.md R18; 70 R290: mask with 0xCF). -/
def flagsOnly (status : Byte) : Byte := status &&& 0xCF

/-- What a program can see of a state: all but B and U of the live status, which it can never observe (10_state.md R18), and
the scratch and timing state, which no instruction reads (R19, R37): registers, flags, memories, the PPU behind its window. -/
structure Visible where
  a : Byte
  x : Byte
  y : Byte
  sp : Byte
  pc : Word
  flags : Byte
  ram : Memory
  cart : Option Cartridge
  ppu : Ppu
  deriving DecidableEq, Repr

/-- The program-visible part of a state. -/
def State.visible (s : State) : Visible :=
  { a := s.a, x := s.x, y := s.y, sp := s.sp, pc := s.pc, flags := flagsOnly s.status
    ram := s.ram, cart := s.cart, ppu := s.ppu }

/-! ### The terms of the statements: what the spec's rules say of an instruction, written without the operations that the
meanings call -/

/-- The status byte with given flags, bits N V U B D I Z C from 7 to 0 (10_state.md R15). -/
def statusOf (n v u b d i z c : Bool) : Byte := BitVec.ofBoolListLE [c, z, i, d, b, u, v, n]

/-- The status after Z and N have been taken from a byte: the other six bits as they were (40 R130). -/
def statusZN (byte old : Byte) : Byte :=
  statusOf (n := byte.getLsbD 7) (v := old.getLsbD 6) (u := old.getLsbD 5) (b := old.getLsbD 4) (d := old.getLsbD 3)
    (i := old.getLsbD 2) (z := decide (byte = 0)) (c := old.getLsbD 0)

/-- The status after C has been given and Z and N have been taken from a byte: the other five bits as they were. -/
def statusCZN (c : Bool) (byte old : Byte) : Byte :=
  statusOf (n := byte.getLsbD 7) (v := old.getLsbD 6) (u := old.getLsbD 5) (b := old.getLsbD 4) (d := old.getLsbD 3)
    (i := old.getLsbD 2) (z := decide (byte = 0)) (c := c)

/-- The word that two bytes of page zero of the RAM hold, the second address wrapping in the page (40 R125, R126). -/
def zeroPageWord (s : State) (t : Byte) : Word :=
  BitVec.ofNat 16 ((memRead s.ram (t + 1).toNat).toNat * 256 + (memRead s.ram t.toNat).toNat)

/-- The effective address of an operand form, by the table of 40 R127. In mode IMM it is the address of the operand byte, one
before the next instruction. A form that has no address of its own gives the scratch it leaves, or its pointer. -/
def operandAddr (m : Operand) (s : State) : Word :=
  match m with
  | .acc => s.addrAbs
  | .imm _ => s.pc - 1
  | .zp0 b => BitVec.ofNat 16 b.toNat
  | .zpx b => BitVec.ofNat 16 ((b.toNat + s.x.toNat) % 256)
  | .zpy b => BitVec.ofNat 16 ((b.toNat + s.y.toNat) % 256)
  | .abs w => w
  | .abx w => BitVec.ofNat 16 (w.toNat + s.x.toNat)
  | .aby w => BitVec.ofNat 16 (w.toNat + s.y.toNat)
  | .ind w => w
  | .izx b => zeroPageWord s (BitVec.ofNat 8 (b.toNat + s.x.toNat))
  | .izy b => BitVec.ofNat 16 ((zeroPageWord s b).toNat + s.y.toNat)

/-- The page of an address: its high byte (00_scope.md R9). -/
def pageOf (addr : Word) : Nat := addr.toNat / 256

/-- Does indexing in this form change the high byte of the address (40 R113, R121, R122, R126)? -/
def crossesPage (m : Operand) (s : State) : Bool :=
  match m with
  | .abx w | .aby w => decide (pageOf w ≠ pageOf (operandAddr m s))
  | .izy b => decide (pageOf (zeroPageWord s b) ≠ pageOf (operandAddr m s))
  | .acc | .imm _ | .zp0 _ | .zpx _ | .zpy _ | .abs _ | .ind _ | .izx _ => false

/-- The operand byte of a form (40 R112): the accumulator, the immediate, or what one bus read of the effective address gives. -/
def operandByte (m : Operand) (s : State) : Byte :=
  match m with
  | .acc => s.a
  | .imm v => v
  | .zp0 _ | .zpx _ | .zpy _ | .abs _ | .abx _ | .aby _ | .ind _ | .izx _ | .izy _ => (busRead (operandAddr m s) s).1

/-- The state after an operand has been read (40 R112, R113, R127): the scratch, what the one bus read of the effective address
does to the PPU, and the page-cross cycle of a page-cross sensitive operation. Everything else is as before. -/
def afterRead (sensitive : Bool) (m : Operand) (s : State) : State :=
  match m with
  | .acc => { s with fetched := s.a }
  | .imm v => { s with fetched := v, addrAbs := operandAddr m s }
  | .zp0 _ | .zpx _ | .zpy _ | .abs _ | .abx _ | .aby _ | .ind _ | .izx _ | .izy _ =>
    { s with
      fetched := operandByte m s, addrAbs := operandAddr m s, ppu := (busRead (operandAddr m s) s).2.ppu
      cyclesRemaining := s.cyclesRemaining + (if sensitive && crossesPage m s then 1 else 0) }

/-- The word at a vector (60_exceptions.md R255; 20_memory.md R80): low byte at the lower address. -/
def vectorWord (vector : Word) (s : State) : Word :=
  BitVec.ofNat 16 (((busPeek (vector + 1) s).getD 0).toNat * 256 + ((busPeek vector s).getD 0).toNat)

/-- The RAM after a byte has been pushed at a stack pointer: its cell in page 1 (10_state.md R13). -/
def stacked (ram : Memory) (sp v : Byte) : Memory := memWrite ram (256 + sp.toNat) v

/-- The RAM after a word and a status byte have been pushed: high byte, low byte, status, downwards (60_exceptions.md R254). -/
def stackedFrame (ram : Memory) (sp : Byte) (w : Word) (status : Byte) : Memory :=
  stacked (stacked (stacked ram sp (BitVec.ofNat 8 (w.toNat / 256))) (sp - 1) (BitVec.ofNat 8 w.toNat)) (sp - 2) status

/-- The byte of page 1 that `n` pulls reach (10_state.md R13). -/
def pulled (s : State) (n : Byte) : Byte := memRead s.ram (256 + (s.sp + n).toNat)

/-- What so many bus reads from an address on give, one after the other, and the state they leave (20_memory.md R85): the bytes of
an instruction as a fetch reads them, with the side effects of the PPU window where they lie in it. -/
def readCode : Nat → Word → State → List Byte × State
  | 0, _, s => ([], s)
  | n + 1, addr, s =>
    let first := busRead addr s
    let others := readCode n (addr + 1) first.2
    (first.1 :: others.1, others.2)

/-- A state that `step` runs an instruction from: reset has been asserted, the cartridge is admitted, and no event of the
environment falls before the instruction. -/
def State.runs (s : State) : Bool := s.everReset && cartAdmitted s.cart && (dueEvent s).isNone

/-- The storage cell behind a CPU address: a cell of the RAM (false), a cell of `prg` (true), or none (20_memory.md R43). -/
def cellOf (s : State) (addr : Word) : Option (Bool × Nat) :=
  if addr.toNat ≤ 0x1FFF then some (false, addr.toNat % 0x800)
  else if addr.toNat < 0x8000 then none
  else s.cart.map fun c => (true, addr.toNat % (if c.prgBanks = 2 then 0x8000 else 0x4000))

/-- Is an address in the PPU register window (20_memory.md R45)? -/
def inPpuWindow (addr : Word) : Bool := decide (0x2000 ≤ addr.toNat ∧ addr.toNat ≤ 0x3FFF)

/-- The instructions whose operand form says where they store: the stores, INC, DEC and the shifts in memory; with the form. -/
def storeTarget : Instr → Option Operand
  | .sta m | .stx m | .sty m | .inc m | .dec m => some m
  | .asl m | .lsr m | .rol m | .ror m => if m = .acc then none else some m
  | .adc _ | .and _ | .bcc _ | .bcs _ | .beq _ | .bit _ | .bmi _ | .bne _ | .bpl _ | .brk | .bvc _ | .bvs _ | .clc | .cld
  | .cli | .clv | .cmp _ | .cpx _ | .cpy _ | .dex | .dey | .eor _ | .inx | .iny | .jmp _ | .jsr _ | .lda _ | .ldx _
  | .ldy _ | .nop | .ora _ | .pha | .php | .pla | .plp | .rti | .rts | .sbc _ | .sec | .sed | .sei | .tax | .tay | .tsx
  | .txa | .txs | .tya | .nopUnofficial _ => none

/-- How many bytes an instruction pushes on the stack (44 R211; 45 R221, R225, R232). -/
def pushCount : Instr → Nat
  | .pha | .php => 1
  | .jsr _ => 2
  | .brk => 3
  | .adc _ | .and _ | .asl _ | .bcc _ | .bcs _ | .beq _ | .bit _ | .bmi _ | .bne _ | .bpl _ | .bvc _ | .bvs _ | .clc | .cld
  | .cli | .clv | .cmp _ | .cpx _ | .cpy _ | .dec _ | .dex | .dey | .eor _ | .inc _ | .inx | .iny | .jmp _ | .lda _
  | .ldx _ | .ldy _ | .lsr _ | .nop | .ora _ | .pla | .plp | .rol _ | .ror _ | .rti | .rts | .sbc _ | .sec | .sed | .sei
  | .sta _ | .stx _ | .sty _ | .tax | .tay | .tsx | .txa | .txs | .tya | .nopUnofficial _ => 0

/-- How many bytes an instruction pulls from the stack (44 R212; 45 R222, R226, R234). -/
def pullCount : Instr → Nat
  | .pla | .plp => 1
  | .rts => 2
  | .rti => 3
  | .adc _ | .and _ | .asl _ | .bcc _ | .bcs _ | .beq _ | .bit _ | .bmi _ | .bne _ | .bpl _ | .brk | .bvc _ | .bvs _ | .clc
  | .cld | .cli | .clv | .cmp _ | .cpx _ | .cpy _ | .dec _ | .dex | .dey | .eor _ | .inc _ | .inx | .iny | .jmp _ | .jsr _
  | .lda _ | .ldx _ | .ldy _ | .lsr _ | .nop | .ora _ | .pha | .php | .rol _ | .ror _ | .sbc _ | .sec | .sed | .sei
  | .sta _ | .stx _ | .sty _ | .tax | .tay | .tsx | .txa | .txs | .tya | .nopUnofficial _ => 0

/-- The bits of `status` an instruction may write, as a mask (10_state.md R16, R17, R18). -/
def writtenFlags : Instr → Byte
  | .adc _ | .sbc _ => 0xC3
  | .bit _ => 0xC2
  | .cmp _ | .cpx _ | .cpy _ | .asl _ | .lsr _ | .rol _ | .ror _ => 0x83
  | .and _ | .ora _ | .eor _ | .lda _ | .ldx _ | .ldy _ | .inc _ | .dec _ | .inx | .iny | .dex | .dey | .tax | .tay | .txa
  | .tya | .tsx | .pla => 0x82
  | .clc | .sec => 0x01
  | .cli | .sei | .brk => 0x04
  | .cld | .sed => 0x08
  | .clv => 0x40
  | .plp | .rti => 0xFF
  | .bcc _ | .bcs _ | .beq _ | .bmi _ | .bne _ | .bpl _ | .bvc _ | .bvs _ | .jmp _ | .jsr _ | .rts | .nop | .pha | .php
  | .sta _ | .stx _ | .sty _ | .txs | .nopUnofficial _ => 0x00

/-- May an instruction change the accumulator (10_state.md R10)? -/
def writesA : Instr → Bool
  | .adc _ | .sbc _ | .and _ | .ora _ | .eor _ | .lda _ | .pla | .txa | .tya => true
  | .asl m | .lsr m | .rol m | .ror m => decide (m = .acc)
  | .bcc _ | .bcs _ | .beq _ | .bit _ | .bmi _ | .bne _ | .bpl _ | .brk | .bvc _ | .bvs _ | .clc | .cld | .cli | .clv
  | .cmp _ | .cpx _ | .cpy _ | .dec _ | .dex | .dey | .inc _ | .inx | .iny | .jmp _ | .jsr _ | .ldx _ | .ldy _ | .nop
  | .pha | .php | .plp | .rti | .rts | .sec | .sed | .sei | .sta _ | .stx _ | .sty _ | .tax | .tay | .tsx | .txs
  | .nopUnofficial _ => false

/-- May an instruction change x (10_state.md R10)? -/
def writesX : Instr → Bool
  | .ldx _ | .inx | .dex | .tax | .tsx => true
  | .adc _ | .and _ | .asl _ | .bcc _ | .bcs _ | .beq _ | .bit _ | .bmi _ | .bne _ | .bpl _ | .brk | .bvc _ | .bvs _ | .clc
  | .cld | .cli | .clv | .cmp _ | .cpx _ | .cpy _ | .dec _ | .dey | .eor _ | .inc _ | .iny | .jmp _ | .jsr _ | .lda _
  | .ldy _ | .lsr _ | .nop | .ora _ | .pha | .php | .pla | .plp | .rol _ | .ror _ | .rti | .rts | .sbc _ | .sec | .sed
  | .sei | .sta _ | .stx _ | .sty _ | .tay | .txa | .txs | .tya | .nopUnofficial _ => false

/-- May an instruction change y (10_state.md R10)? -/
def writesY : Instr → Bool
  | .ldy _ | .iny | .dey | .tay => true
  | .adc _ | .and _ | .asl _ | .bcc _ | .bcs _ | .beq _ | .bit _ | .bmi _ | .bne _ | .bpl _ | .brk | .bvc _ | .bvs _ | .clc
  | .cld | .cli | .clv | .cmp _ | .cpx _ | .cpy _ | .dec _ | .dex | .eor _ | .inc _ | .inx | .jmp _ | .jsr _ | .lda _
  | .ldx _ | .lsr _ | .nop | .ora _ | .pha | .php | .pla | .plp | .rol _ | .ror _ | .rti | .rts | .sbc _ | .sec | .sed
  | .sei | .sta _ | .stx _ | .sty _ | .tax | .tsx | .txa | .txs | .tya | .nopUnofficial _ => false

/-- May an instruction change the pc, which it finds past its own bytes: the control transfers (10_state.md R14). -/
def writesPc : Instr → Bool
  | .bcc _ | .bcs _ | .beq _ | .bmi _ | .bne _ | .bpl _ | .bvc _ | .bvs _ | .jmp _ | .jsr _ | .rts | .brk | .rti => true
  | .adc _ | .and _ | .asl _ | .bit _ | .clc | .cld | .cli | .clv | .cmp _ | .cpx _ | .cpy _ | .dec _ | .dex | .dey | .eor _
  | .inc _ | .inx | .iny | .lda _ | .ldx _ | .ldy _ | .lsr _ | .nop | .ora _ | .pha | .php | .pla | .plp | .rol _ | .ror _
  | .sbc _ | .sec | .sed | .sei | .sta _ | .stx _ | .sty _ | .tax | .tay | .tsx | .txa | .txs | .tya | .nopUnofficial _ => false

/-- Where a branch goes: the next instruction's address plus the signed offset, modulo 65536 (44 R200). -/
def branchTarget (offset : Byte) (s : State) : Word := BitVec.ofInt 16 (s.pc.toNat + offset.toInt)

/-- What a branch does (44 R200): nothing but the scratch when it is not taken; else the target and one cycle, two when the
target is on another page than the next instruction. -/
def afterBranch (taken : Bool) (offset : Byte) (s : State) : State :=
  { s with
    addrRel := BitVec.ofInt 16 offset.toInt
    pc := if taken then branchTarget offset s else s.pc
    cyclesRemaining := s.cyclesRemaining +
      (if taken then (if pageOf (branchTarget offset s) ≠ pageOf s.pc then 2 else 1) else 0) }

/-- The place of the dot counter in the frame, 0 to 89000 in the ranges of 10_state.md R33 (60_exceptions.md R262). -/
def framePosition (s : State) : Nat := s.scanline * 341 + s.dot

end Sys2Proof.Machine
end

