-- ==== Sys2Proof/Certificates/Slice0/Obligations.lean ====
section
/-! DEFINITION. The statements about the model, from the numbered rules of spec/. The terms they use beside the machine's own
(`operandAddr`, `afterRead`, `statusOf`, `stacked`, ...) stand in Safety.lean and are written from the rules, not from the
operations that the meanings call. -/

open Sys2Proof Sys2Proof.Machine

/-! ### Encoding -/

/-- A few words written out from the opcode grid (30_encoding.md R96; the table of R95), one or more per family, decode to their
instructions. The last of them, the unofficial opcode 0x02 (R99), is one byte long by the spec's decision D2 (log 14). -/
def Obligations.SpecWordsDecode : Prop :=
  decode [0xA9, 0x80, 0x55] = .ok (.lda (.imm 0x80), [0x55]) ∧
  decode [0x96, 0x10] = .ok (.stx (.zpy 0x10), []) ∧
  decode [0xBA] = .ok (.tsx, []) ∧
  decode [0x7D, 0x20, 0x80] = .ok (.adc (.abx 0x8020), []) ∧
  decode [0xD1, 0x40] = .ok (.cmp (.izy 0x40), []) ∧
  decode [0x2C, 0x02, 0x20] = .ok (.bit (.abs 0x2002), []) ∧
  decode [0x6A] = .ok (.ror .acc, []) ∧
  decode [0xDE, 0x00, 0x02] = .ok (.dec (.abx 0x0200), []) ∧
  decode [0xD0, 0xFA] = .ok (.bne 0xFA, []) ∧
  decode [0x6C, 0xFF, 0x12] = .ok (.jmp (.ind 0x12FF), []) ∧
  decode [0x20, 0x07, 0x80] = .ok (.jsr 0x8007, []) ∧
  decode [0x00] = .ok (.brk, []) ∧
  decode [0x40] = .ok (.rti, []) ∧
  decode [0xF8] = .ok (.sed, []) ∧
  decode [0x02, 0xA9, 0x05] = .ok (.nopUnofficial 0x02, [0xA9, 0x05])

/-- Decoding the code of a well-formed instruction, whatever follows it, gives the instruction back (30_encoding.md R90 to
R93, R95, R99). -/
def Obligations.DecodeOfEncode : Prop :=
  ∀ (i : Instr) (rest : List Byte), i.WellFormed = true →
    ∃ bs, encode i = some bs ∧ decode (bs ++ rest) = .ok (i, rest)

/-- Whatever bytes decode at all decode to a well-formed instruction whose code they begin with (R90 to R93, R95, R99). -/
def Obligations.EncodeOfDecode : Prop :=
  ∀ (bytes rest : List Byte) (i : Instr), decode bytes = .ok (i, rest) →
    i.WellFormed = true ∧ ∃ bs, encode i = some bs ∧ bytes = bs ++ rest

/-- Every opcode byte is an instruction: three bytes always decode, and how many of them the instruction takes depends on the
first alone (30_encoding.md R90, R93). The unofficial opcodes are the 105 bytes of R99, one byte long each and of two cycles,
whatever follows; their mode and length are the spec's decision D2. -/
def Obligations.EveryOpcodeDecodes : Prop :=
  (∀ op lo hi : Byte, ∃ i, decode [op, lo, hi] = .ok (i, [op, lo, hi].drop (1 + operandCount op)) ∧
    i.length = 1 + operandCount op ∧ 1 ≤ i.length ∧ i.length ≤ 3 ∧
    (i = .nopUnofficial op ↔ op ∈ unofficialOpcodes) ∧
    (op ∈ unofficialOpcodes → i.length = 1 ∧ i.baseCycles = 2)) ∧
  unofficialOpcodes.length = 105 ∧ unofficialOpcodes.Nodup

/-! ### The CPU bus -/

/-- RAM answers 0x0000..0x1FFF and appears four times there (20_memory.md R44): a read gives the cell and changes nothing, what is
written at an address is read at each of its mirrors and at no other RAM address, and after power-on the cells are the
parameter `RAM_INIT`. -/
def Obligations.RamIsMirrored : Prop :=
  (∀ (s : State) (addr other : Word) (v : Byte), s.memoriesWf = true → addr.toNat ≤ 0x1FFF → other.toNat ≤ 0x1FFF →
    busRead other s = (memRead s.ram (other.toNat % 0x800), s) ∧
    busRead other (busWrite addr v s) =
      ((if other.toNat % 0x800 = addr.toNat % 0x800 then v else (busRead other s).1), busWrite addr v s)) ∧
  ∀ p : Params, (boot p).ram = p.ram

/-- The PPU window answers 0x2000..0x3FFF and the register number is the low three bits of the address (20_memory.md R45): a bus
access of the window is that access of that register, with all its side effects, and no other address reaches the PPU. So the eight
registers repeat every eight bytes. -/
def Obligations.PpuWindowIsMirrored : Prop :=
  (∀ (s : State) (addr : Word) (v : Byte),
    let register := BitVec.ofNat 16 (addr.toNat % 8)
    (inPpuWindow addr = true →
      busRead addr s = ((ppuRegRead s.cart s.ppu register).1, { s with ppu := (ppuRegRead s.cart s.ppu register).2 }) ∧
      busWrite addr v s = { s with ppu := ppuRegWrite s.ppu register v }) ∧
    (inPpuWindow addr = false → (busRead addr s).2.ppu = s.ppu ∧ (busWrite addr v s).ppu = s.ppu)) ∧
  ∀ (s : State) (addr other : Word) (v : Byte), inPpuWindow addr = true → inPpuWindow other = true →
    addr.toNat % 8 = other.toNat % 8 →
    busRead addr s = busRead other s ∧ busWrite addr v s = busWrite other v s

/-- Nothing answers in 0x4000..0x7FFF, nor, with no cartridge, in 0x8000..0xFFFF: a read gives 0x00, a write does nothing
(20_memory.md R46, R47; the whole range by D30). -/
def Obligations.UndecodedAddresses : Prop :=
  ∀ (s : State) (addr : Word) (v : Byte), 0x4000 ≤ addr.toNat → (addr.toNat ≤ 0x7FFF ∨ s.cart = none) →
    busRead addr s = (0x00, s) ∧ busWrite addr v s = s

/-- Mapper 0 on the CPU side (20_memory.md R51): it answers 0x8000..0xFFFF and nothing else, with the offset that two banks or
one give. A CPU write there changes PRG, and every address of the same cell reads it back, no other address of the range does
(R50). -/
def Obligations.PrgIsWritableAndMirrored : Prop :=
  ∀ (c : Cartridge) (addr other : Word) (v : Byte),
    let size := if c.prgBanks = 2 then 0x8000 else 0x4000
    cpuMap c addr = (if 0x8000 ≤ addr.toNat then some (addr.toNat % size) else none) ∧
    ∀ s : State, s.memoriesWf = true → s.cart = some c → 0x8000 ≤ addr.toNat → 0x8000 ≤ other.toNat →
      busRead other s = (memRead c.prg (other.toNat % size), s) ∧
      busRead other (busWrite addr v s) =
        ((if other.toNat % size = addr.toNat % size then v else (busRead other s).1), busWrite addr v s)

/-- A bus read changes nothing unless its address is in the PPU window with low three bits 2 or 7, and reading twice where it changes
nothing gives the same byte (20_memory.md R82). The read-only debugger read changes no state and outside the PPU window returns
what a read would, a debugger read without the hint is a bus read (R77); of its value in the window, the free value
`Config.peekPpu` (log 7), nothing is said. -/
def Obligations.ReadSideEffects : Prop :=
  ∀ (s : State) (addr : Word) (n : Nat),
    (¬ (inPpuWindow addr = true ∧ (addr.toNat % 8 = 2 ∨ addr.toNat % 8 = 7)) → (busRead addr s).2 = s) ∧
    (inPpuWindow addr = false → busPeek addr s = some (busRead addr s).1 ∧
      (debugRead true n addr s).1 = (busRead addr s).1) ∧
    (debugRead true n addr s).2 = s ∧ debugRead false n addr s = busRead addr s

/-! ### The PPU register window and the PPU bus -/

/-- Writes of registers 0 and 1 store the byte, writes of registers 2, 3 and 4 do nothing; nothing else changes (20_memory.md R62,
R64, R66). -/
def Obligations.PlainWindowWrites : Prop :=
  ∀ (s : State) (addr : Word) (v : Byte), inPpuWindow addr = true →
    (addr.toNat % 8 = 0 → busWrite addr v s = { s with ppu := { s.ppu with ctrl := v } }) ∧
    (addr.toNat % 8 = 1 → busWrite addr v s = { s with ppu := { s.ppu with mask := v } }) ∧
    (2 ≤ addr.toNat % 8 → addr.toNat % 8 ≤ 4 → busWrite addr v s = s)

/-- Reads of registers 0, 1, 3, 4, 5, 6 give 0x00 and change nothing (20_memory.md R61; the spec's decision D20), and a write of 5 flips
the shared latch and nothing else (R65; D21). -/
def Obligations.UnreadableRegistersAndScroll : Prop :=
  ∀ (s : State) (addr : Word) (v : Byte), inPpuWindow addr = true →
    (addr.toNat % 8 ≠ 2 → addr.toNat % 8 ≠ 7 → busRead addr s = (0x00, s)) ∧
    (addr.toNat % 8 = 5 → busWrite addr v s = { s with ppu := { s.ppu with addressLatch := !s.ppu.addressLatch } })

/-- A read of register 2 gives bits 7 to 5 of the PPU status as they were and the low five bits of the data buffer, then clears
bit 7 of the status and the latch, and changes nothing else (20_memory.md R63; C1, D19). -/
def Obligations.StatusRegisterRead : Prop :=
  ∀ (s : State) (addr : Word), inPpuWindow addr = true → addr.toNat % 8 = 2 →
    (∀ k, k < 8 → (busRead addr s).1.getLsbD k =
      if 5 ≤ k then s.ppu.status.getLsbD k else s.ppu.dataBuffer.getLsbD k) ∧
    ∃ st : Byte, (∀ k, k < 8 → st.getLsbD k = (s.ppu.status.getLsbD k && decide (k ≠ 7))) ∧
      (busRead addr s).2 = { s with ppu := { s.ppu with status := st, addressLatch := false } }

/-- Writes of register 6 load the pointer in two phases (20_memory.md R67): with the latch 0 the high byte with its top two bits
dropped, the low byte kept, latch 1; with the latch 1 the low byte, the high byte kept, latch 0. So a pair from latch 0 leaves
`((v1 & 0x3F) << 8) | v2`. -/
def Obligations.AddressRegisterWrites : Prop :=
  ∀ (s : State) (addr addr' : Word) (v1 v2 : Byte), inPpuWindow addr = true → addr.toNat % 8 = 6 →
    inPpuWindow addr' = true → addr'.toNat % 8 = 6 →
    (s.ppu.addressLatch = false → busWrite addr v1 s = { s with ppu := { s.ppu with
      addrReg := BitVec.ofNat 16 (v1.toNat % 64 * 256 + s.ppu.addrReg.toNat % 256), addressLatch := true } }) ∧
    (s.ppu.addressLatch = true → busWrite addr v1 s = { s with ppu := { s.ppu with
      addrReg := BitVec.ofNat 16 (s.ppu.addrReg.toNat / 256 * 256 + v1.toNat), addressLatch := false } }) ∧
    (s.ppu.addressLatch = false → busWrite addr' v2 (busWrite addr v1 s) = { s with ppu := { s.ppu with
      addrReg := BitVec.ofNat 16 (v1.toNat % 64 * 256 + v2.toNat), addressLatch := false } })

/-- A read of register 7 (20_memory.md R68): the buffered byte, or from 0x3F00 of the 16-bit pointer on the fresh one; the buffer is
refilled and the pointer advanced by one, modulo 65536, in either case (increment and width: D22). So of two reads with a cartridge
and the pointer in the pattern range the first gives the old buffer, the second the CHR byte the pointer was at
(70_reset_and_hazards.md R285). -/
def Obligations.DataRegisterRead : Prop :=
  ∀ (s : State) (addr addr' : Word), inPpuWindow addr = true → addr.toNat % 8 = 7 →
    busRead addr s =
      ((if 0x3F00 ≤ s.ppu.addrReg.toNat then ppuRead s.cart s.ppu s.ppu.addrReg else s.ppu.dataBuffer),
        { s with ppu := { s.ppu with
          dataBuffer := ppuRead s.cart s.ppu s.ppu.addrReg, addrReg := s.ppu.addrReg + 1 } }) ∧
    (∀ c : Cartridge, s.cart = some c → s.ppu.addrReg.toNat ≤ 0x1FFF → inPpuWindow addr' = true → addr'.toNat % 8 = 7 →
      (busRead addr s).1 = s.ppu.dataBuffer ∧
      (busRead addr' (busRead addr s).2).1 = memRead c.chr s.ppu.addrReg.toNat)

/-- A write of register 7 is a PPU-bus write at the pointer, which then advances by one; buffer and latch are untouched
(20_memory.md R69, R71): the palette, or the pattern shadow, or (nametable range) nothing is written. -/
def Obligations.DataRegisterWrite : Prop :=
  ∀ (s : State) (addr : Word) (v : Byte), inPpuWindow addr = true → addr.toNat % 8 = 7 →
    let a := s.ppu.addrReg.toNat % 0x4000
    busWrite addr v s = { s with ppu := { s.ppu with
      addrReg := s.ppu.addrReg + 1
      pattern := if a ≤ 0x1FFF then memWrite s.ppu.pattern a v else s.ppu.pattern
      palette := if 0x3F00 ≤ a then memWrite s.ppu.palette (paletteIndex s.ppu.addrReg) v else s.ppu.palette } }

/-- The palette range of the PPU bus (20_memory.md R74; eight-bit cells: D38): 32 cells repeated, cells 0x10, 0x14, 0x18 and 0x1C being
cells 0x00, 0x04, 0x08 and 0x0C; what is written at one address is read at each address of the same cell and at no other. -/
def Obligations.PaletteIsMirrored : Prop :=
  ∀ (cart : Option Cartridge) (p : Ppu) (addr other : Word) (v : Byte), p.wf = true →
    0x3F00 ≤ addr.toNat % 0x4000 → 0x3F00 ≤ other.toNat % 0x4000 →
    let cell := fun n : Nat => if n % 32 ≥ 16 ∧ n % 4 = 0 then n % 32 - 16 else n % 32
    ppuRead cart (ppuWrite p addr v) other =
      if cell other.toNat = cell addr.toNat then v else ppuRead cart p other

/-- The pattern range of the PPU bus (20_memory.md R72): with a cartridge a read gives CHR whatever has been written there, without one
it gives the last byte written to the shadow. The nametable range is unconnected: reads give 0x00, writes are dropped (R75; the
spec's decision D24). -/
def Obligations.PatternAndNametableRanges : Prop :=
  ∀ (cart : Option Cartridge) (p : Ppu) (addr other : Word) (v : Byte),
    (p.wf = true → addr.toNat % 0x4000 ≤ 0x1FFF → other.toNat % 0x4000 ≤ 0x1FFF →
      (∀ c : Cartridge, ppuRead (some c) (ppuWrite p addr v) other = memRead c.chr (other.toNat % 0x4000)) ∧
      ppuRead none (ppuWrite p addr v) other =
        if other.toNat % 0x4000 = addr.toNat % 0x4000 then v else ppuRead none p other) ∧
    (0x2000 ≤ addr.toNat % 0x4000 → addr.toNat % 0x4000 ≤ 0x3EFF →
      ppuRead cart p addr = 0x00 ∧ ppuWrite p addr v = p)

/-! ### Loads, stores, transfers (41) -/

/-- LDA, LDX and LDY in every form they have (41 R140 to R142): the register gets the operand byte, Z and N come from it, the operand
read has its one side effect and its page-cross cycle, and nothing else changes. -/
def Obligations.LoadsTakeTheOperand : Prop :=
  ∀ (m : Operand) (s : State),
    ((Instr.lda m).WellFormed = true → exec (.lda m) s = .next { afterRead true m s with
      a := operandByte m s, status := statusZN (operandByte m s) s.status }) ∧
    ((Instr.ldx m).WellFormed = true → exec (.ldx m) s = .next { afterRead true m s with
      x := operandByte m s, status := statusZN (operandByte m s) s.status }) ∧
    ((Instr.ldy m).WellFormed = true → exec (.ldy m) s = .next { afterRead true m s with
      y := operandByte m s, status := statusZN (operandByte m s) s.status })

/-- STA, STX and STY in every form they have (41 R143 to R145): one bus write of the register at the effective address, no read of
the target, no flag, no extra cycle. -/
def Obligations.StoresWriteTheRegister : Prop :=
  ∀ (m : Operand) (s : State),
    ((Instr.sta m).WellFormed = true →
      exec (.sta m) s = .next (busWrite (operandAddr m s) s.a { s with addrAbs := operandAddr m s })) ∧
    ((Instr.stx m).WellFormed = true →
      exec (.stx m) s = .next (busWrite (operandAddr m s) s.x { s with addrAbs := operandAddr m s })) ∧
    ((Instr.sty m).WellFormed = true →
      exec (.sty m) s = .next (busWrite (operandAddr m s) s.y { s with addrAbs := operandAddr m s }))

/-- The six transfers (41 R146 to R151): the byte is copied, Z and N come from it except in TXS, and nothing else changes but the
scratch `fetched` that the mode sets (40 R114). -/
def Obligations.TransfersCopyTheRegister : Prop :=
  ∀ s : State,
    exec .tax s = .next { s with fetched := s.a, x := s.a, status := statusZN s.a s.status } ∧
    exec .tay s = .next { s with fetched := s.a, y := s.a, status := statusZN s.a s.status } ∧
    exec .txa s = .next { s with fetched := s.a, a := s.x, status := statusZN s.x s.status } ∧
    exec .tya s = .next { s with fetched := s.a, a := s.y, status := statusZN s.y s.status } ∧
    exec .tsx s = .next { s with fetched := s.a, x := s.sp, status := statusZN s.sp s.status } ∧
    exec .txs s = .next { s with fetched := s.a, sp := s.x }

/-! ### Arithmetic, logic, compare (42) -/

/-- `AddWithCarry` (42 R160): the accumulator becomes the sum with the carry modulo 256, C says that it exceeded 255, Z and N come
from the result, V is signed overflow by the two's complement sum; the other bits are as they were, and D is not asked. -/
def Obligations.AdderComputesSumAndFlags : Prop :=
  ∀ (value : Byte) (s : State),
    let c := if s.status.getLsbD 0 then 1 else 0
    let sum := s.a.toNat + value.toNat + c
    let signed := s.a.toInt + value.toInt + (c : Int)
    addWithCarry value s = { s with
      a := BitVec.ofNat 8 sum
      status := statusOf (n := sum.testBit 7) (v := decide (signed < -128 ∨ 127 < signed)) (u := s.status.getLsbD 5)
        (b := s.status.getLsbD 4) (d := s.status.getLsbD 3) (i := s.status.getLsbD 2)
        (z := decide (sum % 256 = 0)) (c := decide (255 < sum)) }

/-- ADC in every form it has (42 R161): the adder on the operand byte after the operand read, nothing else. -/
def Obligations.AdcAddsTheOperand : Prop :=
  ∀ (m : Operand) (s : State), (Instr.adc m).WellFormed = true →
    exec (.adc m) s = .next (addWithCarry (operandByte m s) (afterRead true m s))

/-- SBC in every form it has (42 R162): `a - m - (1 - C)` modulo 256; C says that no borrow occurred, V is signed overflow of the
difference, Z and N come from the result. -/
def Obligations.SbcSubtractsTheOperand : Prop :=
  ∀ (m : Operand) (s : State), (Instr.sbc m).WellFormed = true →
    let value := operandByte m s
    let borrow : Int := if s.status.getLsbD 0 then 0 else 1
    let diff : Int := (s.a.toNat : Int) - value.toNat - borrow
    let signed : Int := s.a.toInt - value.toInt - borrow
    exec (.sbc m) s = .next { afterRead true m s with
      a := BitVec.ofInt 8 diff
      status := statusOf (n := (BitVec.ofInt 8 diff).getLsbD 7) (v := decide (signed < -128 ∨ 127 < signed))
        (u := s.status.getLsbD 5) (b := s.status.getLsbD 4) (d := s.status.getLsbD 3) (i := s.status.getLsbD 2)
        (z := decide (BitVec.ofInt 8 diff = 0)) (c := decide (0 ≤ diff)) }

/-- AND, ORA and EOR in every form they have (42 R163 to R165): the bitwise result into the accumulator, Z and N from it. -/
def Obligations.LogicCombinesTheOperand : Prop :=
  ∀ (m : Operand) (s : State),
    ((Instr.and m).WellFormed = true → exec (.and m) s = .next { afterRead true m s with
      a := s.a &&& operandByte m s, status := statusZN (s.a &&& operandByte m s) s.status }) ∧
    ((Instr.ora m).WellFormed = true → exec (.ora m) s = .next { afterRead true m s with
      a := s.a ||| operandByte m s, status := statusZN (s.a ||| operandByte m s) s.status }) ∧
    ((Instr.eor m).WellFormed = true → exec (.eor m) s = .next { afterRead true m s with
      a := s.a ^^^ operandByte m s, status := statusZN (s.a ^^^ operandByte m s) s.status })

/-- BIT in both its forms (42 R166; the Z rule is the spec's decision D18): Z from `a & m`, N and V from bits 7 and 6 of the operand,
the accumulator and the other bits kept. -/
def Obligations.BitTestsTheOperand : Prop :=
  ∀ (m : Operand) (s : State), (Instr.bit m).WellFormed = true →
    exec (.bit m) s = .next { afterRead false m s with
      status := statusOf (n := (operandByte m s).getLsbD 7) (v := (operandByte m s).getLsbD 6) (u := s.status.getLsbD 5)
        (b := s.status.getLsbD 4) (d := s.status.getLsbD 3) (i := s.status.getLsbD 2)
        (z := decide (s.a &&& operandByte m s = 0)) (c := s.status.getLsbD 0) }

/-- CMP, CPX and CPY in every form they have (42 R167 to R170): C is register ≥ operand, unsigned; Z is equality; N is bit 7 of the
difference; nothing is stored and V is kept. -/
def Obligations.ComparesSetFlags : Prop :=
  ∀ (m : Operand) (s : State),
    let flags := fun r : Byte =>
      statusCZN (decide ((operandByte m s).toNat ≤ r.toNat)) (BitVec.ofInt 8 (r.toNat - (operandByte m s).toNat)) s.status
    ((Instr.cmp m).WellFormed = true → exec (.cmp m) s = .next { afterRead true m s with status := flags s.a }) ∧
    ((Instr.cpx m).WellFormed = true → exec (.cpx m) s = .next { afterRead false m s with status := flags s.x }) ∧
    ((Instr.cpy m).WellFormed = true → exec (.cpy m) s = .next { afterRead false m s with status := flags s.y })

/-! ### Shifts, rotates, increments (43) -/

/-- The accumulator forms of the four shifts (43 R180 to R184): the result and C by the arithmetic of R181 to R184, Z and N from the
result; no bus access, nothing else changed. -/
def Obligations.ShiftsOnTheAccumulator : Prop :=
  ∀ s : State,
    let v := s.a.toNat
    let c := if s.status.getLsbD 0 then 1 else 0
    let asl := BitVec.ofNat 8 (2 * v)
    let lsr := BitVec.ofNat 8 (v / 2)
    let rol := BitVec.ofNat 8 (2 * v + c)
    let ror := BitVec.ofNat 8 (128 * c + v / 2)
    exec (.asl .acc) s = .next { s with fetched := s.a, a := asl, status := statusCZN (decide (128 ≤ v)) asl s.status } ∧
    exec (.lsr .acc) s = .next { s with fetched := s.a, a := lsr, status := statusCZN (decide (v % 2 = 1)) lsr s.status } ∧
    exec (.rol .acc) s = .next { s with fetched := s.a, a := rol, status := statusCZN (decide (128 ≤ v)) rol s.status } ∧
    exec (.ror .acc) s = .next { s with fetched := s.a, a := ror, status := statusCZN (decide (v % 2 = 1)) ror s.status }

/-- The memory forms of the four shifts (43 R180 to R184): one read of the effective address, then one write of the result there;
C, Z, N as in the accumulator forms; the accumulator is kept and no page-cross cycle is added. -/
def Obligations.ShiftsInMemory : Prop :=
  ∀ (m : Operand) (s : State), m ≠ .acc → (Instr.asl m).WellFormed = true →
    let v := (operandByte m s).toNat
    let c := if s.status.getLsbD 0 then 1 else 0
    let asl := BitVec.ofNat 8 (2 * v)
    let lsr := BitVec.ofNat 8 (v / 2)
    let rol := BitVec.ofNat 8 (2 * v + c)
    let ror := BitVec.ofNat 8 (128 * c + v / 2)
    let stored := fun (r : Byte) (carry : Bool) => { busWrite (operandAddr m s) r (afterRead false m s) with
      status := statusCZN carry r s.status }
    exec (.asl m) s = .next (stored asl (decide (128 ≤ v))) ∧
    exec (.lsr m) s = .next (stored lsr (decide (v % 2 = 1))) ∧
    exec (.rol m) s = .next (stored rol (decide (128 ≤ v))) ∧
    exec (.ror m) s = .next (stored ror (decide (v % 2 = 1)))

/-- INC and DEC in every form they have (43 R185, R186): one read, one write of the byte one more or less modulo 256, Z and N from it.
INX, INY, DEX, DEY (43 R187 to R190) the same on a register. C and V are kept. -/
def Obligations.IncrementsAndDecrements : Prop :=
  let up := fun r : Byte => BitVec.ofNat 8 (r.toNat + 1)
  let down := fun r : Byte => BitVec.ofNat 8 (r.toNat + 255)
  (∀ (m : Operand) (s : State), (Instr.inc m).WellFormed = true →
    let stored := fun r : Byte => { busWrite (operandAddr m s) r (afterRead false m s) with
      status := statusZN r s.status }
    exec (.inc m) s = .next (stored (up (operandByte m s))) ∧
    exec (.dec m) s = .next (stored (down (operandByte m s)))) ∧
  ∀ s : State,
    exec .inx s = .next { s with fetched := s.a, x := up s.x, status := statusZN (up s.x) s.status } ∧
    exec .iny s = .next { s with fetched := s.a, y := up s.y, status := statusZN (up s.y) s.status } ∧
    exec .dex s = .next { s with fetched := s.a, x := down s.x, status := statusZN (down s.x) s.status } ∧
    exec .dey s = .next { s with fetched := s.a, y := down s.y, status := statusZN (down s.y) s.status }

/-! ### Control flow (44) -/

/-- The eight branches (44 R200 to R208): the flag each one tests, the target, the cycles, and nothing else; modulo 65536 by the
spec's decision D12. -/
def Obligations.BranchesTestTheirFlag : Prop :=
  ∀ (offset : Byte) (s : State),
    exec (.bcc offset) s = .next (afterBranch (!s.status.getLsbD 0) offset s) ∧
    exec (.bcs offset) s = .next (afterBranch (s.status.getLsbD 0) offset s) ∧
    exec (.beq offset) s = .next (afterBranch (s.status.getLsbD 1) offset s) ∧
    exec (.bne offset) s = .next (afterBranch (!s.status.getLsbD 1) offset s) ∧
    exec (.bmi offset) s = .next (afterBranch (s.status.getLsbD 7) offset s) ∧
    exec (.bpl offset) s = .next (afterBranch (!s.status.getLsbD 7) offset s) ∧
    exec (.bvc offset) s = .next (afterBranch (!s.status.getLsbD 6) offset s) ∧
    exec (.bvs offset) s = .next (afterBranch (s.status.getLsbD 6) offset s)

/-- JMP in its two forms (44 R209; 40 R120, R124): to the operand, or to the word at the operand, whose high byte comes from the start
of the same page when the pointer's low byte is 0xFF; low byte read first (D14). -/
def Obligations.JmpReachesItsTarget : Prop :=
  ∀ (w : Word) (s : State),
    exec (.jmp (.abs w)) s = .next { s with addrAbs := w, pc := w } ∧
    let high := if w.toNat % 256 = 255 then w.toNat - 255 else w.toNat + 1
    let lo := busRead w s
    let hi := busRead (BitVec.ofNat 16 high) lo.2
    let target := BitVec.ofNat 16 (hi.1.toNat * 256 + lo.1.toNat)
    exec (.jmp (.ind w)) s = .next { s with ppu := hi.2.ppu, addrAbs := target, pc := target }

/-- JSR (44 R211): one form, three bytes with the operand little-endian, six cycles; the address of its own last byte goes on the stack,
high byte first, sp falls by two modulo 256, the pc becomes the operand; no flag changes. -/
def Obligations.JsrPushesAndJumps : Prop :=
  ∀ (w : Word) (s : State),
    let ret := (s.pc.toNat + 65535) % 65536
    (encode (.jsr w) = some [0x20, BitVec.ofNat 8 w.toNat, BitVec.ofNat 8 (w.toNat / 256)] ∧ (Instr.jsr w).baseCycles = 6) ∧
    exec (.jsr w) s = .next { s with
      addrAbs := w, pc := w, sp := s.sp - 2
      ram := stacked (stacked s.ram s.sp (BitVec.ofNat 8 (ret / 256))) (s.sp - 1) (BitVec.ofNat 8 ret) }

/-- RTS (44 R212): opcode 0x60, six cycles; the pc becomes the word pulled, low byte first, plus one, modulo 65536; sp rises by two; no
flag changes. -/
def Obligations.RtsPullsAndReturns : Prop :=
  (encode .rts = some [0x60] ∧ Instr.rts.baseCycles = 6) ∧
  ∀ s : State, exec .rts s = .next { s with
    fetched := s.a, sp := s.sp + 2
    pc := BitVec.ofNat 16 ((pulled s 2).toNat * 256 + (pulled s 1).toNat + 1) }

/-! ### Stack, flags, system (45) -/

/-- The stack primitives (10_state.md R12, R13): a push stores at 0x0100 + sp, a RAM address, and then takes one from sp; a pull adds
one to sp and then reads there; both modulo 256, with no fault: a push at 0x00 leaves 0xFF, a pull at 0xFF reads 0x0100. -/
def Obligations.StackWrapsInPageOne : Prop :=
  ∀ (v : Byte) (s : State),
    push v s = { s with ram := memWrite s.ram (256 + s.sp.toNat) v, sp := BitVec.ofNat 8 ((s.sp.toNat + 255) % 256) } ∧
    (let sp' := BitVec.ofNat 8 ((s.sp.toNat + 1) % 256)
     pull s = (memRead s.ram (256 + sp'.toNat), { s with sp := sp' })) ∧
    (s.sp = 0x00 → (push v s).sp = 0xFF) ∧ (s.sp = 0xFF → pull s = (memRead s.ram 256, { s with sp := 0x00 }))

/-- PHA, PHP, PLA and PLP (45 R221, R222, R225, R226): one byte to or from page 1 at the stack pointer. PHP's byte is the status with
bits 4 and 5 set, and the live status is kept (the spec's decision D5); PLA sets Z and N from its byte; PLP loads all eight bits
of the status (D6). -/
def Obligations.PushesAndPullsMoveOneByte : Prop :=
  ∀ s : State,
    exec .pha s = .next { s with fetched := s.a, ram := stacked s.ram s.sp s.a, sp := s.sp - 1 } ∧
    exec .php s = .next { s with
      fetched := s.a, sp := s.sp - 1
      ram := stacked s.ram s.sp (statusOf (n := s.status.getLsbD 7) (v := s.status.getLsbD 6) (u := true) (b := true)
        (d := s.status.getLsbD 3) (i := s.status.getLsbD 2) (z := s.status.getLsbD 1) (c := s.status.getLsbD 0)) } ∧
    exec .pla s = .next { s with
      fetched := s.a, a := pulled s 1, sp := s.sp + 1, status := statusZN (pulled s 1) s.status } ∧
    exec .plp s = .next { s with fetched := s.a, status := pulled s 1, sp := s.sp + 1 }

/-- BRK (45 R232): it always executes; opcode address + 2 and the status with B and U set go on the stack, sp falls by three, I is set
in the live status and nothing else of it changes, the pc comes from 0xFFFE (one byte long by D4; pushed byte by D5). -/
def Obligations.BrkEntersTheHandler : Prop :=
  ∀ s : State,
    exec .brk s = .next { s with
      fetched := s.a, sp := s.sp - 3, pc := vectorWord 0xFFFE s
      ram := stackedFrame s.ram s.sp (s.pc + 1) (statusOf (n := s.status.getLsbD 7) (v := s.status.getLsbD 6) (u := true)
        (b := true) (d := s.status.getLsbD 3) (i := s.status.getLsbD 2) (z := s.status.getLsbD 1)
        (c := s.status.getLsbD 0))
      status := statusOf (n := s.status.getLsbD 7) (v := s.status.getLsbD 6) (u := s.status.getLsbD 5)
        (b := s.status.getLsbD 4) (d := s.status.getLsbD 3) (i := true) (z := s.status.getLsbD 1)
        (c := s.status.getLsbD 0) }

/-- RTI (45 R234): opcode 0x40, six cycles; status from the stack with B and U cleared, then the pc, low byte first, with nothing
added; sp rises by three. -/
def Obligations.RtiRestoresStatusAndPc : Prop :=
  (encode .rti = some [0x40] ∧ Instr.rti.baseCycles = 6) ∧
  ∀ s : State,
    exec .rti s = .next { s with
      fetched := s.a, sp := s.sp + 3
      status := statusOf (n := (pulled s 1).getLsbD 7) (v := (pulled s 1).getLsbD 6) (u := false) (b := false)
        (d := (pulled s 1).getLsbD 3) (i := (pulled s 1).getLsbD 2) (z := (pulled s 1).getLsbD 1)
        (c := (pulled s 1).getLsbD 0)
      pc := BitVec.ofNat 16 ((pulled s 3).toNat * 256 + (pulled s 2).toNat) }

/-- The seven flag instructions (45 R236 to R242): each changes its one bit of the status and nothing else. -/
def Obligations.FlagInstructionsChangeOneBit : Prop :=
  ∀ s : State,
    let with' := fun (k : Nat) (b : Bool) => { s with
      fetched := s.a
      status := statusOf (n := s.status.getLsbD 7) (v := if k = 6 then b else s.status.getLsbD 6)
        (u := s.status.getLsbD 5) (b := s.status.getLsbD 4) (d := if k = 3 then b else s.status.getLsbD 3)
        (i := if k = 2 then b else s.status.getLsbD 2) (z := s.status.getLsbD 1)
        (c := if k = 0 then b else s.status.getLsbD 0) }
    exec .clc s = .next (with' 0 false) ∧ exec .sec s = .next (with' 0 true) ∧
    exec .cli s = .next (with' 2 false) ∧ exec .sei s = .next (with' 2 true) ∧
    exec .cld s = .next (with' 3 false) ∧ exec .sed s = .next (with' 3 true) ∧
    exec .clv s = .next (with' 6 false)

/-- NOP and every unofficial opcode (45 R245, R246) change nothing when they execute but the scratch `fetched`, which the mode IMP sets
(40 R114; log 10). -/
def Obligations.NopsChangeNothing : Prop :=
  ∀ (s : State) (op : Byte),
    exec .nop s = .next { s with fetched := s.a } ∧ exec (.nopUnofficial op) s = .next { s with fetched := s.a }

/-! ### Frames over all instructions -/

/-- Registers are written only by the instructions 10_state.md R10, R11 and R14 name: a, x and y, the pc (which `exec` is given past the
instruction's bytes) by the control transfers, and the stack pointer by TXS and by as much as the instruction pushes and pulls (44
R211, R212; 45 R221 to R234). -/
def Obligations.RegisterFrame : Prop :=
  ∀ (i : Instr) (s t : State), exec i s = .next t →
    (writesA i = false → t.a = s.a) ∧ (writesX i = false → t.x = s.x) ∧ (writesY i = false → t.y = s.y) ∧
    (writesPc i = false → t.pc = s.pc) ∧
    (i ≠ .txs → t.sp = s.sp - BitVec.ofNat 8 (pushCount i) + BitVec.ofNat 8 (pullCount i))

/-- Flags are written only by the instructions the tables of 10_state.md R16 to R18 name: every other bit of the status is kept. -/
def Obligations.FlagFrame : Prop :=
  ∀ (i : Instr) (s t : State), exec i s = .next t →
    t.status &&& ~~~(writtenFlags i) = s.status &&& ~~~(writtenFlags i)

/-- Memory is written only where an instruction stores: through its operand's effective address by the stores, INC, DEC and the
memory shifts, below the stack pointer in page 1 by the pushes, nowhere by the others; every other byte of the CPU bus reads as before,
the PPU is written by no instruction whose target lies outside its window, and CHR and the bank counts by none (40 R129; 20_memory.md
R43, R54). -/
def Obligations.MemoryFrame : Prop :=
  ∀ (i : Instr) (s t : State), i.WellFormed = true → exec i s = .next t →
    (∀ other : Word,
      (∀ m, storeTarget i = some m → cellOf s (operandAddr m s) = none ∨ cellOf s other ≠ cellOf s (operandAddr m s)) →
      (∀ k, k < pushCount i → cellOf s other ≠ some (false, 256 + (s.sp - BitVec.ofNat 8 k).toNat)) →
      busPeek other t = busPeek other s) ∧
    ((∀ m, storeTarget i = some m → inPpuWindow (operandAddr m s) = false) →
      t.ppu.ctrl = s.ppu.ctrl ∧ t.ppu.mask = s.ppu.mask ∧ t.ppu.palette = s.ppu.palette ∧
        t.ppu.pattern = s.ppu.pattern) ∧
    t.cart.map (fun c => (c.prgBanks, c.chrBanks, c.chr)) = s.cart.map (fun c => (c.prgBanks, c.chrBanks, c.chr))

/-- An instruction touches neither the opcode scratch, nor the clocks other than its own cycle count, nor the environment's schedule
(10_state.md R19, R22, R33; 30_encoding.md R102); and it never shortens its base count. -/
def Obligations.ClockFrame : Prop :=
  ∀ (i : Instr) (s t : State), exec i s = .next t →
    t.opcode = s.opcode ∧ t.systemClock = s.systemClock ∧ t.dot = s.dot ∧ t.scanline = s.scanline ∧
    t.frameComplete = s.frameComplete ∧ t.everReset = s.everReset ∧ t.env = s.env ∧
    s.cyclesRemaining ≤ t.cyclesRemaining ∧ t.cyclesRemaining ≤ s.cyclesRemaining + 2

/-! ### Interrupts and reset (60, 70) -/

/-- NMI entry (60 R256): always; the exact pc and the status with B cleared and U set go on the stack, the same status with I set is
live, sp falls by three, the pc comes from 0xFFFA, eight cycles are owed (the pushed I is the old one: D7). That all else is kept,
`addrAbs` included, is the model's reading (log 12, DEDUCED: R254 says that the source overwrites it and leaves that out). -/
def Obligations.NmiEntersTheHandler : Prop :=
  ∀ s : State,
    let saved := fun i : Bool => statusOf (n := s.status.getLsbD 7) (v := s.status.getLsbD 6) (u := true) (b := false)
      (d := s.status.getLsbD 3) (i := i) (z := s.status.getLsbD 1) (c := s.status.getLsbD 0)
    enterNmi s = { s with
      sp := s.sp - 3, pc := vectorWord 0xFFFA s, status := saved true, cyclesRemaining := 8
      ram := stackedFrame s.ram s.sp s.pc (saved (s.status.getLsbD 2)) }

/-- IRQ entry (60 R253, R254): with I clear as NMI through 0xFFFE and with seven cycles owed (the pushed I is the old one: D7); with I
set nothing at all happens (no pending latch: D8). That entry keeps all else, `addrAbs` included, is the model's reading (log 12,
DEDUCED: R254 says that the source overwrites it and leaves that out). -/
def Obligations.IrqEntersTheHandlerUnlessMasked : Prop :=
  ∀ s : State,
    let saved := fun i : Bool => statusOf (n := s.status.getLsbD 7) (v := s.status.getLsbD 6) (u := true) (b := false)
      (d := s.status.getLsbD 3) (i := i) (z := s.status.getLsbD 1) (c := s.status.getLsbD 0)
    (s.status.getLsbD 2 = true → enterIrq s = s) ∧
    (s.status.getLsbD 2 = false → enterIrq s = { s with
      sp := s.sp - 3, pc := vectorWord 0xFFFE s, status := saved true, cyclesRemaining := 7
      ram := stackedFrame s.ram s.sp s.pc (saved false) })

/-- RTI undoes an interrupt entry and a BRK (60 R263; 45 R232, R234): the pc (for BRK one past the byte after the opcode), the stack
pointer and every flag but B and U, which are cleared, are back. RTS undoes a JSR: pc, stack pointer and status are back (44
R213). -/
def Obligations.ReturnsUndoEntries : Prop :=
  ∀ s : State, s.memoriesWf = true →
    (∃ u, exec .rti (enterNmi s) = .next u ∧ u.pc = s.pc ∧ u.sp = s.sp ∧ u.status = flagsOnly s.status) ∧
    (s.status.getLsbD 2 = false →
      ∃ u, exec .rti (enterIrq s) = .next u ∧ u.pc = s.pc ∧ u.sp = s.sp ∧ u.status = flagsOnly s.status) ∧
    (∃ t u, exec .brk s = .next t ∧ exec .rti t = .next u ∧
      u.pc = s.pc + 1 ∧ u.sp = s.sp ∧ u.status = flagsOnly s.status) ∧
    (∀ w, ∃ t u, exec (.jsr w) s = .next t ∧ exec .rts t = .next u ∧
      u.pc = s.pc ∧ u.sp = s.sp ∧ u.status = s.status ∧ u.a = s.a ∧ u.x = s.x ∧ u.y = s.y)

/-- CPU reset (70 R280), from any state: the registers, the scratch but `opcode`, and the cycles owed at their reset values, the pc from
0xFFFC, nothing pushed, and all else kept. -/
def Obligations.CpuResetSetsTheRegisters : Prop :=
  ∀ s : State, cpuReset s = { s with
    a := 0, x := 0, y := 0, sp := 0xFD, status := 0x20, pc := vectorWord 0xFFFC s
    addrAbs := 0, addrRel := 0, fetched := 0, cyclesRemaining := 8 }

/-- The reset input is CPU reset and a zeroed tick counter, all else kept (70 R281, R282: the spec's decision D27; `everReset` is the
model's own, log 3). `State.reset` is the state that the power-on sequence ends in (70 R284) for the model's own choice of
parameters (log 2, log 4, log 5, and log 6 for `opcode`), and it meets the state invariant. -/
def Obligations.ResetStateIsBooted : Prop :=
  (∀ s : State, assertReset s = { cpuReset s with systemClock := 0, everReset := true }) ∧
  State.reset = boot Params.standard ∧ State.reset.Inv = true

/-! ### The step -/

/-- A step runs the decoded instruction: when the bytes that the bus gives from the pc on are the code of a well-formed instruction, a
step is that instruction's `exec`, after the idle ticks and the dot clock of its tick, on the state with the pc past it, its opcode
byte and its base count loaded, and the side effects of the reads done; then one cycle is counted down and the tick is counted (40
R110, R111; 60 R260). The reads have side effects where code lies in the PPU window, each byte those of its register (20_memory.md
R85); elsewhere they give what a look at the memory gives and change nothing. That a step is the idle ticks and one whole instruction
is the model's choice (log 1), as is the schedule in State that waits meanwhile (log 2). -/
def Obligations.StepRunsTheDecodedInstruction : Prop :=
  ∀ (s : State) (i : Instr) (op : Byte) (operands : List Byte), i.WellFormed = true →
    encode i = some (op :: operands) →
    let code := readCode i.length s.pc s
    ((∀ k b, (op :: operands)[k]? = some b → busPeek (s.pc + BitVec.ofNat 16 k) s = some b) →
      code = (op :: operands, s)) ∧
    (s.runs = true → code.1 = op :: operands →
      let u := ppuDotClock (idleTicks (ticksToExecute s) { s with env := waitEnv (ticksToExecute s + 1) s.env })
      step s = andThen
        (exec i { u with
          ppu := code.2.ppu, pc := s.pc + BitVec.ofNat 16 i.length, opcode := op, cyclesRemaining := i.baseCycles })
        fun t => .next { t with cyclesRemaining := t.cyclesRemaining - 1, systemClock := t.systemClock + 1 })

/-- A step delivers an event of the environment that falls before the next instruction: the idle ticks up to it pass, then it has its
whole effect at once (60 R252, R259; entry while cycles are owed: D10). RESET is the reset input (70 R281), IRQ and NMI are their
entries (60 R254, R256), the debugger port reads and writes through the bus (20_memory.md R77), and `frame_complete` is cleared (60
R266). A machine that has never been reset takes all but the two entries, if they are due at once (log 3). That such an event is a
step, and the schedule data in State, are the model's choice (log 1, log 2). -/
def Obligations.StepDeliversTheDueEvent : Prop :=
  ∀ (s : State) (d : Nat) (e : Event) (rest : List (Nat × Event)), cartAdmitted s.cart = true →
    s.everReset = true ∨ (d = 0 ∧ e ≠ .irq ∧ e ≠ .nmi) → s.env = (d, e) :: rest → d ≤ ticksToExecute s →
    let u := idleTicks d { s with env := rest }
    step s = .next (match e with
      | .reset => assertReset u
      | .irq => enterIrq u
      | .nmi => enterNmi u
      | .debugRead addr => (busRead addr u).2
      | .debugWrite addr v => busWrite addr v u
      | .clearFrame => { u with frameComplete := false })

/-- What a step refuses (10_state.md R38; 20_memory.md R52, R53; D28): a cartridge with no PRG or no CHR bank, and a machine that has
never been reset when no RESET and no access of the debugger port is due at once. Nothing else: once reset, with an admitted
cartridge or none, the machine never stops (60 R250, R272). The refusals are the model's form of the spec's `refuse` (log 3, log
8). -/
def Obligations.StepStopsOnlyWhereRefused : Prop :=
  (∀ (s : State) (c : Cartridge), s.cart = some c → c.prgBanks = 0 ∨ c.chrBanks = 0 →
    step s = .refused .cartridgeNotAdmitted) ∧
  (∀ s : State, cartAdmitted s.cart = true → s.everReset = false →
    (∀ d e rest, s.env = (d, e) :: rest → 0 < d ∨ isInterrupt e = true) → step s = .refused .neverReset) ∧
  (∀ (s : State) (e : Event) (rest : List (Nat × Event)), cartAdmitted s.cart = true → s.everReset = false →
    s.env = (0, e) :: rest → isInterrupt e = false → step s = .next (deliver e { s with env := rest })) ∧
  ∀ s : State, s.everReset = true → cartAdmitted s.cart = true → ∃ t, step s = .next t

/-- A step is the master ticks and events of the schedule that it says it is (00_scope.md R8; 60 R252, R260, R261): as many ticks as let
the due event come and the event, or the idle ticks and the one on which the CPU executes. Which ticks make up a step is the model's
choice (log 1, one of the two levels of R8), and the schedule stands in State by its choice too (log 2). -/
def Obligations.StepRefinesTheClock : Prop :=
  ∀ s : State, s.everReset = true → cartAdmitted s.cart = true →
    step s = scheduledTicks ((match dueEvent s with | some (d, _, _) => d | none => ticksToExecute s) + 1) s

/-- Every step keeps the state invariant: the memories stay canonical and within their arrays, `cycles_remaining` stays at most 8, the
dot counter within 0..340 and the scanline counter within 0..260 (10_state.md R20, R33, R34; C13). -/
def Obligations.StepKeepsTheInvariant : Prop :=
  ∀ s t : State, s.Inv = true → step s = .next t → t.Inv = true

/-- No step ever sets a bit of the PPU's status register, so the vertical-blank bit can only be lost (10_state.md R25; 60 R257; D25). -/
def Obligations.PpuStatusIsNeverSet : Prop :=
  ∀ s t : State, step s = .next t → t.ppu.status &&& ~~~s.ppu.status = 0

/-- What a program can see of the machine after an instruction depends only on what it could see before: not on B and U of the live
status, the scratch or the clocks (10_state.md R18, R19, R37). -/
def Obligations.ExecDependsOnVisibleState : Prop :=
  ∀ (i : Instr) (s s' : State), i.WellFormed = true → s.visible = s'.visible →
    ∃ t t', exec i s = .next t ∧ exec i s' = .next t' ∧ t.visible = t'.visible

/-- The instruction-level trajectory of what a program can see is the same whatever the clocks are (00_scope.md R8; 70 R295): from two
states that look alike to a program, and in which no event is due, a step leads to two that look alike. -/
def Obligations.TrajectoryIgnoresTheClocks : Prop :=
  ∀ s s' : State, s.runs = true → s'.runs = true → s.visible = s'.visible →
    ∃ t t', step s = .next t ∧ step s' = .next t' ∧ t.visible = t'.visible

/-- The dot clock walks the frame of 341 × 261 dots (60 R262): any number of ticks moves it as many places on, modulo 89001, sets
`frame_complete` on the tick that comes back to the start and never clears it, and changes nothing else; so 89001 ticks after
power-on it is at the start again, with `frame_complete` set. -/
def Obligations.DotClockWalksTheFrame : Prop :=
  (∀ (n : Nat) (s : State), s.dot ≤ 340 → s.scanline ≤ 260 →
    ∃ d l, ppuDotClock^[n] s = { s with
        dot := d, scanline := l, frameComplete := s.frameComplete || decide (89001 ≤ framePosition s + n) } ∧
      d ≤ 340 ∧ l ≤ 260 ∧ l * 341 + d = (framePosition s + n) % 89001) ∧
  ∀ p : Params, ppuDotClock^[89001] (powerOn p) = { powerOn p with frameComplete := true }

/-- `StepCpuInstruction` from a state with no cycle owed executes exactly one instruction and returns with no cycle owed, after 3n - 2 to
3n master ticks for an instruction of n cycles (60 R267; loop form: D33). -/
def Obligations.StepCpuInstructionRunsOne : Prop :=
  ∀ s : State, s.cyclesRemaining = 0 →
    ∃ u t, executeInstruction s = .next u ∧ stepCpuInstruction s = some (.next t) ∧ t.cyclesRemaining = 0 ∧
      t.visible = u.visible ∧ s.systemClock + 3 * u.cyclesRemaining ≤ t.systemClock + 2 ∧
      t.systemClock ≤ s.systemClock + 3 * u.cyclesRemaining

/-- `StepPpuFrame` from a state with `frame_complete` clear (60 R268; loop form: D33): it ticks exactly to the end of the frame, then at
most 24 ticks more to the end of the instruction, and returns with `frame_complete` clear and no cycle owed. -/
def Obligations.StepPpuFrameEndsTheFrame : Prop :=
  ∀ s : State, s.dot ≤ 340 → s.scanline ≤ 260 → s.cyclesRemaining ≤ 8 → s.frameComplete = false →
    ∃ t, stepPpuFrame s = some (.next t) ∧ t.frameComplete = false ∧ t.cyclesRemaining = 0 ∧ framePosition t ≤ 24 ∧
      t.systemClock = s.systemClock + (89001 - framePosition s) + framePosition t

/-! ### The cartridge image -/

/-- Building the cartridge from an iNES image (20_memory.md R57 to R59): a wrong magic fails; otherwise the PRG bytes are those after
the header and the trainer, which is dropped, and the CHR bytes those after them; a mapper other than 0 fails, and so, by the
model's form of the spec's decision D28 (log 8), does a zero bank count. An image with no whole header, or shorter than its header
declares, is an I/O failure. -/
def Obligations.LoaderPlacesTheImage : Prop :=
  (∀ (p c flags6 flags7 : Byte) (unused trainer prg chr tail : List Byte), unused.length = 8 →
    trainer.length = (if flags6.getLsbD 2 then 512 else 0) → prg.length = p.toNat * 16384 → chr.length = c.toNat * 8192 →
    let id := BitVec.ofNat 8 (flags7.toNat / 16 * 16 + flags6.toNat / 16)
    let image := fun magic : List Byte => magic ++ [p, c, flags6, flags7] ++ unused ++ trainer ++ prg ++ chr ++ tail
    (∀ magic : List Byte, magic.length = 4 → magic ≠ [0x4E, 0x45, 0x53, 0x1A] →
      loadImage (image magic) = .error .invalidFormat) ∧
    (id ≠ 0 → loadImage (image [0x4E, 0x45, 0x53, 0x1A]) = .error (.unsupportedMapper id)) ∧
    (id = 0 → p = 0 ∨ c = 0 → loadImage (image [0x4E, 0x45, 0x53, 0x1A]) = .error .shapeNotAdmitted) ∧
    (id = 0 → p ≠ 0 → c ≠ 0 → ∃ cart : Cartridge, loadImage (image [0x4E, 0x45, 0x53, 0x1A]) = .ok cart ∧ cart.wf = true ∧
      cart.prgBanks = p.toNat ∧ cart.chrBanks = c.toNat ∧
      (∀ k b, prg[k]? = some b → memRead cart.prg k = b) ∧ (∀ k b, chr[k]? = some b → memRead cart.chr k = b))) ∧
  (∀ image : List Byte, image.length < 16 → loadImage image = .error .ioError) ∧
  ∀ (p c flags6 : Byte) (others : List Byte), 9 ≤ others.length →
    7 + others.length < 16 + (if flags6.getLsbD 2 then 512 else 0) + p.toNat * 16384 + c.toNat * 8192 →
    loadImage ([0x4E, 0x45, 0x53, 0x1A, p, c, flags6] ++ others) = .error .ioError
end

