-- ==== Sys2Proof/Laws/Memory.lean ====
section
/-! SUPPORT. The laws of a byte array: a read after a write, and the canonical form, which every operation keeps. -/

namespace Sys2Proof.Machine

theorem wf_cons {size k : Nat} {b : Byte} {m : Memory} (h : Memory.wf size ((k, b) :: m) = true) :
    k < size ∧ b ≠ memUnlisted ∧ (∀ c ∈ m, k < c.1) ∧ Memory.wf size m = true := by
  simpa [Memory.wf, and_assoc] using h

theorem wf_of_cons {size k : Nat} {b : Byte} {m : Memory} (h1 : k < size) (h2 : b ≠ memUnlisted)
    (h3 : ∀ c ∈ m, k < c.1) (h4 : Memory.wf size m = true) : Memory.wf size ((k, b) :: m) = true := by
  simpa [Memory.wf, and_assoc] using ⟨h1, h2, fun a b hc => h3 (a, b) hc, h4⟩

/-- An index that no pair lists reads as unlisted. -/
theorem memRead_of_not_listed {m : Memory} {i : Nat} (h : ∀ c ∈ m, c.1 ≠ i) : memRead m i = memUnlisted := by
  induction m with
  | nil => rfl
  | cons c m ih =>
    obtain ⟨k, b⟩ := c
    have hk : k ≠ i := h (k, b) (by simp)
    simpa [memRead, hk] using ih fun c hc => h c (by simp [hc])

/-- Reading the index just written gives the byte written. -/
theorem memRead_memWrite_same {size : Nat} {m : Memory} (i : Nat) (v : Byte) (h : Memory.wf size m = true) :
    memRead (memWrite m i v) i = v := by
  induction m with
  | nil => by_cases hv : v = memUnlisted <;> simp [memWrite, memRead, hv]
  | cons c m ih =>
    obtain ⟨k, b⟩ := c
    obtain ⟨-, -, hrise, hm⟩ := wf_cons h
    simp only [memWrite]
    split
    · rename_i hik
      split
      · rename_i hv
        rw [hv]
        refine memRead_of_not_listed fun c hc => ?_
        rcases List.mem_cons.1 hc with rfl | hc
        · simp; omega
        · have := hrise c hc; omega
      · simp [memRead]
    · split
      · rename_i hik
        split
        · rename_i hv
          rw [hv]
          exact memRead_of_not_listed fun c hc => by have := hrise c hc; omega
        · simp [memRead, hik]
      · rename_i hne
        simp [memRead, Ne.symm hne, ih hm]

/-- A write leaves every other index alone. -/
theorem memRead_memWrite_other (m : Memory) {i j : Nat} (v : Byte) (hij : j ≠ i) :
    memRead (memWrite m i v) j = memRead m j := by
  induction m with
  | nil => by_cases hv : v = memUnlisted <;> simp [memWrite, memRead, hv, Ne.symm hij]
  | cons c m ih =>
    obtain ⟨k, b⟩ := c
    simp only [memWrite]
    split
    · split <;> simp [memRead, Ne.symm hij]
    · split
      · rename_i hik
        have hkj : k ≠ j := by omega
        split <;> simp [memRead, hkj]
      · simp [memRead, ih]

/-- A write lists no index but the old ones and its own. -/
theorem mem_memWrite {m : Memory} {i : Nat} {v : Byte} {c : Host.Cell} (h : c ∈ memWrite m i v) :
    c ∈ m ∨ c.1 = i := by
  induction m with
  | nil =>
    by_cases hv : v = memUnlisted
    · simp [memWrite, hv] at h
    · simp [memWrite, hv] at h; simp [h]
  | cons d m ih =>
    obtain ⟨k, b⟩ := d
    simp only [memWrite] at h
    split at h
    · split at h
      · exact .inl h
      · rcases List.mem_cons.1 h with rfl | h
        · exact .inr rfl
        · exact .inl h
    · split at h
      · rename_i hik
        split at h
        · exact .inl (List.mem_cons_of_mem _ h)
        · rcases List.mem_cons.1 h with rfl | h
          · exact .inr hik.symm
          · exact .inl (List.mem_cons_of_mem _ h)
      · rcases List.mem_cons.1 h with rfl | h
        · exact .inl (by simp)
        · rcases ih h with h | h
          · exact .inl (List.mem_cons_of_mem _ h)
          · exact .inr h

/-- A write keeps the canonical form. -/
theorem wf_memWrite {size : Nat} {m : Memory} {i : Nat} (v : Byte) (h : Memory.wf size m = true) (hi : i < size) :
    Memory.wf size (memWrite m i v) = true := by
  induction m with
  | nil =>
    by_cases hv : v = memUnlisted
    · simp [memWrite, hv, Memory.wf]
    · simpa [memWrite, hv] using wf_of_cons hi hv (by simp) rfl
  | cons c m ih =>
    obtain ⟨k, b⟩ := c
    obtain ⟨hk, hb, hrise, hm⟩ := wf_cons h
    simp only [memWrite]
    split
    · rename_i hik
      split
      · exact h
      · rename_i hv
        refine wf_of_cons hi hv (fun c hc => ?_) h
        rcases List.mem_cons.1 hc with rfl | hc
        · exact hik
        · have := hrise c hc; omega
    · split
      · split
        · exact hm
        · rename_i hv
          exact wf_of_cons hk hv hrise hm
      · rename_i hnlt hne
        refine wf_of_cons hk hb (fun c hc => ?_) (ih hm)
        rcases mem_memWrite hc with hc | hc
        · exact hrise c hc
        · omega

/-- The array made of bytes is canonical, and lists only their places. -/
theorem wf_memOfBytes (bs : List Byte) (i : Nat) {size : Nat} (h : i + bs.length ≤ size) :
    Memory.wf size (memOfBytes i bs) = true ∧ ∀ c ∈ memOfBytes i bs, i ≤ c.1 := by
  induction bs generalizing i with
  | nil => simp [memOfBytes, Memory.wf]
  | cons b bs ih =>
    simp only [List.length_cons] at h
    obtain ⟨hwf, hge⟩ := ih (i + 1) (by omega)
    simp only [memOfBytes]
    split
    · exact ⟨hwf, fun c hc => by have := hge c hc; omega⟩
    · rename_i hb
      refine ⟨wf_of_cons (by omega) hb (fun c hc => by have := hge c hc; omega) hwf, fun c hc => ?_⟩
      rcases List.mem_cons.1 hc with rfl | hc
      · exact Nat.le_refl _
      · have := hge c hc; omega

/-- The empty array is canonical. -/
@[simp] theorem wf_nil (size : Nat) : Memory.wf size [] = true := rfl

/-- Reset's memories are in the canonical form. -/
theorem reset_memoriesWf : State.reset.memoriesWf = true := by decide

end Sys2Proof.Machine
end

