-- ==== Sys2Proof/Laws/State.lean ====
section
/-! SUPPORT. The field lemmas of the named updates of a state: one per field, true by rfl, so that a later proof reads a field
through an update without unfolding it. Updates written as a record update reduce by themselves. -/

namespace Sys2Proof.Machine

/-! ### setZN (40 R130) -/

@[simp] theorem setZN_a (v : Byte) (s : State) : (setZN v s).a = s.a := rfl
@[simp] theorem setZN_x (v : Byte) (s : State) : (setZN v s).x = s.x := rfl
@[simp] theorem setZN_y (v : Byte) (s : State) : (setZN v s).y = s.y := rfl
@[simp] theorem setZN_sp (v : Byte) (s : State) : (setZN v s).sp = s.sp := rfl
@[simp] theorem setZN_pc (v : Byte) (s : State) : (setZN v s).pc = s.pc := rfl
@[simp] theorem setZN_status (v : Byte) (s : State) : (setZN v s).status = znStatus v s.status := rfl
@[simp] theorem setZN_fetched (v : Byte) (s : State) : (setZN v s).fetched = s.fetched := rfl
@[simp] theorem setZN_addrAbs (v : Byte) (s : State) : (setZN v s).addrAbs = s.addrAbs := rfl
@[simp] theorem setZN_addrRel (v : Byte) (s : State) : (setZN v s).addrRel = s.addrRel := rfl
@[simp] theorem setZN_opcode (v : Byte) (s : State) : (setZN v s).opcode = s.opcode := rfl
@[simp] theorem setZN_cyclesRemaining (v : Byte) (s : State) : (setZN v s).cyclesRemaining = s.cyclesRemaining := rfl
@[simp] theorem setZN_ram (v : Byte) (s : State) : (setZN v s).ram = s.ram := rfl
@[simp] theorem setZN_systemClock (v : Byte) (s : State) : (setZN v s).systemClock = s.systemClock := rfl
@[simp] theorem setZN_cart (v : Byte) (s : State) : (setZN v s).cart = s.cart := rfl
@[simp] theorem setZN_ppu (v : Byte) (s : State) : (setZN v s).ppu = s.ppu := rfl
@[simp] theorem setZN_dot (v : Byte) (s : State) : (setZN v s).dot = s.dot := rfl
@[simp] theorem setZN_scanline (v : Byte) (s : State) : (setZN v s).scanline = s.scanline := rfl
@[simp] theorem setZN_frameComplete (v : Byte) (s : State) : (setZN v s).frameComplete = s.frameComplete := rfl
@[simp] theorem setZN_everReset (v : Byte) (s : State) : (setZN v s).everReset = s.everReset := rfl
@[simp] theorem setZN_env (v : Byte) (s : State) : (setZN v s).env = s.env := rfl

/-! ### addWithCarry (42 R160) -/

@[simp] theorem addWithCarry_a (v : Byte) (s : State) : (addWithCarry v s).a = adcResult s.a v s.status := rfl
@[simp] theorem addWithCarry_x (v : Byte) (s : State) : (addWithCarry v s).x = s.x := rfl
@[simp] theorem addWithCarry_y (v : Byte) (s : State) : (addWithCarry v s).y = s.y := rfl
@[simp] theorem addWithCarry_sp (v : Byte) (s : State) : (addWithCarry v s).sp = s.sp := rfl
@[simp] theorem addWithCarry_pc (v : Byte) (s : State) : (addWithCarry v s).pc = s.pc := rfl
@[simp] theorem addWithCarry_status (v : Byte) (s : State) : (addWithCarry v s).status = adcStatus s.a v s.status := rfl
@[simp] theorem addWithCarry_fetched (v : Byte) (s : State) : (addWithCarry v s).fetched = s.fetched := rfl
@[simp] theorem addWithCarry_addrAbs (v : Byte) (s : State) : (addWithCarry v s).addrAbs = s.addrAbs := rfl
@[simp] theorem addWithCarry_addrRel (v : Byte) (s : State) : (addWithCarry v s).addrRel = s.addrRel := rfl
@[simp] theorem addWithCarry_opcode (v : Byte) (s : State) : (addWithCarry v s).opcode = s.opcode := rfl
@[simp] theorem addWithCarry_cyclesRemaining (v : Byte) (s : State) : (addWithCarry v s).cyclesRemaining = s.cyclesRemaining := rfl
@[simp] theorem addWithCarry_ram (v : Byte) (s : State) : (addWithCarry v s).ram = s.ram := rfl
@[simp] theorem addWithCarry_systemClock (v : Byte) (s : State) : (addWithCarry v s).systemClock = s.systemClock := rfl
@[simp] theorem addWithCarry_cart (v : Byte) (s : State) : (addWithCarry v s).cart = s.cart := rfl
@[simp] theorem addWithCarry_ppu (v : Byte) (s : State) : (addWithCarry v s).ppu = s.ppu := rfl
@[simp] theorem addWithCarry_dot (v : Byte) (s : State) : (addWithCarry v s).dot = s.dot := rfl
@[simp] theorem addWithCarry_scanline (v : Byte) (s : State) : (addWithCarry v s).scanline = s.scanline := rfl
@[simp] theorem addWithCarry_frameComplete (v : Byte) (s : State) : (addWithCarry v s).frameComplete = s.frameComplete := rfl
@[simp] theorem addWithCarry_everReset (v : Byte) (s : State) : (addWithCarry v s).everReset = s.everReset := rfl
@[simp] theorem addWithCarry_env (v : Byte) (s : State) : (addWithCarry v s).env = s.env := rfl

/-! ### addCycles -/

@[simp] theorem addCycles_a (n : Nat) (s : State) : (addCycles n s).a = s.a := rfl
@[simp] theorem addCycles_x (n : Nat) (s : State) : (addCycles n s).x = s.x := rfl
@[simp] theorem addCycles_y (n : Nat) (s : State) : (addCycles n s).y = s.y := rfl
@[simp] theorem addCycles_sp (n : Nat) (s : State) : (addCycles n s).sp = s.sp := rfl
@[simp] theorem addCycles_pc (n : Nat) (s : State) : (addCycles n s).pc = s.pc := rfl
@[simp] theorem addCycles_status (n : Nat) (s : State) : (addCycles n s).status = s.status := rfl
@[simp] theorem addCycles_fetched (n : Nat) (s : State) : (addCycles n s).fetched = s.fetched := rfl
@[simp] theorem addCycles_addrAbs (n : Nat) (s : State) : (addCycles n s).addrAbs = s.addrAbs := rfl
@[simp] theorem addCycles_addrRel (n : Nat) (s : State) : (addCycles n s).addrRel = s.addrRel := rfl
@[simp] theorem addCycles_opcode (n : Nat) (s : State) : (addCycles n s).opcode = s.opcode := rfl
@[simp] theorem addCycles_cyclesRemaining (n : Nat) (s : State) : (addCycles n s).cyclesRemaining = s.cyclesRemaining + n := rfl
@[simp] theorem addCycles_ram (n : Nat) (s : State) : (addCycles n s).ram = s.ram := rfl
@[simp] theorem addCycles_systemClock (n : Nat) (s : State) : (addCycles n s).systemClock = s.systemClock := rfl
@[simp] theorem addCycles_cart (n : Nat) (s : State) : (addCycles n s).cart = s.cart := rfl
@[simp] theorem addCycles_ppu (n : Nat) (s : State) : (addCycles n s).ppu = s.ppu := rfl
@[simp] theorem addCycles_dot (n : Nat) (s : State) : (addCycles n s).dot = s.dot := rfl
@[simp] theorem addCycles_scanline (n : Nat) (s : State) : (addCycles n s).scanline = s.scanline := rfl
@[simp] theorem addCycles_frameComplete (n : Nat) (s : State) : (addCycles n s).frameComplete = s.frameComplete := rfl
@[simp] theorem addCycles_everReset (n : Nat) (s : State) : (addCycles n s).everReset = s.everReset := rfl
@[simp] theorem addCycles_env (n : Nat) (s : State) : (addCycles n s).env = s.env := rfl

/-! ### impliedMode (40 R114) -/

@[simp] theorem impliedMode_a (s : State) : (impliedMode s).a = s.a := rfl
@[simp] theorem impliedMode_x (s : State) : (impliedMode s).x = s.x := rfl
@[simp] theorem impliedMode_y (s : State) : (impliedMode s).y = s.y := rfl
@[simp] theorem impliedMode_sp (s : State) : (impliedMode s).sp = s.sp := rfl
@[simp] theorem impliedMode_pc (s : State) : (impliedMode s).pc = s.pc := rfl
@[simp] theorem impliedMode_status (s : State) : (impliedMode s).status = s.status := rfl
@[simp] theorem impliedMode_fetched (s : State) : (impliedMode s).fetched = s.a := rfl
@[simp] theorem impliedMode_addrAbs (s : State) : (impliedMode s).addrAbs = s.addrAbs := rfl
@[simp] theorem impliedMode_addrRel (s : State) : (impliedMode s).addrRel = s.addrRel := rfl
@[simp] theorem impliedMode_opcode (s : State) : (impliedMode s).opcode = s.opcode := rfl
@[simp] theorem impliedMode_cyclesRemaining (s : State) : (impliedMode s).cyclesRemaining = s.cyclesRemaining := rfl
@[simp] theorem impliedMode_ram (s : State) : (impliedMode s).ram = s.ram := rfl
@[simp] theorem impliedMode_systemClock (s : State) : (impliedMode s).systemClock = s.systemClock := rfl
@[simp] theorem impliedMode_cart (s : State) : (impliedMode s).cart = s.cart := rfl
@[simp] theorem impliedMode_ppu (s : State) : (impliedMode s).ppu = s.ppu := rfl
@[simp] theorem impliedMode_dot (s : State) : (impliedMode s).dot = s.dot := rfl
@[simp] theorem impliedMode_scanline (s : State) : (impliedMode s).scanline = s.scanline := rfl
@[simp] theorem impliedMode_frameComplete (s : State) : (impliedMode s).frameComplete = s.frameComplete := rfl
@[simp] theorem impliedMode_everReset (s : State) : (impliedMode s).everReset = s.everReset := rfl
@[simp] theorem impliedMode_env (s : State) : (impliedMode s).env = s.env := rfl

end Sys2Proof.Machine
end

