-- ==== Sys2Proof/Laws/Ops.lean ====
section
/-! SUPPORT. What each shared operation does, said once: which fields of the state it can change, what it reads where the
address is a stack or zero-page address, and that every memory keeps its canonical form. -/

namespace Sys2Proof.Machine

/-! ### Words -/

theorem wordOf_toNat (hi lo : Byte) : (wordOf hi lo).toNat = hi.toNat * 256 + lo.toNat := by
  have h := lo.isLt
  rw [wordOf, BitVec.toNat_append, ← Nat.shiftLeft_add_eq_or_of_lt h, Nat.shiftLeft_eq]

@[simp] theorem hiByte_wordOf (hi lo : Byte) : hiByte (wordOf hi lo) = hi := by
  apply BitVec.eq_of_toNat_eq
  have h := lo.isLt; have h' := hi.isLt
  simp only [hiByte, BitVec.extractLsb'_toNat, wordOf_toNat, Nat.shiftRight_eq_div_pow]
  omega

@[simp] theorem loByte_wordOf (hi lo : Byte) : loByte (wordOf hi lo) = lo := by
  apply BitVec.eq_of_toNat_eq
  have h := lo.isLt; have h' := hi.isLt
  simp only [loByte, BitVec.extractLsb'_toNat, wordOf_toNat, Nat.shiftRight_zero]
  omega

@[simp] theorem wordOf_hiByte_loByte (w : Word) : wordOf (hiByte w) (loByte w) = w := by
  apply BitVec.eq_of_toNat_eq
  have h := w.isLt
  simp only [wordOf_toNat, hiByte, loByte, BitVec.extractLsb'_toNat, Nat.shiftRight_eq_div_pow]
  omega

/-- An address of page 0 or page 1 is a RAM address: its cell is the address itself. -/
theorem ramIndex_wordOf (hi lo : Byte) (h : hi.toNat < 8) : ramIndex (wordOf hi lo) = hi.toNat * 256 + lo.toNat := by
  have h' := lo.isLt
  rw [ramIndex, BitVec.toNat_and, wordOf_toNat, show (0x07FF : Word).toNat = 2 ^ 11 - 1 from rfl,
    Nat.and_two_pow_sub_one_eq_mod]
  omega

theorem ramIndex_stackAddr (sp : Byte) : ramIndex (stackAddr sp) = 256 + sp.toNat := by
  rw [stackAddr, ramIndex_wordOf _ _ (by decide)]; rfl

theorem ramIndex_zext16 (b : Byte) : ramIndex (zext16 b) = b.toNat := by
  rw [zext16, ramIndex_wordOf _ _ (by decide)]; simp

theorem ramIndex_lt (addr : Word) : ramIndex addr < 2048 := by
  rw [ramIndex, BitVec.toNat_and, show (0x07FF : Word).toNat = 2 ^ 11 - 1 from rfl, Nat.and_two_pow_sub_one_eq_mod]
  omega

/-! ### The CPU bus where it is storage -/

/-- Below 0x8000 the mapper does not answer (20_memory.md R51). -/
theorem cpuMap_low (c : Cartridge) {addr : Word} (h : addr < 0x8000) : cpuMap c addr = none := by
  rw [cpuMap, if_neg (by bv_omega)]

theorem cartRead_low (cart : Option Cartridge) {addr : Word} (h : addr < 0x8000) :
    (cart.bind fun c => cartRead c addr) = none := by
  cases cart <;> simp [cartRead, cpuMap_low _ h]

theorem cartWrite_low (cart : Option Cartridge) {addr : Word} (v : Byte) (h : addr < 0x8000) :
    (cart.bind fun c => cartWrite c addr v) = none := by
  cases cart <;> simp [cartWrite, cpuMap_low _ h]

/-- A read of a RAM address gives the cell and changes nothing (20_memory.md R44). -/
theorem busRead_ram {addr : Word} (s : State) (h : addr ≤ 0x1FFF) :
    busRead addr s = (memRead s.ram (ramIndex addr), s) := by
  have h8 : addr < 0x8000 := by bv_omega
  simp only [busRead, cartRead_low _ h8]
  rw [if_pos h]

/-- A write to a RAM address stores into the cell and changes nothing else (20_memory.md R44). -/
theorem busWrite_ram {addr : Word} (v : Byte) (s : State) (h : addr ≤ 0x1FFF) :
    busWrite addr v s = { s with ram := memWrite s.ram (ramIndex addr) v } := by
  have h8 : addr < 0x8000 := by bv_omega
  simp only [busWrite, cartWrite_low _ _ h8]
  rw [if_pos h]

theorem stackAddr_le (sp : Byte) : stackAddr sp ≤ 0x1FFF := by
  have h := sp.isLt
  rw [BitVec.le_def, stackAddr, wordOf_toNat]
  simp; omega

theorem zext16_le (b : Byte) : zext16 b ≤ 0x1FFF := by
  have h := b.isLt
  rw [BitVec.le_def, zext16, wordOf_toNat]
  simp; omega

/-- A push stores into page 1 of the RAM and decrements the stack pointer (10_state.md R13). -/
theorem push_eq (v : Byte) (s : State) :
    push v s = { s with ram := memWrite s.ram (256 + s.sp.toNat) v, sp := s.sp - 1 } := by
  simp [push, busWrite_ram _ _ (stackAddr_le _), ramIndex_stackAddr]

/-- A pull increments the stack pointer and reads page 1 of the RAM (10_state.md R13). -/
theorem pull_eq (s : State) :
    pull s = (memRead s.ram (256 + (s.sp + 1).toNat), { s with sp := s.sp + 1 }) := by
  simp only [pull]
  rw [busRead_ram _ (stackAddr_le _), ramIndex_stackAddr]

theorem pushWord_eq (w : Word) (s : State) :
    pushWord w s = { s with
      ram := memWrite (memWrite s.ram (256 + s.sp.toNat) (hiByte w)) (256 + (s.sp - 1).toNat) (loByte w)
      sp := s.sp - 1 - 1 } := by
  simp [pushWord, push_eq]

theorem pullWord_eq (s : State) :
    pullWord s = (wordOf (memRead s.ram (256 + (s.sp + 1 + 1).toNat)) (memRead s.ram (256 + (s.sp + 1).toNat)),
      { s with sp := s.sp + 1 + 1 }) := by
  simp [pullWord, pull_eq]

/-- A page-zero pointer is two RAM cells, and reading it changes nothing (40 R125, R126). -/
theorem readZeroPageWord_eq (t : Byte) (s : State) :
    readZeroPageWord t s = (wordOf (memRead s.ram (t + 1).toNat) (memRead s.ram t.toNat), s) := by
  simp [readZeroPageWord, busRead_ram _ (zext16_le _), ramIndex_zext16]

/-! ### Frames -/

/-- A bus read can change nothing but the PPU (20_memory.md R82). -/
theorem busRead_frame (addr : Word) (s : State) : (busRead addr s).2 = { s with ppu := (busRead addr s).2.ppu } := by
  simp only [busRead]
  split
  · rfl
  · split
    · rfl
    · split <;> rfl

/-- Outside the PPU window a bus read changes nothing (20_memory.md R82). -/
theorem busRead_pure (addr : Word) (s : State) (h : ¬ (0x2000 ≤ addr ∧ addr ≤ 0x3FFF)) : (busRead addr s).2 = s := by
  simp only [busRead]
  split
  · rfl
  · split
    · rfl
    · split
      · rename_i h1 h2
        exact absurd ⟨by bv_omega, h2⟩ h
      · rfl

/-- A bus write can change nothing but RAM, the cartridge and the PPU (20_memory.md R42). -/
theorem busWrite_frame (addr : Word) (v : Byte) (s : State) :
    busWrite addr v s = { s with
      ram := (busWrite addr v s).ram, cart := (busWrite addr v s).cart, ppu := (busWrite addr v s).ppu } := by
  simp only [busWrite]
  split
  · rfl
  · split
    · rfl
    · split <;> rfl

/-- Reading code can change nothing but the PPU (20_memory.md R82, R85). -/
theorem readCode_frame (n : Nat) (addr : Word) (s : State) :
    (readCode n addr s).2 = { s with ppu := (readCode n addr s).2.ppu } := by
  induction n generalizing addr s with
  | zero => rfl
  | succ n ih =>
    simp only [readCode]
    rw [ih, busRead_frame]

theorem readWord_frame (addr : Word) (s : State) : (readWord addr s).2 = { s with ppu := (readWord addr s).2.ppu } := by
  simp only [readWord]
  rw [busRead_frame (addr + 1), busRead_frame addr s]

/-- Reading a vector changes nothing (60_exceptions.md R255). -/
theorem readWord_vector (addr : Word) (s : State) (h : 0x4000 ≤ addr) (h' : addr ≠ 0xFFFF) :
    (readWord addr s).2 = s := by
  simp only [readWord]
  have hne : addr.toNat ≠ 0xFFFF := fun hc => h' (BitVec.eq_of_toNat_eq (by simpa using hc))
  have e1 : (busRead addr s).2 = s := busRead_pure _ _ (by bv_omega)
  rw [e1, busRead_pure _ _ (by bv_omega)]

/-- A mode can change nothing but `fetched`, `addrAbs` and, where its pointer lies in the PPU window, the PPU. -/
theorem addrMode_frame (m : Operand) (s : State) :
    (addrMode m s).2 = { s with
      fetched := (addrMode m s).2.fetched, addrAbs := (addrMode m s).2.addrAbs, ppu := (addrMode m s).2.ppu } := by
  cases m <;> simp only [addrMode, readZeroPageWord_eq, readIndirect]
  · rw [busRead_frame (indirectHighAddr _), busRead_frame]

theorem fetchOperand_frame (m : Operand) (s : State) :
    (fetchOperand m s).2 = { s with fetched := (fetchOperand m s).2.fetched, ppu := (fetchOperand m s).2.ppu } := by
  cases m <;> simp only [fetchOperand] <;> rw [busRead_frame]

/-- Reading an operand can change nothing but `fetched`, `addrAbs`, the PPU and the cycle count. -/
theorem readOperand_frame (b : Bool) (m : Operand) (s : State) :
    (readOperand b m s).2 = { s with
      fetched := (readOperand b m s).2.fetched, addrAbs := (readOperand b m s).2.addrAbs
      ppu := (readOperand b m s).2.ppu, cyclesRemaining := (readOperand b m s).2.cyclesRemaining } := by
  simp only [readOperand]
  split
  · simp only [addCycles]
    rw [fetchOperand_frame, addrMode_frame]
  · rw [fetchOperand_frame, addrMode_frame]

/-- Taking an exception, as one record: three bytes on the stack, I set, the pc from the vector (60_exceptions.md R254). -/
theorem enterHandler_eq (pushed live : Byte) (vector : Word) (s : State) (h : 0x4000 ≤ vector) (h' : vector ≠ 0xFFFF) :
    enterHandler pushed live vector s =
      let t := { push pushed (pushWord s.pc s) with status := live ||| 0x04 }
      { t with pc := (readWord vector t).1 } := by
  simp only [enterHandler]
  rw [readWord_vector _ _ h h']

/-- The return from an exception, as one record (45_stack_flag_system.md R234). -/
theorem returnFromInterrupt_eq (s : State) :
    returnFromInterrupt s = { s with
      status := memRead s.ram (256 + (s.sp + 1).toNat) &&& 0xCF
      pc := wordOf (memRead s.ram (256 + (s.sp + 1 + 1 + 1).toNat)) (memRead s.ram (256 + (s.sp + 1 + 1).toNat))
      sp := s.sp + 1 + 1 + 1 } := by
  simp [returnFromInterrupt, pull_eq, pullWord_eq]

/-! ### The canonical form is kept -/

theorem patternIndex_lt (addr : Word) : patternIndex addr < 8192 := by
  rw [patternIndex, BitVec.toNat_and, show (0x1FFF : Word).toNat = 2 ^ 13 - 1 from rfl, Nat.and_two_pow_sub_one_eq_mod]
  omega

/-- A palette index is in range and never one of the four mirrored cells (20_memory.md R74). -/
theorem paletteIndex_spec (addr : Word) :
    paletteIndex addr < 32 ∧ paletteIndex addr ≠ 0x10 ∧ paletteIndex addr ≠ 0x14 ∧ paletteIndex addr ≠ 0x18 ∧
      paletteIndex addr ≠ 0x1C := by
  have h : (addr &&& 0x1F).toNat < 32 := by
    rw [BitVec.toNat_and, show (0x1F : Word).toNat = 2 ^ 5 - 1 from rfl, Nat.and_two_pow_sub_one_eq_mod]
    omega
  simp only [paletteIndex]
  split <;> omega

theorem ppuWrite_wf (p : Ppu) (addr : Word) (v : Byte) (h : p.wf = true) : (ppuWrite p addr v).wf = true := by
  simp only [Ppu.wf, Bool.and_eq_true] at h
  obtain ⟨⟨h1, h2⟩, h3⟩ := h
  simp only [ppuWrite]
  split
  · simp only [Ppu.wf, h1, wf_memWrite v h2 (patternIndex_lt _), h3, Bool.and_self]
  · split
    · simp only [Ppu.wf, h1, h2, h3, Bool.and_self]
    · obtain ⟨hlt, hne⟩ := paletteIndex_spec (addr &&& 0x3FFF)
      simp only [Ppu.wf, Bool.and_eq_true, h2, wf_memWrite v h1 hlt, and_self, true_and]
      rw [List.all_eq_true] at h3 ⊢
      intro c hc
      rcases mem_memWrite hc with hc | hc
      · exact h3 c hc
      · simpa [hc] using hne

theorem ppuRegWrite_wf (p : Ppu) (r : Word) (v : Byte) (h : p.wf = true) : (ppuRegWrite p r v).wf = true := by
  simp only [ppuRegWrite]
  repeat' split
  all_goals first
    | exact h
    | (simp only [ppuWriteAddr]; split <;> exact h)
    | exact ppuWrite_wf p _ v h

theorem ppuRegRead_wf (cart : Option Cartridge) (p : Ppu) (r : Word) (h : p.wf = true) :
    (ppuRegRead cart p r).2.wf = true := by
  simp only [ppuRegRead]
  repeat' split
  all_goals exact h

/-- Where the mapper answers, the offset lies inside `prg` (20_memory.md R51). -/
theorem cpuMap_lt {c : Cartridge} {addr : Word} {k : Nat} (h : cpuMap c addr = some k) (hb : c.prgBanks ≠ 0) :
    k < c.prgBanks * 16384 := by
  simp only [cpuMap] at h
  split at h
  · simp only [Option.some.injEq] at h
    subst h
    by_cases h2 : c.prgBanks = 2
    · rw [if_pos h2, BitVec.toNat_and, show (0x7FFF : Word).toNat = 2 ^ 15 - 1 from rfl,
        Nat.and_two_pow_sub_one_eq_mod]
      omega
    · rw [if_neg h2, BitVec.toNat_and, show (0x3FFF : Word).toNat = 2 ^ 14 - 1 from rfl,
        Nat.and_two_pow_sub_one_eq_mod]
      omega
  · simp at h

theorem cartWrite_wf {c c' : Cartridge} {addr : Word} {v : Byte} (h : cartWrite c addr v = some c')
    (hc : c.wf = true) : c'.wf = true := by
  simp only [cartWrite, Option.map_eq_some_iff] at h
  obtain ⟨k, hk, rfl⟩ := h
  simp only [Cartridge.wf, Bool.and_eq_true, bne_iff_ne, ne_eq] at hc ⊢
  obtain ⟨⟨⟨h1, h2⟩, h3⟩, h4⟩ := hc
  exact ⟨⟨⟨h1, h2⟩, wf_memWrite v h3 (cpuMap_lt hk h1)⟩, h4⟩

/-- The canonical form of a state's memories, field by field. -/
theorem memoriesWf_iff (s : State) :
    s.memoriesWf = true ↔ Memory.wf 2048 s.ram = true ∧ s.ppu.wf = true ∧ s.cart.all Cartridge.wf = true := by
  simp [State.memoriesWf, and_assoc]

theorem busRead_wf (addr : Word) (s : State) (h : s.memoriesWf = true) : (busRead addr s).2.memoriesWf = true := by
  rw [memoriesWf_iff] at h ⊢
  simp only [busRead]
  repeat' split
  all_goals first | exact h | exact ⟨h.1, ppuRegRead_wf _ _ _ h.2.1, h.2.2⟩

theorem busWrite_wf (addr : Word) (v : Byte) (s : State) (h : s.memoriesWf = true) :
    (busWrite addr v s).memoriesWf = true := by
  rw [memoriesWf_iff] at h ⊢
  obtain ⟨hr, hp, hc⟩ := h
  simp only [busWrite]
  split
  · rename_i c hcw
    refine ⟨hr, hp, ?_⟩
    cases hcart : s.cart with
    | none => simp [hcart] at hcw
    | some c0 =>
      rw [hcart] at hc hcw
      simpa using cartWrite_wf hcw (by simpa using hc)
  · split
    · exact ⟨wf_memWrite v hr (ramIndex_lt _), hp, hc⟩
    · split
      · exact ⟨hr, ppuRegWrite_wf _ _ _ hp, hc⟩
      · exact ⟨hr, hp, hc⟩

theorem push_wf (v : Byte) (s : State) (h : s.memoriesWf = true) : (push v s).memoriesWf = true :=
  busWrite_wf (stackAddr s.sp) v s h

theorem pull_wf (s : State) (h : s.memoriesWf = true) : (pull s).2.memoriesWf = true := by
  rw [pull_eq]; exact h

end Sys2Proof.Machine
end

