-- ==== Sys2Proof/Laws/Clock.lean ====
section
/-! SUPPORT. The clock between instructions: the idle ticks taken at once are the idle ticks one after the other, and what a
dot clock and an idle tick can change. -/

namespace Sys2Proof.Machine

/-- A dot clock can change nothing but the three counters of the PPU (60_exceptions.md R262). -/
theorem ppuDotClock_frame (s : State) :
    ppuDotClock s = { s with
      dot := (ppuDotClock s).dot, scanline := (ppuDotClock s).scanline
      frameComplete := (ppuDotClock s).frameComplete } := by
  simp only [ppuDotClock]
  repeat' split
  all_goals rfl

/-- Within a scanline a dot clock only advances `dot`. -/
theorem ppuDotClock_within (s : State) (h : s.dot + 1 < Config.dotsPerScanline)
    (h' : s.scanline < Config.scanlinesPerFrame) : ppuDotClock s = { s with dot := s.dot + 1 } := by
  have h1 : ¬ s.dot + 1 = Config.dotsPerScanline := by omega
  have h2 : ¬ s.scanline = Config.scanlinesPerFrame := by omega
  simp [ppuDotClock, h1, h2]

/-- An idle tick can change nothing but the counters. -/
theorem idleTick_frame (s : State) :
    idleTick s = { s with
      dot := (idleTick s).dot, scanline := (idleTick s).scanline, frameComplete := (idleTick s).frameComplete
      cyclesRemaining := (idleTick s).cyclesRemaining, systemClock := s.systemClock + 1 } := by
  simp only [idleTick]
  rw [ppuDotClock_frame]

/-- Idle ticks can change nothing but the counters; the tick counter counts them. -/
theorem idleTicks_frame (n : Nat) (s : State) :
    idleTicks n s = { s with
      dot := (idleTicks n s).dot, scanline := (idleTicks n s).scanline
      frameComplete := (idleTicks n s).frameComplete, cyclesRemaining := (idleTicks n s).cyclesRemaining
      systemClock := s.systemClock + n } := by
  induction n generalizing s with
  | zero => rfl
  | succ n ih =>
    simp only [idleTicks]
    rw [ih (idleTick s), idleTick_frame s]
    simp [Nat.add_assoc, Nat.add_comm 1 n]

/-- The first of several ticks clocks the CPU or not, and the others follow it. -/
theorem cpuClocksIn_succ (clock n : Nat) :
    cpuClocksIn clock (n + 1) = (if clock % Config.cpuDivider = 0 then 1 else 0) + cpuClocksIn (clock + 1) n := by
  simp only [cpuClocksIn, Config.cpuDivider]
  by_cases h : clock % 3 = 0 <;> simp only [h, if_true, if_false] <;> omega

/-- Taking idle ticks at once is taking them one after the other. -/
theorem passTicks_eq (n : Nat) (s : State) : passTicks n s = idleTicks n s := by
  rw [passTicks]
  split
  · rename_i h
    obtain ⟨hd, hl⟩ := h
    induction n generalizing s with
    | zero => simp [idleTicks, cpuClocksIn]
    | succ n ih =>
      have hdot := ppuDotClock_within s (by omega) hl
      have htick : idleTick s = { s with
          dot := s.dot + 1
          cyclesRemaining :=
            if s.systemClock % Config.cpuDivider = 0 then s.cyclesRemaining - 1 else s.cyclesRemaining
          systemClock := s.systemClock + 1 } := by
        simp only [idleTick, hdot]
      rw [idleTicks, ← ih (idleTick s) (by rw [htick]; simp only; omega) (by rw [htick]; exact hl), htick,
        cpuClocksIn_succ]
      by_cases hc : s.systemClock % Config.cpuDivider = 0 <;>
        simp [hc, Nat.add_assoc, Nat.add_comm 1 n, Nat.sub_sub]
  · rfl

end Sys2Proof.Machine
end

