-- ==== Sys2Proof/Laws/PerInstr.lean ====
section
/-! SUPPORT. The per-instruction family `EncodedLength` (LAWS.json): a well-formed instruction has a code of exactly the length
its mode gives it (30_encoding.md R91, R93). The statement is about the instruction as syntax. -/

namespace Sys2Proof.Laws.EncodedLength

/-- A well-formed instruction is encoded, by as many bytes as its length says. -/
def Statement (i : Instr) : Prop := i.WellFormed = true → ∃ bs, encode i = some bs ∧ bs.length = i.length

/-- An opcode and operand bytes of the mode's number make a code of the instruction's length. -/
theorem of_opcode {i : Instr} (op : Byte) (h : opcodeOf i = some op)
    (hn : i.operandList.length = i.mode.operandBytes) : Statement i := fun _ =>
  ⟨op :: i.operandList, by simp [encode, h], by simp [Instr.length, hn, Nat.add_comm]⟩

/-- An operand form has as many bytes as its mode calls for. -/
theorem operand_bytes_length (m : Operand) : m.bytes.length = m.mode.operandBytes := by cases m <;> rfl

/-- An opcode for every mode that is well-formed will do. -/
theorem of_some_opcode {i : Instr} (h : i.WellFormed = true → (opcodeOf i).isSome = true)
    (hn : i.operandList.length = i.mode.operandBytes) : Statement i := fun hw => by
  obtain ⟨op, hop⟩ := Option.isSome_iff_exists.1 (h hw)
  exact of_opcode op hop hn hw

theorem adc (m : Operand) : Statement (.adc m) :=
  of_some_opcode (by cases m <;> intro h <;> first | rfl | exact Bool.noConfusion h) (operand_bytes_length m)

theorem and (m : Operand) : Statement (.and m) :=
  of_some_opcode (by cases m <;> intro h <;> first | rfl | exact Bool.noConfusion h) (operand_bytes_length m)

theorem asl (m : Operand) : Statement (.asl m) :=
  of_some_opcode (by cases m <;> intro h <;> first | rfl | exact Bool.noConfusion h) (operand_bytes_length m)

theorem bcc (offset : Byte) : Statement (.bcc offset) := of_opcode _ rfl rfl

theorem bcs (offset : Byte) : Statement (.bcs offset) := of_opcode _ rfl rfl

theorem beq (offset : Byte) : Statement (.beq offset) := of_opcode _ rfl rfl

theorem bit (m : Operand) : Statement (.bit m) :=
  of_some_opcode (by cases m <;> intro h <;> first | rfl | exact Bool.noConfusion h) (operand_bytes_length m)

theorem bmi (offset : Byte) : Statement (.bmi offset) := of_opcode _ rfl rfl

theorem bne (offset : Byte) : Statement (.bne offset) := of_opcode _ rfl rfl

theorem bpl (offset : Byte) : Statement (.bpl offset) := of_opcode _ rfl rfl

theorem brk : Statement .brk := of_opcode _ rfl rfl

theorem bvc (offset : Byte) : Statement (.bvc offset) := of_opcode _ rfl rfl

theorem bvs (offset : Byte) : Statement (.bvs offset) := of_opcode _ rfl rfl

theorem clc : Statement .clc := of_opcode _ rfl rfl

theorem cld : Statement .cld := of_opcode _ rfl rfl

theorem cli : Statement .cli := of_opcode _ rfl rfl

theorem clv : Statement .clv := of_opcode _ rfl rfl

theorem cmp (m : Operand) : Statement (.cmp m) :=
  of_some_opcode (by cases m <;> intro h <;> first | rfl | exact Bool.noConfusion h) (operand_bytes_length m)

theorem cpx (m : Operand) : Statement (.cpx m) :=
  of_some_opcode (by cases m <;> intro h <;> first | rfl | exact Bool.noConfusion h) (operand_bytes_length m)

theorem cpy (m : Operand) : Statement (.cpy m) :=
  of_some_opcode (by cases m <;> intro h <;> first | rfl | exact Bool.noConfusion h) (operand_bytes_length m)

theorem dec (m : Operand) : Statement (.dec m) :=
  of_some_opcode (by cases m <;> intro h <;> first | rfl | exact Bool.noConfusion h) (operand_bytes_length m)

theorem dex : Statement .dex := of_opcode _ rfl rfl

theorem dey : Statement .dey := of_opcode _ rfl rfl

theorem eor (m : Operand) : Statement (.eor m) :=
  of_some_opcode (by cases m <;> intro h <;> first | rfl | exact Bool.noConfusion h) (operand_bytes_length m)

theorem inc (m : Operand) : Statement (.inc m) :=
  of_some_opcode (by cases m <;> intro h <;> first | rfl | exact Bool.noConfusion h) (operand_bytes_length m)

theorem inx : Statement .inx := of_opcode _ rfl rfl

theorem iny : Statement .iny := of_opcode _ rfl rfl

theorem jmp (m : Operand) : Statement (.jmp m) :=
  of_some_opcode (by cases m <;> intro h <;> first | rfl | exact Bool.noConfusion h) (operand_bytes_length m)

theorem jsr (addr : Word) : Statement (.jsr addr) := of_opcode _ rfl rfl

theorem lda (m : Operand) : Statement (.lda m) :=
  of_some_opcode (by cases m <;> intro h <;> first | rfl | exact Bool.noConfusion h) (operand_bytes_length m)

theorem ldx (m : Operand) : Statement (.ldx m) :=
  of_some_opcode (by cases m <;> intro h <;> first | rfl | exact Bool.noConfusion h) (operand_bytes_length m)

theorem ldy (m : Operand) : Statement (.ldy m) :=
  of_some_opcode (by cases m <;> intro h <;> first | rfl | exact Bool.noConfusion h) (operand_bytes_length m)

theorem lsr (m : Operand) : Statement (.lsr m) :=
  of_some_opcode (by cases m <;> intro h <;> first | rfl | exact Bool.noConfusion h) (operand_bytes_length m)

theorem nop : Statement .nop := of_opcode _ rfl rfl

theorem ora (m : Operand) : Statement (.ora m) :=
  of_some_opcode (by cases m <;> intro h <;> first | rfl | exact Bool.noConfusion h) (operand_bytes_length m)

theorem pha : Statement .pha := of_opcode _ rfl rfl

theorem php : Statement .php := of_opcode _ rfl rfl

theorem pla : Statement .pla := of_opcode _ rfl rfl

theorem plp : Statement .plp := of_opcode _ rfl rfl

theorem rol (m : Operand) : Statement (.rol m) :=
  of_some_opcode (by cases m <;> intro h <;> first | rfl | exact Bool.noConfusion h) (operand_bytes_length m)

theorem ror (m : Operand) : Statement (.ror m) :=
  of_some_opcode (by cases m <;> intro h <;> first | rfl | exact Bool.noConfusion h) (operand_bytes_length m)

theorem rti : Statement .rti := of_opcode _ rfl rfl

theorem rts : Statement .rts := of_opcode _ rfl rfl

theorem sbc (m : Operand) : Statement (.sbc m) :=
  of_some_opcode (by cases m <;> intro h <;> first | rfl | exact Bool.noConfusion h) (operand_bytes_length m)

theorem sec : Statement .sec := of_opcode _ rfl rfl

theorem sed : Statement .sed := of_opcode _ rfl rfl

theorem sei : Statement .sei := of_opcode _ rfl rfl

theorem sta (m : Operand) : Statement (.sta m) :=
  of_some_opcode (by cases m <;> intro h <;> first | rfl | exact Bool.noConfusion h) (operand_bytes_length m)

theorem stx (m : Operand) : Statement (.stx m) :=
  of_some_opcode (by cases m <;> intro h <;> first | rfl | exact Bool.noConfusion h) (operand_bytes_length m)

theorem sty (m : Operand) : Statement (.sty m) :=
  of_some_opcode (by cases m <;> intro h <;> first | rfl | exact Bool.noConfusion h) (operand_bytes_length m)

theorem tax : Statement .tax := of_opcode _ rfl rfl

theorem tay : Statement .tay := of_opcode _ rfl rfl

theorem tsx : Statement .tsx := of_opcode _ rfl rfl

theorem txa : Statement .txa := of_opcode _ rfl rfl

theorem txs : Statement .txs := of_opcode _ rfl rfl

theorem tya : Statement .tya := of_opcode _ rfl rfl

theorem nopUnofficial (opcode : Byte) : Statement (.nopUnofficial opcode) :=
  of_some_opcode (fun h => by simp only [Instr.WellFormed] at h; rw [opcodeOf, if_pos h]; rfl) rfl

end Sys2Proof.Laws.EncodedLength
end

