-- ==== Sys2Proof/Tests/Slice0.lean ====
section
/-! SUPPORT. The model's own tests: ill-formed terms refused, the opcode grid of 30_encoding.md R96 row by row, one or two single
steps per instruction with the results that 95_test_vectors.md or a rule gives, and for every statement with hypotheses a state
and operands that meet them. -/

namespace Sys2Proof.Tests

open Sys2Proof Sys2Proof.Machine

/-! ### Well-formedness: each check refuses a term -/

/-- 30_encoding.md R95, R99: no opcode byte stands for this term. -/
theorem test_ill_formed_accumulator_read : (Instr.WellFormed (.lda .acc) = false) ∧ encode (.lda .acc) = none := by decide

/-- 30_encoding.md R95, R99: no opcode byte stands for this term. -/
theorem test_ill_formed_accumulator_read_zpy : (Instr.WellFormed (.adc (.zpy 0x10)) = false) ∧ encode (.adc (.zpy 0x10)) = none := by decide

/-- 30_encoding.md R95, R99: no opcode byte stands for this term. -/
theorem test_ill_formed_sta : (Instr.WellFormed (.sta (.imm 0x10)) = false) ∧ encode (.sta (.imm 0x10)) = none := by decide

/-- 30_encoding.md R95, R99: no opcode byte stands for this term. -/
theorem test_ill_formed_ldx : (Instr.WellFormed (.ldx (.zpx 0x10)) = false) ∧ encode (.ldx (.zpx 0x10)) = none := by decide

/-- 30_encoding.md R95, R99: no opcode byte stands for this term. -/
theorem test_ill_formed_ldy : (Instr.WellFormed (.ldy (.aby 0x1234)) = false) ∧ encode (.ldy (.aby 0x1234)) = none := by decide

/-- 30_encoding.md R95, R99: no opcode byte stands for this term. -/
theorem test_ill_formed_stx : (Instr.WellFormed (.stx (.zpx 0x10)) = false) ∧ encode (.stx (.zpx 0x10)) = none := by decide

/-- 30_encoding.md R95, R99: no opcode byte stands for this term. -/
theorem test_ill_formed_sty : (Instr.WellFormed (.sty (.zpy 0x10)) = false) ∧ encode (.sty (.zpy 0x10)) = none := by decide

/-- 30_encoding.md R95, R99: no opcode byte stands for this term. -/
theorem test_ill_formed_bit : (Instr.WellFormed (.bit (.imm 0x10)) = false) ∧ encode (.bit (.imm 0x10)) = none := by decide

/-- 30_encoding.md R95, R99: no opcode byte stands for this term. -/
theorem test_ill_formed_cpx : (Instr.WellFormed (.cpx (.zpx 0x10)) = false) ∧ encode (.cpx (.zpx 0x10)) = none := by decide

/-- 30_encoding.md R95, R99: no opcode byte stands for this term. -/
theorem test_ill_formed_shift : (Instr.WellFormed (.asl (.aby 0x1234)) = false) ∧ encode (.asl (.aby 0x1234)) = none := by decide

/-- 30_encoding.md R95, R99: no opcode byte stands for this term. -/
theorem test_ill_formed_inc_dec : (Instr.WellFormed (.inc .acc) = false) ∧ encode (.inc .acc) = none := by decide

/-- 30_encoding.md R95, R99: no opcode byte stands for this term. -/
theorem test_ill_formed_jmp : (Instr.WellFormed (.jmp (.izx 0x10)) = false) ∧ encode (.jmp (.izx 0x10)) = none := by decide

/-- 30_encoding.md R95, R99: no opcode byte stands for this term. -/
theorem test_ill_formed_nop_unofficial : (Instr.WellFormed (.nopUnofficial 0xEA) = false) ∧ encode (.nopUnofficial 0xEA) = none := by decide

/-- Every mode the table pairs with LDA, and no other. -/
theorem test_well_formed_lda :
    [Operand.imm 1, .zp0 1, .zpx 1, .abs 1, .abx 1, .aby 1, .izx 1, .izy 1].all (fun m => (Instr.lda m).WellFormed) = true ∧
      [Operand.acc, .zpy 1, .ind 1].any (fun m => (Instr.lda m).WellFormed) = false := by decide

/-! ### Decoding: the grid of R96, with operand bytes 0x34 0x12 -/

/-- What stands in a cell of the grid: the instruction, its base cycles, its length. -/
def cell (row column : Nat) : Instr × Nat × Nat :=
  let i := decodeOp (BitVec.ofNat 8 (16 * row + column)) 0x34 0x12
  (i, i.baseCycles, i.length)

/-- A cell as the grid prints it, with its length. -/
def c (i : Instr) (cycles length : Nat) : Instr × Nat × Nat := (i, cycles, length)

/-- A row of the grid. -/
def gridRow (row : Nat) : List (Instr × Nat × Nat) := (List.range 16).map (cell row)

/-- R96, row 0x. -/
theorem test_grid_row_0 : gridRow 0x0 =
    [c .brk 7 1, c (.ora (.izx 0x34)) 6 2, c (.nopUnofficial 0x02) 2 1, c (.nopUnofficial 0x03) 2 1,
     c (.nopUnofficial 0x04) 2 1, c (.ora (.zp0 0x34)) 3 2, c (.asl (.zp0 0x34)) 5 2, c (.nopUnofficial 0x07) 2 1,
     c .php 3 1, c (.ora (.imm 0x34)) 2 2, c (.asl .acc) 2 1, c (.nopUnofficial 0x0B) 2 1,
     c (.nopUnofficial 0x0C) 2 1, c (.ora (.abs 0x1234)) 4 3, c (.asl (.abs 0x1234)) 6 3, c (.nopUnofficial 0x0F) 2 1] := by decide

/-- R96, row 1x. -/
theorem test_grid_row_1 : gridRow 0x1 =
    [c (.bpl 0x34) 2 2, c (.ora (.izy 0x34)) 5 2, c (.nopUnofficial 0x12) 2 1, c (.nopUnofficial 0x13) 2 1,
     c (.nopUnofficial 0x14) 2 1, c (.ora (.zpx 0x34)) 4 2, c (.asl (.zpx 0x34)) 6 2, c (.nopUnofficial 0x17) 2 1,
     c .clc 2 1, c (.ora (.aby 0x1234)) 4 3, c (.nopUnofficial 0x1A) 2 1, c (.nopUnofficial 0x1B) 2 1,
     c (.nopUnofficial 0x1C) 2 1, c (.ora (.abx 0x1234)) 4 3, c (.asl (.abx 0x1234)) 7 3, c (.nopUnofficial 0x1F) 2 1] := by decide

/-- R96, row 2x. -/
theorem test_grid_row_2 : gridRow 0x2 =
    [c (.jsr 0x1234) 6 3, c (.and (.izx 0x34)) 6 2, c (.nopUnofficial 0x22) 2 1, c (.nopUnofficial 0x23) 2 1,
     c (.bit (.zp0 0x34)) 3 2, c (.and (.zp0 0x34)) 3 2, c (.rol (.zp0 0x34)) 5 2, c (.nopUnofficial 0x27) 2 1,
     c .plp 4 1, c (.and (.imm 0x34)) 2 2, c (.rol .acc) 2 1, c (.nopUnofficial 0x2B) 2 1,
     c (.bit (.abs 0x1234)) 4 3, c (.and (.abs 0x1234)) 4 3, c (.rol (.abs 0x1234)) 6 3, c (.nopUnofficial 0x2F) 2 1] := by decide

/-- R96, row 3x. -/
theorem test_grid_row_3 : gridRow 0x3 =
    [c (.bmi 0x34) 2 2, c (.and (.izy 0x34)) 5 2, c (.nopUnofficial 0x32) 2 1, c (.nopUnofficial 0x33) 2 1,
     c (.nopUnofficial 0x34) 2 1, c (.and (.zpx 0x34)) 4 2, c (.rol (.zpx 0x34)) 6 2, c (.nopUnofficial 0x37) 2 1,
     c .sec 2 1, c (.and (.aby 0x1234)) 4 3, c (.nopUnofficial 0x3A) 2 1, c (.nopUnofficial 0x3B) 2 1,
     c (.nopUnofficial 0x3C) 2 1, c (.and (.abx 0x1234)) 4 3, c (.rol (.abx 0x1234)) 7 3, c (.nopUnofficial 0x3F) 2 1] := by decide

/-- R96, row 4x. -/
theorem test_grid_row_4 : gridRow 0x4 =
    [c .rti 6 1, c (.eor (.izx 0x34)) 6 2, c (.nopUnofficial 0x42) 2 1, c (.nopUnofficial 0x43) 2 1,
     c (.nopUnofficial 0x44) 2 1, c (.eor (.zp0 0x34)) 3 2, c (.lsr (.zp0 0x34)) 5 2, c (.nopUnofficial 0x47) 2 1,
     c .pha 3 1, c (.eor (.imm 0x34)) 2 2, c (.lsr .acc) 2 1, c (.nopUnofficial 0x4B) 2 1,
     c (.jmp (.abs 0x1234)) 3 3, c (.eor (.abs 0x1234)) 4 3, c (.lsr (.abs 0x1234)) 6 3, c (.nopUnofficial 0x4F) 2 1] := by decide

/-- R96, row 5x. -/
theorem test_grid_row_5 : gridRow 0x5 =
    [c (.bvc 0x34) 2 2, c (.eor (.izy 0x34)) 5 2, c (.nopUnofficial 0x52) 2 1, c (.nopUnofficial 0x53) 2 1,
     c (.nopUnofficial 0x54) 2 1, c (.eor (.zpx 0x34)) 4 2, c (.lsr (.zpx 0x34)) 6 2, c (.nopUnofficial 0x57) 2 1,
     c .cli 2 1, c (.eor (.aby 0x1234)) 4 3, c (.nopUnofficial 0x5A) 2 1, c (.nopUnofficial 0x5B) 2 1,
     c (.nopUnofficial 0x5C) 2 1, c (.eor (.abx 0x1234)) 4 3, c (.lsr (.abx 0x1234)) 7 3, c (.nopUnofficial 0x5F) 2 1] := by decide

/-- R96, row 6x. -/
theorem test_grid_row_6 : gridRow 0x6 =
    [c .rts 6 1, c (.adc (.izx 0x34)) 6 2, c (.nopUnofficial 0x62) 2 1, c (.nopUnofficial 0x63) 2 1,
     c (.nopUnofficial 0x64) 2 1, c (.adc (.zp0 0x34)) 3 2, c (.ror (.zp0 0x34)) 5 2, c (.nopUnofficial 0x67) 2 1,
     c .pla 4 1, c (.adc (.imm 0x34)) 2 2, c (.ror .acc) 2 1, c (.nopUnofficial 0x6B) 2 1,
     c (.jmp (.ind 0x1234)) 5 3, c (.adc (.abs 0x1234)) 4 3, c (.ror (.abs 0x1234)) 6 3, c (.nopUnofficial 0x6F) 2 1] := by decide

/-- R96, row 7x. -/
theorem test_grid_row_7 : gridRow 0x7 =
    [c (.bvs 0x34) 2 2, c (.adc (.izy 0x34)) 5 2, c (.nopUnofficial 0x72) 2 1, c (.nopUnofficial 0x73) 2 1,
     c (.nopUnofficial 0x74) 2 1, c (.adc (.zpx 0x34)) 4 2, c (.ror (.zpx 0x34)) 6 2, c (.nopUnofficial 0x77) 2 1,
     c .sei 2 1, c (.adc (.aby 0x1234)) 4 3, c (.nopUnofficial 0x7A) 2 1, c (.nopUnofficial 0x7B) 2 1,
     c (.nopUnofficial 0x7C) 2 1, c (.adc (.abx 0x1234)) 4 3, c (.ror (.abx 0x1234)) 7 3, c (.nopUnofficial 0x7F) 2 1] := by decide

/-- R96, row 8x. -/
theorem test_grid_row_8 : gridRow 0x8 =
    [c (.nopUnofficial 0x80) 2 1, c (.sta (.izx 0x34)) 6 2, c (.nopUnofficial 0x82) 2 1, c (.nopUnofficial 0x83) 2 1,
     c (.sty (.zp0 0x34)) 3 2, c (.sta (.zp0 0x34)) 3 2, c (.stx (.zp0 0x34)) 3 2, c (.nopUnofficial 0x87) 2 1,
     c .dey 2 1, c (.nopUnofficial 0x89) 2 1, c .txa 2 1, c (.nopUnofficial 0x8B) 2 1,
     c (.sty (.abs 0x1234)) 4 3, c (.sta (.abs 0x1234)) 4 3, c (.stx (.abs 0x1234)) 4 3, c (.nopUnofficial 0x8F) 2 1] := by decide

/-- R96, row 9x. -/
theorem test_grid_row_9 : gridRow 0x9 =
    [c (.bcc 0x34) 2 2, c (.sta (.izy 0x34)) 6 2, c (.nopUnofficial 0x92) 2 1, c (.nopUnofficial 0x93) 2 1,
     c (.sty (.zpx 0x34)) 4 2, c (.sta (.zpx 0x34)) 4 2, c (.stx (.zpy 0x34)) 4 2, c (.nopUnofficial 0x97) 2 1,
     c .tya 2 1, c (.sta (.aby 0x1234)) 5 3, c .txs 2 1, c (.nopUnofficial 0x9B) 2 1,
     c (.nopUnofficial 0x9C) 2 1, c (.sta (.abx 0x1234)) 5 3, c (.nopUnofficial 0x9E) 2 1, c (.nopUnofficial 0x9F) 2 1] := by decide

/-- R96, row Ax. -/
theorem test_grid_row_A : gridRow 0xA =
    [c (.ldy (.imm 0x34)) 2 2, c (.lda (.izx 0x34)) 6 2, c (.ldx (.imm 0x34)) 2 2, c (.nopUnofficial 0xA3) 2 1,
     c (.ldy (.zp0 0x34)) 3 2, c (.lda (.zp0 0x34)) 3 2, c (.ldx (.zp0 0x34)) 3 2, c (.nopUnofficial 0xA7) 2 1,
     c .tay 2 1, c (.lda (.imm 0x34)) 2 2, c .tax 2 1, c (.nopUnofficial 0xAB) 2 1,
     c (.ldy (.abs 0x1234)) 4 3, c (.lda (.abs 0x1234)) 4 3, c (.ldx (.abs 0x1234)) 4 3, c (.nopUnofficial 0xAF) 2 1] := by decide

/-- R96, row Bx. -/
theorem test_grid_row_B : gridRow 0xB =
    [c (.bcs 0x34) 2 2, c (.lda (.izy 0x34)) 5 2, c (.nopUnofficial 0xB2) 2 1, c (.nopUnofficial 0xB3) 2 1,
     c (.ldy (.zpx 0x34)) 4 2, c (.lda (.zpx 0x34)) 4 2, c (.ldx (.zpy 0x34)) 4 2, c (.nopUnofficial 0xB7) 2 1,
     c .clv 2 1, c (.lda (.aby 0x1234)) 4 3, c .tsx 2 1, c (.nopUnofficial 0xBB) 2 1,
     c (.ldy (.abx 0x1234)) 4 3, c (.lda (.abx 0x1234)) 4 3, c (.ldx (.aby 0x1234)) 4 3, c (.nopUnofficial 0xBF) 2 1] := by decide

/-- R96, row Cx. -/
theorem test_grid_row_C : gridRow 0xC =
    [c (.cpy (.imm 0x34)) 2 2, c (.cmp (.izx 0x34)) 6 2, c (.nopUnofficial 0xC2) 2 1, c (.nopUnofficial 0xC3) 2 1,
     c (.cpy (.zp0 0x34)) 3 2, c (.cmp (.zp0 0x34)) 3 2, c (.dec (.zp0 0x34)) 5 2, c (.nopUnofficial 0xC7) 2 1,
     c .iny 2 1, c (.cmp (.imm 0x34)) 2 2, c .dex 2 1, c (.nopUnofficial 0xCB) 2 1,
     c (.cpy (.abs 0x1234)) 4 3, c (.cmp (.abs 0x1234)) 4 3, c (.dec (.abs 0x1234)) 6 3, c (.nopUnofficial 0xCF) 2 1] := by decide

/-- R96, row Dx. -/
theorem test_grid_row_D : gridRow 0xD =
    [c (.bne 0x34) 2 2, c (.cmp (.izy 0x34)) 5 2, c (.nopUnofficial 0xD2) 2 1, c (.nopUnofficial 0xD3) 2 1,
     c (.nopUnofficial 0xD4) 2 1, c (.cmp (.zpx 0x34)) 4 2, c (.dec (.zpx 0x34)) 6 2, c (.nopUnofficial 0xD7) 2 1,
     c .cld 2 1, c (.cmp (.aby 0x1234)) 4 3, c (.nopUnofficial 0xDA) 2 1, c (.nopUnofficial 0xDB) 2 1,
     c (.nopUnofficial 0xDC) 2 1, c (.cmp (.abx 0x1234)) 4 3, c (.dec (.abx 0x1234)) 7 3, c (.nopUnofficial 0xDF) 2 1] := by decide

/-- R96, row Ex. -/
theorem test_grid_row_E : gridRow 0xE =
    [c (.cpx (.imm 0x34)) 2 2, c (.sbc (.izx 0x34)) 6 2, c (.nopUnofficial 0xE2) 2 1, c (.nopUnofficial 0xE3) 2 1,
     c (.cpx (.zp0 0x34)) 3 2, c (.sbc (.zp0 0x34)) 3 2, c (.inc (.zp0 0x34)) 5 2, c (.nopUnofficial 0xE7) 2 1,
     c .inx 2 1, c (.sbc (.imm 0x34)) 2 2, c .nop 2 1, c (.nopUnofficial 0xEB) 2 1,
     c (.cpx (.abs 0x1234)) 4 3, c (.sbc (.abs 0x1234)) 4 3, c (.inc (.abs 0x1234)) 6 3, c (.nopUnofficial 0xEF) 2 1] := by decide

/-- R96, row Fx. -/
theorem test_grid_row_F : gridRow 0xF =
    [c (.beq 0x34) 2 2, c (.sbc (.izy 0x34)) 5 2, c (.nopUnofficial 0xF2) 2 1, c (.nopUnofficial 0xF3) 2 1,
     c (.nopUnofficial 0xF4) 2 1, c (.sbc (.zpx 0x34)) 4 2, c (.inc (.zpx 0x34)) 6 2, c (.nopUnofficial 0xF7) 2 1,
     c .sed 2 1, c (.sbc (.aby 0x1234)) 4 3, c (.nopUnofficial 0xFA) 2 1, c (.nopUnofficial 0xFB) 2 1,
     c (.nopUnofficial 0xFC) 2 1, c (.sbc (.abx 0x1234)) 4 3, c (.inc (.abx 0x1234)) 7 3, c (.nopUnofficial 0xFF) 2 1] := by decide

/-- Only a stream that ends too early is refused. -/
theorem test_decode_too_short :
    decode [] = .error .noOpcode ∧ decode [0xA9] = .error (.operandMissing 0xA9) ∧
      decode [0xAD, 0x00] = .error (.operandMissing 0xAD) := by
  decide

/-- A table word lays its first byte in its low bits, and the bits it has not are zero. -/
theorem test_table_words :
    decodeTableWord 24 0x12346C = some (.jmp (.ind 0x1234)) ∧ decodeTableWord 8 0xFFFFA9 = some (.lda (.imm 0x00)) := by decide

/-! ### Single steps -/

/-- Does a step go on, to a state of which something holds? -/
def nextIs (o : Outcome) (p : State → Bool) : Bool :=
  match o with
  | .next s => p s
  | .fault _ => false
  | .refused _ => false

theorem exists_next {o : Outcome} {p : State → Bool} (h : nextIs o p = true) : ∃ t, o = .next t ∧ p t = true := by
  cases o with
  | next s => exact ⟨s, rfl, h⟩
  | fault r => exact nomatch r
  | refused r => exact Bool.noConfusion h

/-- The start of a single-instruction vector of 95_test_vectors.md: no cycle owed, pc 0x8000. -/
def base : State := { State.reset with pc := 0x8000, cyclesRemaining := 0 }

/-- One step with code placed at the pc, and whether the result is as expected after so many cycles loaded. -/
def runs (code : List Byte) (s : State) (cycles : Nat) (p : State → Bool) : Bool :=
  nextIs (step (storeBytes s.pc code s)) fun t => t.cyclesRemaining + 1 == cycles && p t

/-- T-A1. -/
theorem test_lda_imm :
    runs [0xA9, 0x80] base 2 (fun t => t.a == 0x80 && t.status == 0xA0 && t.pc == 0x8002 && t.addrAbs == 0x8001) = true := by decide

/-- T-A14. -/
theorem test_lda_izx_pointer_wraps :
    runs [0xA1, 0xFE] { base with x := 0x01, ram := [(0x000, 0x02), (0x0FF, 0x34), (0x234, 0xBB)] } 6 (fun t => t.a == 0xBB) = true := by decide

/-- T-A5. -/
theorem test_ldx_zpy_wraps :
    runs [0xB6, 0xFF] { base with y := 0x01, ram := [(0x000, 0x99)] } 4 (fun t => t.x == 0x99 && t.status == 0xA0) = true := by decide

/-- T-A11. -/
theorem test_ldx_aby_crosses :
    runs [0xBE, 0xFF, 0x00] { base with y := 0xFF, ram := [(0x1FE, 0x04)] } 5 (fun t => t.x == 0x04) = true := by decide

/-- T-A12. -/
theorem test_ldy_abx_same_page :
    runs [0xBC, 0x00, 0x03] { base with x := 0xFF, ram := [(0x3FF, 0x05)] } 4 (fun t => t.y == 0x05) = true := by decide

/-- T-A17. -/
theorem test_lda_izy_crosses :
    runs [0xB1, 0x40] { base with y := 0x01, ram := [(0x040, 0xFF), (0x041, 0x02), (0x300, 0xDD)] } 6 (fun t => t.a == 0xDD) = true := by decide

/-- T-ST3. -/
theorem test_sta_abx :
    runs [0x9D, 0xFF, 0x02] { base with a := 0x56, x := 0x01, status := 0xA3 } 5 (fun t => memRead t.ram 0x300 == 0x56 && t.status == 0xA3) = true := by decide

/-- 20_memory.md R50, T-M4: a store through one mirror is seen through the other. -/
theorem test_sta_into_prg :
    runs [0x8D, 0x00, 0xC0] { base with a := 0x99 } 4 (fun t => busPeek 0x8000 t == some 0x99) = true := by decide

/-- T-ST7. -/
theorem test_stx_zpy :
    runs [0x96, 0x10] { base with x := 0xDE, y := 0xF0, status := 0xA3 } 4 (fun t => memRead t.ram 0x000 == 0xDE && t.status == 0xA3) = true := by decide

/-- T-M9. -/
theorem test_sty_undecoded :
    runs [0x8C, 0xFF, 0x7F] { base with y := 0x01 } 4 (fun t => t.ram == [] && t.status == 0x20 && t.pc == 0x8003) = true := by decide

/-- T-TR1. -/
theorem test_tax :
    runs [0xAA] { base with a := 0x80, status := 0x21 } 2 (fun t => t.x == 0x80 && t.status == 0xA1) = true := by decide

/-- T-TR2. -/
theorem test_tay :
    runs [0xA8] { base with y := 0x55, status := 0x21 } 2 (fun t => t.y == 0x00 && t.status == 0x23) = true := by decide

/-- T-TR3. -/
theorem test_txa :
    runs [0x8A] { base with x := 0x7F, status := 0x21 } 2 (fun t => t.a == 0x7F && t.status == 0x21) = true := by decide

/-- T-TR4. -/
theorem test_tya :
    runs [0x98] { base with y := 0xC0, status := 0x21 } 2 (fun t => t.a == 0xC0 && t.status == 0xA1) = true := by decide

/-- T-TR6. -/
theorem test_tsx :
    runs [0xBA] { base with sp := 0x00, x := 0x55, status := 0x21 } 2 (fun t => t.x == 0x00 && t.status == 0x23) = true := by decide

/-- T-TR7. -/
theorem test_txs_sets_no_flag :
    runs [0x9A] { base with x := 0x00 } 2 (fun t => t.sp == 0x00 && t.status == 0x20) = true := by decide

/-- 95_test_vectors.md 2.5. -/
theorem test_adc_carry_and_overflow :
    runs [0x69, 0x80] { base with a := 0x80 } 2 (fun t => t.a == 0x00 && t.status == 0x63) = true := by decide

/-- 95_test_vectors.md 2.5, with D = 1. -/
theorem test_adc_ignores_decimal :
    runs [0x69, 0x01] { base with a := 0x09, status := 0x28 } 2 (fun t => t.a == 0x0A && t.status == 0x28) = true := by decide

/-- 95_test_vectors.md 2.5. -/
theorem test_sbc_overflow :
    runs [0xE9, 0x01] { base with a := 0x80, status := 0x21 } 2 (fun t => t.a == 0x7F && t.status == 0x61) = true := by decide

/-- 95_test_vectors.md 2.5. -/
theorem test_sbc_borrow :
    runs [0xE9, 0x50] { base with a := 0x50 } 2 (fun t => t.a == 0xFF && t.status == 0xA0) = true := by decide

/-- 95_test_vectors.md 2.5. -/
theorem test_and :
    runs [0x29, 0x0F] { base with a := 0xF0, status := 0x61 } 2 (fun t => t.a == 0x00 && t.status == 0x63) = true := by decide

/-- 95_test_vectors.md 2.5. -/
theorem test_ora :
    runs [0x09, 0x80] { base with a := 0x0F, status := 0x61 } 2 (fun t => t.a == 0x8F && t.status == 0xE1) = true := by decide

/-- 95_test_vectors.md 2.5. -/
theorem test_eor :
    runs [0x49, 0x2A] { base with a := 0xAA, status := 0x61 } 2 (fun t => t.a == 0x80 && t.status == 0xE1) = true := by decide

/-- 95_test_vectors.md 2.5. -/
theorem test_bit_clears :
    runs [0x24, 0x10] { base with a := 0xFF, status := 0xE0, ram := [(0x010, 0x3F)] } 3 (fun t => t.a == 0xFF && t.status == 0x20) = true := by decide

/-- 42 R166, T-I5: `BIT $2002`. -/
theorem test_bit_reads_and_clears_ppu_status :
    runs [0x2C, 0x02, 0x20] { base with ppu := { State.reset.ppu with status := 0xE0, dataBuffer := 0x3F, addressLatch := true } } 4 (fun t => t.status == 0xE2 && t.ppu.status == 0x60 && !t.ppu.addressLatch) = true := by decide

/-- 95_test_vectors.md 2.5. -/
theorem test_cmp_unsigned :
    runs [0xC9, 0x01] { base with a := 0x80, status := 0x60 } 2 (fun t => t.status == 0x61) = true := by decide

/-- 95_test_vectors.md 2.5. -/
theorem test_cpx_below :
    runs [0xE0, 0x20] { base with x := 0x10, status := 0x60 } 2 (fun t => t.status == 0xE0) = true := by decide

/-- 95_test_vectors.md 2.5. -/
theorem test_cpy_equal :
    runs [0xC0, 0x00] { base with status := 0x60 } 2 (fun t => t.status == 0x63) = true := by decide

/-- 95_test_vectors.md 2.6. -/
theorem test_asl_acc :
    runs [0x0A] { base with a := 0x80 } 2 (fun t => t.a == 0x00 && t.status == 0x23) = true := by decide

/-- T-SH1. -/
theorem test_asl_memory :
    runs [0x06, 0x10] { base with a := 0x77, ram := [(0x010, 0xC1)] } 5 (fun t => memRead t.ram 0x010 == 0x82 && t.status == 0xA1 && t.a == 0x77) = true := by decide

/-- 95_test_vectors.md 2.6. -/
theorem test_lsr_acc :
    runs [0x4A] { base with a := 0x55, status := 0x21 } 2 (fun t => t.a == 0x2A && t.status == 0x21) = true := by decide

/-- T-SH2. -/
theorem test_lsr_memory :
    runs [0x56, 0x10] { base with a := 0x77, x := 0x05, ram := [(0x015, 0x01)] } 6 (fun t => t.ram == [] && t.status == 0x23) = true := by decide

/-- 95_test_vectors.md 2.6. -/
theorem test_rol_acc :
    runs [0x2A] { base with a := 0x80, status := 0x21 } 2 (fun t => t.a == 0x01 && t.status == 0x21) = true := by decide

/-- T-SH3. -/
theorem test_rol_memory :
    runs [0x2E, 0x00, 0x02] { base with status := 0x21, ram := [(0x200, 0x80)] } 6 (fun t => memRead t.ram 0x200 == 0x01 && t.status == 0x21) = true := by decide

/-- 95_test_vectors.md 2.6. -/
theorem test_ror_acc :
    runs [0x6A] { base with a := 0x01, status := 0x21 } 2 (fun t => t.a == 0x80 && t.status == 0xA1) = true := by decide

/-- T-SH4. -/
theorem test_ror_memory_no_extra_cycle :
    runs [0x7E, 0xFF, 0x02] { base with x := 0x01, ram := [(0x300, 0x01)] } 7 (fun t => t.ram == [] && t.status == 0x23) = true := by decide

/-- T-ID1. -/
theorem test_inc_wraps :
    runs [0xE6, 0x10] { base with status := 0x21, ram := [(0x010, 0xFF)] } 5 (fun t => t.ram == [] && t.status == 0x23) = true := by decide

/-- 43 R180 of read-modify-write on $2007: one read at the pointer, one write at the next address. -/
theorem test_inc_of_data_register :
    runs [0xEE, 0x07, 0x20] { base with ppu := { State.reset.ppu with addrReg := 0x3F01, palette := [(0x01, 0x41)] } } 6 (fun t => t.ppu.palette == [(0x01, 0x41), (0x02, 0x42)] && t.ppu.addrReg == 0x3F03) = true := by decide

/-- T-ID3. -/
theorem test_dec_wraps :
    runs [0xC6, 0x10] { base with status := 0x21 } 5 (fun t => memRead t.ram 0x010 == 0xFF && t.status == 0xA1) = true := by decide

/-- 95_test_vectors.md 2.6. -/
theorem test_inx_wraps :
    runs [0xE8] { base with x := 0xFF, status := 0x21 } 2 (fun t => t.x == 0x00 && t.status == 0x23) = true := by decide

/-- 95_test_vectors.md 2.6. -/
theorem test_iny :
    runs [0xC8] { base with status := 0x21 } 2 (fun t => t.y == 0x01 && t.status == 0x21) = true := by decide

/-- 95_test_vectors.md 2.6. -/
theorem test_dex_wraps :
    runs [0xCA] { base with status := 0x21 } 2 (fun t => t.x == 0xFF && t.status == 0xA1) = true := by decide

/-- 95_test_vectors.md 2.6. -/
theorem test_dey :
    runs [0x88] { base with y := 0x80, status := 0x21 } 2 (fun t => t.y == 0x7F && t.status == 0x21) = true := by decide

/-- T-B1. -/
theorem test_bne_backward :
    runs [0xD0, 0xFA] { base with pc := 0x8015 } 3 (fun t => t.pc == 0x8011) = true := by decide

/-- T-B2. -/
theorem test_bne_not_taken :
    runs [0xD0, 0xFA] { base with pc := 0x8015, status := 0x22 } 2 (fun t => t.pc == 0x8017) = true := by decide

/-- T-B4. -/
theorem test_beq_crosses :
    runs [0xF0, 0x7F] { base with pc := 0x8080, status := 0x22 } 4 (fun t => t.pc == 0x8101) = true := by decide

/-- T-B5. -/
theorem test_bpl_largest_backward :
    runs [0x10, 0x80] base 4 (fun t => t.pc == 0x7F82) = true := by decide

/-- T-B7. -/
theorem test_bcc_offset_zero :
    runs [0x90, 0x00] { base with pc := 0x80FE } 3 (fun t => t.pc == 0x8100) = true := by decide

/-- T-B12. -/
theorem test_bcs_wraps :
    runs [0xB0, 0x10] { base with pc := 0xFFF0, status := 0x21 } 4 (fun t => t.pc == 0x0002) = true := by decide

/-- T-B9. -/
theorem test_bmi :
    runs [0x30, 0xFD] { base with status := 0xA0 } 4 (fun t => t.pc == 0x7FFF) = true := by decide

/-- T-B10. -/
theorem test_bvc :
    runs [0x50, 0x10] { base with pc := 0x80F0 } 4 (fun t => t.pc == 0x8102) = true := by decide

/-- T-B11. -/
theorem test_bvs_not_taken :
    runs [0x70, 0x10] { base with pc := 0x80F0 } 2 (fun t => t.pc == 0x80F2) = true := by decide

/-- 95_test_vectors.md 2.7. -/
theorem test_jmp_abs :
    runs [0x4C, 0x00, 0x90] base 3 (fun t => t.pc == 0x9000) = true := by decide

/-- T-Q2. -/
theorem test_jmp_ind_page_wrap :
    runs [0x6C, 0xFF, 0x10] { base with ram := [(0x000, 0xAB), (0x0FF, 0xCD), (0x100, 0xEE)] } 5 (fun t => t.pc == 0xABCD) = true := by decide

/-- 95_test_vectors.md 2.7. -/
theorem test_jsr_stack_wraps :
    runs [0x20, 0x00, 0x90] { base with sp := 0x00 } 6 (fun t => t.ram == [(0x100, 0x80), (0x1FF, 0x02)] && t.sp == 0xFE && t.pc == 0x9000) = true := by decide

/-- 95_test_vectors.md 2.7. -/
theorem test_rts_wraps :
    runs [0x60] { base with sp := 0xFF, ram := [(0x100, 0xFF), (0x101, 0xFF)] } 6 (fun t => t.pc == 0x0000 && t.sp == 0x01) = true := by decide

/-- T-K1. -/
theorem test_pha_wraps :
    runs [0x48] { base with a := 0xAB, sp := 0x00 } 3 (fun t => t.ram == [(0x100, 0xAB)] && t.sp == 0xFF) = true := by decide

/-- T-K2. -/
theorem test_pla_wraps :
    runs [0x68] { base with sp := 0xFF, a := 0x55, status := 0xA1 } 4 (fun t => t.a == 0x00 && t.sp == 0x00 && t.status == 0x23) = true := by decide

/-- T-K5. -/
theorem test_php :
    runs [0x08] { base with status := 0xCF } 3 (fun t => t.ram == [(0x1FD, 0xFF)] && t.status == 0xCF && t.sp == 0xFC) = true := by decide

/-- T-K6. -/
theorem test_plp_loads_all_bits :
    runs [0x28] { base with sp := 0xFC, ram := [(0x1FD, 0xFF)] } 4 (fun t => t.status == 0xFF && t.sp == 0xFD) = true := by decide

/-- T-K13, with the vector in the one PRG bank. -/
theorem test_brk :
    runs [0x00] { base with pc := 0x80FF, sp := 0x01, status := 0xE7, cart := some { Cartridge.blank with prg := [(0x3FFE, 0x34), (0x3FFF, 0x12)] } } 7 (fun t => t.ram == [(0x100, 0x01), (0x101, 0x81), (0x1FF, 0xF7)] && t.pc == 0x1234 && t.sp == 0xFE && t.status == 0xE7) = true := by decide

/-- T-K14. -/
theorem test_rti_wraps :
    runs [0x40] { base with ram := [(0x100, 0x12), (0x1FE, 0xFF), (0x1FF, 0x34)] } 6 (fun t => t.status == 0xCF && t.pc == 0x1234 && t.sp == 0x00) = true := by decide

/-- 95_test_vectors.md 2.8. -/
theorem test_clc :
    runs [0x18] { base with status := 0x21 } 2 (fun t => t.status == 0x20 && t.pc == 0x8001) = true := by decide

/-- 95_test_vectors.md 2.8. -/
theorem test_sec :
    runs [0x38] { base with status := 0x20 } 2 (fun t => t.status == 0x21 && t.pc == 0x8001) = true := by decide

/-- 95_test_vectors.md 2.8. -/
theorem test_cld :
    runs [0xD8] { base with status := 0x28 } 2 (fun t => t.status == 0x20 && t.pc == 0x8001) = true := by decide

/-- 95_test_vectors.md 2.8. -/
theorem test_sed :
    runs [0xF8] { base with status := 0x20 } 2 (fun t => t.status == 0x28 && t.pc == 0x8001) = true := by decide

/-- 95_test_vectors.md 2.8. -/
theorem test_cli :
    runs [0x58] { base with status := 0x24 } 2 (fun t => t.status == 0x20 && t.pc == 0x8001) = true := by decide

/-- 95_test_vectors.md 2.8. -/
theorem test_sei :
    runs [0x78] { base with status := 0x20 } 2 (fun t => t.status == 0x24 && t.pc == 0x8001) = true := by decide

/-- 95_test_vectors.md 2.8. -/
theorem test_clv :
    runs [0xB8] { base with status := 0x60 } 2 (fun t => t.status == 0x20 && t.pc == 0x8001) = true := by decide

/-- 45 R245. -/
theorem test_nop :
    runs [0xEA] { base with status := 0xE3 } 2 (fun t => t.pc == 0x8001 && t.status == 0xE3 && t.opcode == 0xEA) = true := by decide

/-- T-K15. -/
theorem test_unofficial_is_one_byte :
    runs [0x80, 0xFF] { base with a := 0x01, x := 0x02, y := 0x03, status := 0xE3 } 2 (fun t => t.pc == 0x8001 && t.a == 0x01 && t.x == 0x02 && t.y == 0x03 && t.status == 0xE3) = true := by decide

/-! ### Events, reset, clocks, the PPU window -/

/-- The vectors of 95_test_vectors.md 2.9. -/
def vectors : State :=
  { base with
    pc := 0x8002, status := 0x21
    cart := some { Cartridge.blank with prg := [(0x3FFB, 0xA0), (0x3FFD, 0x80), (0x3FFF, 0x90)] } }

/-- T-X1. -/
theorem test_irq : nextIs (step { vectors with env := [(0, .irq)] }) (fun t =>
    t.ram == [(0x1FB, 0x21), (0x1FC, 0x02), (0x1FD, 0x80)] && t.pc == 0x9000 && t.sp == 0xFA && t.status == 0x25 &&
      t.cyclesRemaining == 7) = true := by decide

/-- T-X2: the request is lost. -/
theorem test_irq_masked : nextIs (step { vectors with status := 0x25, env := [(0, .irq)] }) (fun t =>
    t == { vectors with status := 0x25 }) = true := by decide

/-- T-X3. -/
theorem test_nmi : nextIs (step { vectors with pc := 0x9000, sp := 0xFA, status := 0x25, env := [(0, .nmi)] }) (fun t =>
    t.ram == [(0x1F8, 0x25), (0x1FA, 0x90)] && t.pc == 0xA000 && t.sp == 0xF7 && t.status == 0x25 &&
      t.cyclesRemaining == 8) = true := by decide

/-- R77, R266: the events of the debugger port and the clearing of frame_complete. -/
theorem test_other_events :
    nextIs (step { base with env := [(0, .debugWrite 0x1923 0xAB)] }) (fun t => t == { base with ram := [(0x123, 0xAB)] }) = true ∧
      nextIs (step { base with ppu := { base.ppu with status := 0x80, addressLatch := true }, env := [(0, .debugRead 0x2002)] })
        (fun t => t == base) = true ∧
      nextIs (step { base with frameComplete := true, env := [(0, .clearFrame)] }) (fun t => t == base) = true := by decide

/-- T-R1: what RESET sets and what it leaves alone. -/
theorem test_reset_event : nextIs (step { base with
      a := 0x55, x := 0x66, y := 0x77, sp := 0x12, status := 0xFF, ram := [(0x005, 0x09)], systemClock := 99, dot := 7
      ppu := { State.reset.ppu with addrReg := 0x1234 }
      cart := some { Cartridge.blank with prg := [(0x3FFC, 0x23), (0x3FFD, 0xC1)] }, env := [(0, .reset)] }) (fun t =>
    t.a == 0x00 && t.sp == 0xFD && t.status == 0x20 && t.pc == 0xC123 && t.cyclesRemaining == 8 && t.systemClock == 0 &&
      t.ram == [(0x005, 0x09)] && t.ppu.addrReg == 0x1234 && t.dot == 7) = true := by decide

/-- R261, T-R3: the first instruction after reset executes on master tick 25. -/
theorem test_first_instruction_on_tick_25 : nextIs (step (State.reset.withFetchWord 8 0xEA)) (fun t =>
    t.systemClock == 25 && t.dot == 25 && t.pc == 0x0001 && t.cyclesRemaining == 1) = true := by decide

/-- R262: the last dot of the frame. -/
theorem test_frame_wraps :
    ppuDotClock { base with dot := 340, scanline := 260 } = { base with dot := 0, scanline := 0, frameComplete := true } := by
  decide

/-- R267: 3n ticks at most for an n-cycle instruction, here a NOP that the CPU clock reaches at once: 3 * 2 - 2. -/
theorem test_step_cpu_instruction :
    (match stepCpuInstruction (storeBytes 0x8000 [0xEA] base) with
      | some (.next t) => t.systemClock == 4 && t.cyclesRemaining == 0 && t.pc == 0x8001
      | _ => false) = true := by decide

/-- T-I5: a read of the status register. -/
theorem test_status_register_read :
    busRead 0x2002 { base with ppu := { base.ppu with status := 0xE0, dataBuffer := 0x3F, addressLatch := true } } =
      (0xFF, { base with ppu := { base.ppu with status := 0x60, dataBuffer := 0x3F, addressLatch := false } }) := by decide

/-- T-P3: the pointer, and the palette mirror at 0x3F10. -/
theorem test_palette_write :
    (busWrite 0x2007 0x15 (busWrite 0x2007 0x2A (busWrite 0x2006 0x10 (busWrite 0x2006 0x3F base)))).ppu =
      { base.ppu with palette := [(0x00, 0x2A), (0x11, 0x15)], addrReg := 0x3F12 } := by decide

/-- T-P10: a write of 0x2005 flips the shared latch. -/
theorem test_scroll_flips_the_latch :
    (busWrite 0x2006 0x34 (busWrite 0x2005 0x12 { base with ppu := { base.ppu with addrReg := 0x1200 } })).ppu =
      { base.ppu with addrReg := 0x1234, addressLatch := false } := by decide

/-- T-P8: past 0x3FFF the pointer still counts and a read is undelayed. -/
theorem test_pointer_past_the_palette :
    (busRead 0x2007 { base with ppu := { base.ppu with addrReg := 0x4000, dataBuffer := 0x77, palette := [(0x00, 0x11)] } }) =
      (0x00, { base with ppu := { base.ppu with addrReg := 0x4001, dataBuffer := 0x00, palette := [(0x00, 0x11)] } }) := by
  decide

/-- T-I3, T-M1, T-M2, T-M6: RAM mirrors, the stub, un-decoded addresses, no cartridge. -/
theorem test_bus_map :
    (busRead 0x1923 { base with ram := [(0x123, 0xAB)] }).1 = 0xAB ∧ (busRead 0x4015 base).1 = 0x00 ∧
      (busRead 0x7FFF base).1 = 0x00 ∧ (busRead 0xFFFC { base with cart := none }).1 = 0x00 := by decide

/-- R58's worked example of a mapper id. -/
theorem test_mapper_id : mapperId 0x10 0x20 = 0x21 ∧ mapperId 0x04 0x00 = 0x00 ∧ hasTrainer 0x04 = true := by decide

/-- R59, R57: a short image, a wrong magic. -/
theorem test_loader_failures :
    loadImage [0x4E, 0x45] = .error .ioError ∧ loadImage (List.replicate 16 0x00) = .error .invalidFormat := by decide

/-! ### Witnesses: the hypotheses of each statement can be met -/

/-- A state with a cartridge of two banks. -/
def twoBanks : State := { base with cart := some { Cartridge.blank with prgBanks := 2 } }

/-- A state with no cartridge. -/
def noCartridge : State := { base with cart := none }

/-- DecodeOfEncode: one well-formed instruction of each shape, operands at their ends. -/
theorem witness_well_formed :
    (Instr.lda (.imm 0xFF)).WellFormed = true ∧ (Instr.sta (.izy 0x00)).WellFormed = true ∧
      (Instr.jmp (.ind 0xFFFF)).WellFormed = true ∧ (Instr.jsr 0x0000).WellFormed = true ∧
      (Instr.bcs 0x80).WellFormed = true ∧ Instr.rti.WellFormed = true ∧ (Instr.ror .acc).WellFormed = true ∧
      (Instr.nopUnofficial 0xFF).WellFormed = true := by decide

/-- EncodeOfDecode: bytes that decode and leave a rest. -/
theorem witness_decodes : decode [0xAD, 0x34, 0x12, 0x99] = .ok (.lda (.abs 0x1234), [0x99]) := by decide

/-- EveryOpcodeDecodes: the first and the last unofficial opcode. -/
theorem witness_unofficial : 0x02 ∈ unofficialOpcodes ∧ 0xFF ∈ unofficialOpcodes ∧ 0xEA ∉ unofficialOpcodes := by decide

/-- RamIsMirrored: the same cell through two mirrors, and two cells. -/
theorem witness_ram :
    base.memoriesWf = true ∧ (0x1FFF : Word).toNat ≤ 0x1FFF ∧ (0x07FF : Word).toNat ≤ 0x1FFF ∧
      (0x1FFF : Word).toNat % 0x800 = (0x07FF : Word).toNat % 0x800 ∧
      (0x0000 : Word).toNat % 0x800 ≠ (0x07FF : Word).toNat % 0x800 := by decide

/-- PpuWindowIsMirrored: the ends of the window, and the addresses beside it. -/
theorem witness_ppu_window :
    (inPpuWindow 0x1FFF = false ∧ inPpuWindow 0x4000 = false) ∧
    inPpuWindow 0x2000 = true ∧ inPpuWindow 0x3FF8 = true ∧ (0x2000 : Word).toNat % 8 = (0x3FF8 : Word).toNat % 8 ∧
      inPpuWindow 0x2007 = true ∧ inPpuWindow 0x3FFF = true ∧ (0x2007 : Word).toNat % 8 = (0x3FFF : Word).toNat % 8 := by
  decide

/-- UndecodedAddresses: the ends of the range, and the top with no cartridge. -/
theorem witness_undecoded :
    (0x4000 ≤ (0x4000 : Word).toNat ∧ (0x4000 : Word).toNat ≤ 0x7FFF) ∧
      (0x4000 ≤ (0x7FFF : Word).toNat ∧ (0x7FFF : Word).toNat ≤ 0x7FFF) ∧
      (0x4000 ≤ (0xFFFF : Word).toNat ∧ noCartridge.cart = none) := by decide

/-- PrgIsWritableAndMirrored: one bank, the ends of the range in one cell; two banks, in two cells. -/
theorem witness_prg :
    base.memoriesWf = true ∧ base.cart = some Cartridge.blank ∧ 0x8000 ≤ (0x8000 : Word).toNat ∧
      0x8000 ≤ (0xC000 : Word).toNat ∧ (0xC000 : Word).toNat % 0x4000 = (0x8000 : Word).toNat % 0x4000 ∧
      twoBanks.memoriesWf = true ∧ twoBanks.cart = some { Cartridge.blank with prgBanks := 2 } ∧
      (0xC000 : Word).toNat % 0x8000 ≠ (0x8000 : Word).toNat % 0x8000 := by decide

/-- ReadSideEffects: addresses beside the window and in it. -/
theorem witness_reads :
    inPpuWindow 0x1FFF = false ∧ inPpuWindow 0x4000 = false ∧
      ¬ (inPpuWindow 0x2001 = true ∧ ((0x2001 : Word).toNat % 8 = 2 ∨ (0x2001 : Word).toNat % 8 = 7)) := by decide

/-- PlainWindowWrites, UnreadableRegistersAndScroll, StatusRegisterRead, AddressRegisterWrites, DataRegisterRead and
DataRegisterWrite: an address of the window for each register, the last mirror of some. -/
theorem witness_registers :
    (inPpuWindow 0x2000 = true ∧ (0x2000 : Word).toNat % 8 = 0) ∧ (inPpuWindow 0x3FF9 = true ∧ (0x3FF9 : Word).toNat % 8 = 1) ∧
      (inPpuWindow 0x2002 = true ∧ (0x2002 : Word).toNat % 8 = 2) ∧
      (inPpuWindow 0x2004 = true ∧ 2 ≤ (0x2004 : Word).toNat % 8 ∧ (0x2004 : Word).toNat % 8 ≤ 4) ∧
      (inPpuWindow 0x2005 = true ∧ (0x2005 : Word).toNat % 8 = 5) ∧ (inPpuWindow 0x3FFE = true ∧ (0x3FFE : Word).toNat % 8 = 6) ∧
      (inPpuWindow 0x3FFF = true ∧ (0x3FFF : Word).toNat % 8 = 7) := by decide

/-- AddressRegisterWrites: both states of the latch. -/
theorem witness_latch :
    base.ppu.addressLatch = false ∧ (busWrite 0x2006 0x21 base).ppu.addressLatch = true := by decide

/-- DataRegisterRead: a cartridge, and the pointer at the end of the pattern range. -/
theorem witness_delayed_read :
    let s := { base with ppu := { base.ppu with addrReg := 0x1FFF } }
    s.cart = some Cartridge.blank ∧ s.ppu.addrReg.toNat ≤ 0x1FFF ∧ inPpuWindow 0x2007 = true ∧
      (0x2007 : Word).toNat % 8 = 7 := by decide

/-- PaletteIsMirrored, PatternAndNametableRanges: the ends of the three ranges, and addresses above 0x3FFF. -/
theorem witness_ppu_bus :
    base.ppu.wf = true ∧ 0x3F00 ≤ (0x3F00 : Word).toNat % 0x4000 ∧ 0x3F00 ≤ (0xFFFF : Word).toNat % 0x4000 ∧
      (0x0000 : Word).toNat % 0x4000 ≤ 0x1FFF ∧ (0x5FFF : Word).toNat % 0x4000 ≤ 0x1FFF ∧
      (0x2000 ≤ (0x2000 : Word).toNat % 0x4000 ∧ (0x2000 : Word).toNat % 0x4000 ≤ 0x3EFF) ∧
      (0x2000 ≤ (0x7EFF : Word).toNat % 0x4000 ∧ (0x7EFF : Word).toNat % 0x4000 ≤ 0x3EFF) := by decide

/-- LoadsTakeTheOperand to IncrementsAndDecrements: an operand form each instruction of these statements has. -/
theorem witness_operand_forms :
    (Instr.lda (.abx 0xFFFF)).WellFormed = true ∧ (Instr.ldx (.aby 0x0000)).WellFormed = true ∧
      (Instr.ldy (.zpx 0xFF)).WellFormed = true ∧ (Instr.sta (.aby 0xFFFF)).WellFormed = true ∧
      (Instr.stx (.zpy 0xFF)).WellFormed = true ∧ (Instr.sty (.abs 0x2006)).WellFormed = true ∧
      (Instr.adc (.izx 0xFF)).WellFormed = true ∧ (Instr.sbc (.imm 0x00)).WellFormed = true ∧
      (Instr.and (.zp0 0x00)).WellFormed = true ∧ (Instr.ora (.izy 0xFF)).WellFormed = true ∧
      (Instr.eor (.aby 0x8000)).WellFormed = true ∧ (Instr.bit (.abs 0x2002)).WellFormed = true ∧
      (Instr.cmp (.izy 0x00)).WellFormed = true ∧ (Instr.cpx (.imm 0x80)).WellFormed = true ∧
      (Instr.cpy (.zp0 0xFF)).WellFormed = true ∧ (Operand.abx 0x2006 ≠ .acc ∧ (Instr.asl (.abx 0x2006)).WellFormed = true) ∧
      (Instr.inc (.zpx 0xFF)).WellFormed = true := by decide

/-- StackWrapsInPageOne: both ends of the stack. -/
theorem witness_stack_ends :
    ({ base with sp := 0x00 } : State).sp = 0x00 ∧ ({ base with sp := 0xFF } : State).sp = 0xFF := by decide

/-- IrqEntersTheHandlerUnlessMasked, ReturnsUndoEntries: I clear and I set. -/
theorem witness_irq_mask :
    base.memoriesWf = true ∧ base.status.getLsbD 2 = false ∧ ({ base with status := 0x24 } : State).status.getLsbD 2 = true := by
  decide

/-- RegisterFrame, FlagFrame, MemoryFrame, ClockFrame: an instruction that stores, one that pushes, one that does neither, each with
an address outside what it stores to. -/
theorem witness_frames :
    ((Instr.sta (.abs 0x0200)).WellFormed = true ∧ (∃ t, exec (.sta (.abs 0x0200)) base = .next t) ∧
      storeTarget (.sta (.abs 0x0200)) = some (.abs 0x0200) ∧ cellOf base 0x0201 ≠ cellOf base (operandAddr (.abs 0x0200) base) ∧
      inPpuWindow (operandAddr (.abs 0x0200) base) = false ∧ writesA (.sta (.abs 0x0200)) = false) ∧
      (Instr.brk.WellFormed = true ∧ (∃ t, exec .brk base = .next t) ∧ storeTarget .brk = none ∧
        (∀ k, k < pushCount .brk → cellOf base 0x01FA ≠ some (false, 256 + (base.sp - BitVec.ofNat 8 k).toNat)) ∧
        Instr.brk ≠ .txs) ∧
      ((Instr.lda (.imm 0x00)).WellFormed = true ∧ (∃ t, exec (.lda (.imm 0x00)) base = .next t) ∧
        writesPc (.lda (.imm 0x00)) = false ∧ pushCount (.lda (.imm 0x00)) = 0 ∧ writesX (.lda (.imm 0x00)) = false ∧ writesY (.lda (.imm 0x00)) = false) := by
  refine ⟨⟨by decide, ⟨_, rfl⟩, by decide, by decide, by decide, by decide⟩, ⟨by decide, ⟨_, rfl⟩, by decide, by decide, by decide⟩,
    ⟨by decide, ⟨_, rfl⟩, by decide, by decide, by decide, by decide⟩⟩

/-- StepRunsTheDecodedInstruction: a one-byte instruction at the pc of the state after reset. -/
theorem witness_runs_decoded :
    State.reset.runs = true ∧ Instr.brk.WellFormed = true ∧ encode .brk = some (0x00 :: []) ∧
      ∀ k b, ([0x00] : List Byte)[k]? = some b → busPeek (State.reset.pc + BitVec.ofNat 16 k) State.reset = some b := by
  refine ⟨by decide, by decide, by decide, fun k b h => ?_⟩
  cases k with
  | zero => simp only [List.getElem?_cons_zero, Option.some.injEq] at h; subst h; decide
  | succ k => simp at h

/-- StepRunsTheDecodedInstruction: a three-byte instruction, placed by `withFetchWord`. -/
theorem witness_runs_decoded_long :
    let s := State.reset.withFetchWord 24 0x90004C
    s.runs = true ∧ encode (.jmp (.abs 0x9000)) = some (0x4C :: [0x00, 0x90]) ∧
      busPeek s.pc s = some 0x4C ∧ busPeek (s.pc + 1) s = some 0x00 ∧ busPeek (s.pc + 2) s = some 0x90 ∧
      (readCode (Instr.jmp (.abs 0x9000)).length s.pc s).1 = 0x4C :: [0x00, 0x90] := by decide

/-- StepRunsTheDecodedInstruction: code in the PPU window, its opcode the data buffer, its operand the byte of a register that gives
0x00; the fetch of the opcode has moved the pointer on and refilled the buffer (20_memory.md R68, R85). -/
theorem witness_runs_in_the_window :
    let s := { base with pc := 0x2007, ppu := { base.ppu with dataBuffer := 0xA9, addrReg := 0x0010 } }
    s.runs = true ∧ (Instr.lda (.imm 0x00)).WellFormed = true ∧ encode (.lda (.imm 0x00)) = some (0xA9 :: [0x00]) ∧
      (readCode (Instr.lda (.imm 0x00)).length s.pc s).1 = 0xA9 :: [0x00] ∧
      nextIs (step s) (fun t => t.a == 0x00 && t.pc == 0x2009 && t.ppu.addrReg == 0x0011 && t.ppu.dataBuffer == 0x00) = true := by
  decide

/-- StepDeliversTheDueEvent: each event due at once on a machine that has been reset, and on one that has not, where it need not have
been. -/
theorem witness_each_event :
    (∀ e ∈ [Event.reset, .irq, .nmi, .debugRead 0x2002, .debugWrite 0x0000 0xAB, .clearFrame],
      let s := { base with env := [(0, e)] }
      cartAdmitted s.cart = true ∧ s.everReset = true ∧ s.env = (0, e) :: [] ∧ 0 ≤ ticksToExecute s) ∧
      ∀ e ∈ [Event.reset, .debugRead 0x2002, .debugWrite 0x0000 0xAB, .clearFrame],
        let s := { powerOn Params.standard with env := [(0, e)] }
        cartAdmitted s.cart = true ∧ s.everReset = false ∧ (e ≠ .irq ∧ e ≠ .nmi) ∧ s.env = (0, e) :: [] := by decide

/-- StepDeliversTheDueEvent, StepRefinesTheClock: an event at the very boundary before the instruction (24 ticks after reset), and
none. -/
theorem witness_due_event :
    let s := { State.reset with env := [(24, .nmi)] }
    s.everReset = true ∧ cartAdmitted s.cart = true ∧ s.env = (24, .nmi) :: [] ∧ 24 ≤ ticksToExecute s ∧
      dueEvent s = some (24, .nmi, []) ∧ dueEvent State.reset = none ∧
      dueEvent { State.reset with env := [(25, .nmi)] } = none := by decide

/-- StepStopsOnlyWhereRefused: a cartridge without PRG, one without CHR; a machine never reset, with nothing due, with a late RESET,
with an interrupt, and with a RESET due at once; a machine that has been reset. -/
theorem witness_refusals :
    let never := powerOn Params.standard
    ({ base with cart := some { Cartridge.blank with prgBanks := 0 } } : State).cart =
        some { Cartridge.blank with prgBanks := 0 } ∧
      ({ base with cart := some { Cartridge.blank with chrBanks := 0 } } : State).cart =
        some { Cartridge.blank with chrBanks := 0 } ∧
      cartAdmitted never.cart = true ∧ never.everReset = false ∧ never.env = [] ∧ isInterrupt .nmi = true ∧
      isInterrupt .reset = false ∧ base.everReset = true ∧ cartAdmitted base.cart = true := by decide

/-- StepStopsOnlyWhereRefused: the machine itself refuses there, and goes on where a RESET is due. -/
theorem witness_never_reset :
    (match step (powerOn Params.standard) with | .refused .neverReset => true | _ => false) = true ∧
      nextIs (step { powerOn Params.standard with env := [(0, .reset)] }) (fun t => t.everReset) = true := by decide

/-- StepKeepsTheInvariant, PpuStatusIsNeverSet: the state after reset meets the invariant and has a next state. -/
theorem witness_invariant : State.reset.Inv = true ∧ ∃ t, step State.reset = .next t := ⟨by decide, ⟨_, rfl⟩⟩

/-- ExecDependsOnVisibleState, TrajectoryIgnoresTheClocks: two states that look alike to a program and are not equal. -/
theorem witness_look_alike :
    let s := { State.reset with status := 0x10, opcode := 0x77, cyclesRemaining := 3, dot := 340 }
    Instr.php.WellFormed = true ∧ State.reset.runs = true ∧ s.runs = true ∧ State.reset.visible = s.visible ∧
      s ≠ State.reset := by decide

/-- DotClockWalksTheFrame, StepPpuFrameEndsTheFrame: the last place of the frame, with eight cycles owed. -/
theorem witness_frame_end :
    let s := { base with dot := 340, scanline := 260, cyclesRemaining := 8 }
    s.dot ≤ 340 ∧ s.scanline ≤ 260 ∧ s.cyclesRemaining ≤ 8 ∧ s.frameComplete = false ∧ framePosition s = 89000 := by decide

/-- StepCpuInstructionRunsOne: no cycle owed. -/
theorem witness_no_cycle_owed : base.cyclesRemaining = 0 := by decide

/-- LoaderPlacesTheImage: no bank of a kind; an image that ends with its header or before it. -/
theorem witness_image_refused :
    (([] : List Byte).length = (0x00 : Byte).toNat * 16384 ∧ ([] : List Byte).length = (0x00 : Byte).toNat * 8192) ∧
      ([0x4E, 0x45, 0x53, 0x1A] : List Byte).length < 16 ∧
      (9 ≤ (List.replicate 9 (0x00 : Byte)).length ∧
        7 + (List.replicate 9 (0x00 : Byte)).length <
          16 + (if (0x00 : Byte).getLsbD 2 then 512 else 0) + (0x01 : Byte).toNat * 16384 + (0x01 : Byte).toNat * 8192) := by
  simp only [List.length_replicate]
  decide

/-- LoaderPlacesTheImage: one bank of each kind, without and with a trainer; a wrong magic; a foreign mapper. -/
theorem witness_image :
    (List.replicate 8 (0x00 : Byte)).length = 8 ∧
      ([] : List Byte).length = (if (0x00 : Byte).getLsbD 2 then 512 else 0) ∧
      (List.replicate 512 (0xFF : Byte)).length = (if (0x04 : Byte).getLsbD 2 then 512 else 0) ∧
      (List.replicate 16384 (0xEA : Byte)).length = (0x01 : Byte).toNat * 16384 ∧
      (List.replicate 8192 (0x3C : Byte)).length = (0x01 : Byte).toNat * 8192 ∧ (0x01 : Byte) ≠ 0 ∧
      ([0x4E, 0x45, 0x53, 0x00] : List Byte).length = 4 ∧ ([0x4E, 0x45, 0x53, 0x00] : List Byte) ≠ [0x4E, 0x45, 0x53, 0x1A] ∧
      BitVec.ofNat 8 ((0x20 : Byte).toNat / 16 * 16 + (0x10 : Byte).toNat / 16) ≠ (0 : Byte) ∧
      BitVec.ofNat 8 ((0x00 : Byte).toNat / 16 * 16 + (0x04 : Byte).toNat / 16) = (0 : Byte) := by
  simp only [List.length_replicate]
  decide

end Sys2Proof.Tests
end

section
/-!
The stack primitives (10_state.md R12, R13): the modulo-256 arithmetic of the stack pointer in terms of naturals, and the
obligation about `push` and `pull`, settled from `push_eq` and `pull_eq`.
-/
namespace Sys2Proof.Proofs.Stack

open Sys2Proof Sys2Proof.Machine

/-- R13's decrement: one less modulo 256 is 255 more modulo 256. -/
theorem sub_one_eq_ofNat_mod (sp : Byte) : sp - 1 = BitVec.ofNat 8 ((sp.toNat + 255) % 256) := by
  bv_omega

/-- R13's increment. -/
theorem add_one_eq_ofNat_mod (sp : Byte) : sp + 1 = BitVec.ofNat 8 ((sp.toNat + 1) % 256) := by
  bv_omega

/-- R12: a push at the lower end of page 1 leaves the pointer at the upper end. -/
theorem push_sp_of_sp_zero (v : Byte) {s : State} (h : s.sp = 0x00) : (push v s).sp = 0xFF := by
  rw [push_eq, h]
  rfl

/-- R12: a pull at the upper end of page 1 reads `0x0100` and leaves the pointer at the lower end. -/
theorem pull_of_sp_ff {s : State} (h : s.sp = 0xFF) : pull s = (memRead s.ram 256, { s with sp := 0x00 }) := by
  rw [pull_eq, h]
  rfl

/-- Settles O34: the general clauses are `push_eq` and `pull_eq` with the pointer arithmetic on naturals; the two ends of the
stack follow from the same two equations. -/
theorem stackWrapsInPageOne : Obligations.StackWrapsInPageOne := by
  unfold Obligations.StackWrapsInPageOne
  intro v s
  refine ⟨?push, ?pull, push_sp_of_sp_zero v, pull_of_sp_ff⟩
  case push => rw [push_eq, sub_one_eq_ofNat_mod]
  case pull => rw [pull_eq, add_one_eq_ofNat_mod]

end Sys2Proof.Proofs.Stack
end

section
/-!
The CPU's memory map (20_memory.md R44, R45, R50, R51, R62 to R67): address masks as remainders, one rule for a bus access of
each range (RAM, PPU window, `prg`), and the obligations about mirrors, `prg` writes and the plain and pointer registers,
settled from those rules.
-/
namespace Sys2Proof.Proofs.MemoryMap

open Sys2Proof Sys2Proof.Machine

/-! ### Masks as remainders -/

/-- Keeping the low `k` bits of an address is its remainder modulo `2 ^ k`. -/
theorem toNat_and_lowMask {w : Nat} (a mask : BitVec w) (k : Nat) (h : mask.toNat = 2 ^ k - 1) :
    (a &&& mask).toNat = a.toNat % 2 ^ k := by
  rw [BitVec.toNat_and, h, Nat.and_two_pow_sub_one_eq_mod]

/-- R44: the RAM cell of an address is its remainder modulo 2 KiB. -/
theorem ramIndex_eq_mod (addr : Word) : ramIndex addr = addr.toNat % 0x800 :=
  toNat_and_lowMask addr 0x07FF 11 rfl

/-- R45: the register number of an address is its remainder modulo 8. -/
theorem and_seven_eq_ofNat_mod (addr : Word) : addr &&& 0x0007 = BitVec.ofNat 16 (addr.toNat % 8) := by
  have h : (addr &&& 0x0007).toNat = addr.toNat % 8 := toNat_and_lowMask addr 0x0007 3 rfl
  rw [← h, BitVec.ofNat_toNat, BitVec.setWidth_eq]

/-- R51: the offset range into `prg` that Mapper 0 folds an address into: 32 KiB with two banks, else 16 KiB. -/
def prgSpan (c : Cartridge) : Nat := if c.prgBanks = 2 then 0x8000 else 0x4000

theorem prgMask_toNat (c : Cartridge) (addr : Word) :
    (addr &&& (if c.prgBanks = 2 then 0x7FFF else 0x3FFF)).toNat = addr.toNat % prgSpan c := by
  by_cases h : c.prgBanks = 2
  · rw [prgSpan, if_pos h, if_pos h]
    exact toNat_and_lowMask addr 0x7FFF 15 rfl
  · rw [prgSpan, if_neg h, if_neg h]
    exact toNat_and_lowMask addr 0x3FFF 14 rfl

/-- R51: Mapper 0 answers from 0x8000 on, with the offset modulo its span. -/
theorem cpuMap_eq (c : Cartridge) (addr : Word) :
    cpuMap c addr = if 0x8000 ≤ addr.toNat then some (addr.toNat % prgSpan c) else none := by
  rw [cpuMap, prgMask_toNat]
  rfl

/-! ### A read after a write of a byte array -/

/-- A canonical array read after a write: the byte written at its own index, the old byte at any other. -/
theorem memRead_memWrite {size : Nat} {m : Memory} (i j : Nat) (v : Byte) (h : Memory.wf size m = true) :
    memRead (memWrite m i v) j = if j = i then v else memRead m j := by
  split
  · next hji => rw [hji, memRead_memWrite_same i v h]
  · next hji => exact memRead_memWrite_other m v hji

/-! ### RAM -/

theorem ram_wf {s : State} (h : s.memoriesWf = true) : Memory.wf 2048 s.ram = true :=
  ((memoriesWf_iff s).1 h).1

/-- R44, `busRead_ram` with the address and its cell as naturals. -/
theorem busRead_ram_mod {addr : Word} (s : State) (h : addr.toNat ≤ 0x1FFF) :
    busRead addr s = (memRead s.ram (addr.toNat % 0x800), s) := by
  rw [busRead_ram s h, ramIndex_eq_mod]

/-- R44, `busWrite_ram` with the address and its cell as naturals. -/
theorem busWrite_ram_mod {addr : Word} (v : Byte) (s : State) (h : addr.toNat ≤ 0x1FFF) :
    busWrite addr v s = { s with ram := memWrite s.ram (addr.toNat % 0x800) v } := by
  rw [busWrite_ram v s h, ramIndex_eq_mod]

theorem readWord_ram (addr : Word) (s : State) : (readWord addr s).2.ram = s.ram := by
  rw [readWord_frame]

/-- RESET stores nothing into RAM (70_reset_and_hazards.md R280). -/
theorem assertReset_ram (s : State) : (assertReset s).ram = s.ram :=
  readWord_ram _ _

/-- Settles O5: both accesses are accesses of the cell modulo 2 KiB, a byte array reads back what was written, and the first
RESET after power-on reads its vector without storing into RAM. -/
theorem ramIsMirrored : Obligations.RamIsMirrored := by
  unfold Obligations.RamIsMirrored
  refine ⟨fun s addr other v hwf haddr hother => ?_, fun p => assertReset_ram (powerOn p)⟩
  refine ⟨busRead_ram_mod s hother, ?_⟩
  rw [busWrite_ram_mod v s haddr, busRead_ram_mod s hother, busRead_ram_mod _ hother, memRead_memWrite _ _ v (ram_wf hwf)]

/-! ### `prg` -/

theorem prg_wf {s : State} {c : Cartridge} (h : s.memoriesWf = true) (hc : s.cart = some c) :
    Memory.wf (c.prgBanks * 16384) c.prg = true := by
  obtain ⟨-, -, hcart⟩ := (memoriesWf_iff s).1 h
  rw [hc] at hcart
  simp only [Option.all_some, Cartridge.wf, Bool.and_eq_true] at hcart
  obtain ⟨⟨-, hprg⟩, -⟩ := hcart
  exact hprg

/-- R49: from 0x8000 on a read with a cartridge gives the `prg` byte at the mapped offset and changes nothing. -/
theorem busRead_prg {s : State} {c : Cartridge} {addr : Word} (hc : s.cart = some c) (h : 0x8000 ≤ addr.toNat) :
    busRead addr s = (memRead c.prg (addr.toNat % prgSpan c), s) := by
  simp [busRead, hc, cartRead, cpuMap_eq, h]

/-- R50: from 0x8000 on a write with a cartridge stores at the mapped offset of `prg` and changes nothing else. -/
theorem busWrite_prg {s : State} {c : Cartridge} {addr : Word} (v : Byte) (hc : s.cart = some c)
    (h : 0x8000 ≤ addr.toNat) :
    busWrite addr v s = { s with cart := some { c with prg := memWrite c.prg (addr.toNat % prgSpan c) v } } := by
  simp [busWrite, hc, cartWrite, cpuMap_eq, h]

/-- R50: what a read gives after a write, both from 0x8000 on: the write leaves the bank count, hence the span, alone. -/
theorem busRead_busWrite_prg {s : State} {c : Cartridge} {addr other : Word} (v : Byte) (hwf : s.memoriesWf = true)
    (hc : s.cart = some c) (haddr : 0x8000 ≤ addr.toNat) (hother : 0x8000 ≤ other.toNat) :
    busRead other (busWrite addr v s) =
      ((if other.toNat % prgSpan c = addr.toNat % prgSpan c then v else (busRead other s).1), busWrite addr v s) := by
  rw [busWrite_prg v hc haddr, busRead_prg hc hother, busRead_prg rfl hother]
  exact congrArg (·, _) (memRead_memWrite _ _ v (prg_wf hwf hc))

/-- Settles O8: the mapper's answer is `cpuMap_eq`, and the bus from 0x8000 on is `prg` at that offset. -/
theorem prgIsWritableAndMirrored : Obligations.PrgIsWritableAndMirrored := by
  unfold Obligations.PrgIsWritableAndMirrored
  intro c addr other v size
  exact ⟨cpuMap_eq c addr, fun s hwf hc haddr hother =>
    ⟨busRead_prg hc hother, busRead_busWrite_prg v hwf hc haddr hother⟩⟩

/-! ### The PPU register window -/

theorem inPpuWindow_iff (addr : Word) : inPpuWindow addr = true ↔ 0x2000 ≤ addr.toNat ∧ addr.toNat ≤ 0x3FFF := by
  simp [inPpuWindow]

/-- R45: a read in the window is the read of the register its address selects, and can change only the PPU. -/
theorem busRead_window {addr : Word} (s : State) {r : Nat} (h : inPpuWindow addr = true) (hr : addr.toNat % 8 = r) :
    busRead addr s = ((ppuRegRead s.cart s.ppu (BitVec.ofNat 16 r)).1,
      { s with ppu := (ppuRegRead s.cart s.ppu (BitVec.ofNat 16 r)).2 }) := by
  obtain ⟨hlo, hhi⟩ := (inPpuWindow_iff addr).1 h
  have hmapper : addr < 0x8000 := by bv_omega
  have hram : ¬ addr ≤ 0x1FFF := by bv_omega
  have hwindow : addr ≤ 0x3FFF := hhi
  simp only [busRead, cartRead_low _ hmapper, if_neg hram, if_pos hwindow, and_seven_eq_ofNat_mod, hr]

/-- R45: a write in the window is the write of the register its address selects, and can change only the PPU. -/
theorem busWrite_window {addr : Word} (v : Byte) (s : State) {r : Nat} (h : inPpuWindow addr = true)
    (hr : addr.toNat % 8 = r) : busWrite addr v s = { s with ppu := ppuRegWrite s.ppu (BitVec.ofNat 16 r) v } := by
  obtain ⟨hlo, hhi⟩ := (inPpuWindow_iff addr).1 h
  have hmapper : addr < 0x8000 := by bv_omega
  have hram : ¬ addr ≤ 0x1FFF := by bv_omega
  have hwindow : addr ≤ 0x3FFF := hhi
  simp only [busWrite, cartWrite_low _ _ hmapper, if_neg hram, if_pos hwindow, and_seven_eq_ofNat_mod, hr]

/-- R45: a write outside the window does not reach the PPU. -/
theorem busWrite_ppu_outside {addr : Word} (v : Byte) (s : State) (h : ¬ inPpuWindow addr = true) :
    (busWrite addr v s).ppu = s.ppu := by
  rw [inPpuWindow_iff] at h
  simp only [busWrite]
  split
  · rfl
  · split
    · rfl
    · split
      · next hram hwindow => exact absurd ⟨by bv_omega, hwindow⟩ h
      · rfl

/-- R45: a read outside the window does not reach the PPU. -/
theorem busRead_ppu_outside {addr : Word} (s : State) (h : ¬ inPpuWindow addr = true) :
    (busRead addr s).2.ppu = s.ppu := by
  rw [busRead_pure addr s fun hw => h ((inPpuWindow_iff addr).2 hw)]

/-- Settles O6: in the window the bus depends on the address through its register number alone; outside, the PPU is not
reached. -/
theorem ppuWindowIsMirrored : Obligations.PpuWindowIsMirrored := by
  unfold Obligations.PpuWindowIsMirrored
  refine ⟨fun s addr v => ⟨fun hin => ?inside, fun hout => ?outside⟩, fun s addr other v haddr hother hsame => ?mirror⟩
  case inside => exact ⟨busRead_window s hin rfl, busWrite_window v s hin rfl⟩
  case outside =>
    have hnot : ¬ inPpuWindow addr = true := by simp [hout]
    exact ⟨busRead_ppu_outside s hnot, busWrite_ppu_outside v s hnot⟩
  case mirror =>
    constructor
    · rw [busRead_window s haddr hsame, busRead_window s hother rfl]
    · rw [busWrite_window v s haddr hsame, busWrite_window v s hother rfl]

/-! ### Registers 0 to 4, written -/

/-- R64, R66 and the read-only status register: the byte is dropped. -/
theorem ppuRegWrite_dropped (p : Ppu) {r : Nat} (v : Byte) (hlo : 2 ≤ r) (hhi : r ≤ 4) :
    ppuRegWrite p (BitVec.ofNat 16 r) v = p := by
  obtain rfl | rfl | rfl : r = 2 ∨ r = 3 ∨ r = 4 := by omega
  all_goals rfl

/-- Settles O10: each clause is the write of that register through the window. -/
theorem plainWindowWrites : Obligations.PlainWindowWrites := by
  unfold Obligations.PlainWindowWrites
  intro s addr v hw
  refine ⟨fun h => busWrite_window v s hw h, fun h => busWrite_window v s hw h, fun hlo hhi => ?_⟩
  rw [busWrite_window v s hw rfl, ppuRegWrite_dropped s.ppu v hlo hhi]

/-! ### Register 6, written -/

theorem wordOf_eq_ofNat (hi lo : Byte) : wordOf hi lo = BitVec.ofNat 16 (hi.toNat * 256 + lo.toNat) := by
  rw [← wordOf_toNat, BitVec.ofNat_toNat, BitVec.setWidth_eq]

theorem hiByte_toNat (w : Word) : (hiByte w).toNat = w.toNat / 256 := by
  have h := w.isLt
  simp only [hiByte, BitVec.extractLsb'_toNat, Nat.shiftRight_eq_div_pow]
  omega

theorem loByte_toNat (w : Word) : (loByte w).toNat = w.toNat % 256 := by
  simp [loByte]

/-- R67's `v & 0x3F`: the top two bits dropped. -/
theorem and_3f_toNat (v : Byte) : (v &&& 0x3F).toNat = v.toNat % 64 :=
  toNat_and_lowMask v 0x3F 6 rfl

/-- R67, first write of a pair. -/
theorem ppuWriteAddr_first {p : Ppu} (v : Byte) (h : p.addressLatch = false) :
    ppuWriteAddr p v = { p with addrReg := wordOf (v &&& 0x3F) (loByte p.addrReg), addressLatch := true } := by
  rw [ppuWriteAddr, if_pos h]

/-- R67, second write of a pair. -/
theorem ppuWriteAddr_second {p : Ppu} (v : Byte) (h : p.addressLatch = true) :
    ppuWriteAddr p v = { p with addrReg := wordOf (hiByte p.addrReg) v, addressLatch := false } := by
  rw [ppuWriteAddr, if_neg (by simp [h])]

/-- R67, a pair from latch 0: the second write keeps the high byte that the first one loaded. -/
theorem ppuWriteAddr_pair {p : Ppu} (v1 v2 : Byte) (h : p.addressLatch = false) :
    ppuWriteAddr (ppuWriteAddr p v1) v2 = { p with addrReg := wordOf (v1 &&& 0x3F) v2, addressLatch := false } := by
  rw [ppuWriteAddr_first v1 h, ppuWriteAddr_second v2 rfl, hiByte_wordOf]

/-- A write of any mirror of register 6 is `ppuWriteAddr`. -/
theorem busWrite_register6 {addr : Word} (v : Byte) (s : State) (h : inPpuWindow addr = true)
    (hr : addr.toNat % 8 = 6) : busWrite addr v s = { s with ppu := ppuWriteAddr s.ppu v } :=
  busWrite_window v s h hr

/-- Settles O13: the two phases and the pair of `ppuWriteAddr`, with the words it assembles written as naturals. -/
theorem addressRegisterWrites : Obligations.AddressRegisterWrites := by
  unfold Obligations.AddressRegisterWrites
  intro s addr addr' v1 v2 hw hr hw' hr'
  rw [busWrite_register6 v1 s hw hr, busWrite_register6 v2 _ hw' hr']
  refine ⟨fun hlatch => ?first, fun hlatch => ?second, fun hlatch => ?pair⟩
  case first => rw [ppuWriteAddr_first v1 hlatch, wordOf_eq_ofNat, and_3f_toNat, loByte_toNat]
  case second => rw [ppuWriteAddr_second v1 hlatch, wordOf_eq_ofNat, hiByte_toNat]
  case pair => rw [ppuWriteAddr_pair v1 v2 hlatch, wordOf_eq_ofNat, and_3f_toNat]

end Sys2Proof.Proofs.MemoryMap
end

section
/-!
The adder of ADC and SBC (42_arithmetic_logic_compare.md R160): a flag of the status byte as a bit, what putting a flag makes
of a status written out by its eight flags, and the obligation about `addWithCarry`, with the document's bitwise formula for V
turned into signed overflow.
-/
namespace Sys2Proof.Proofs.Adder

open Sys2Proof Sys2Proof.Machine

/-! ### Flags as bits (10_state.md R15) -/

/-- Asking a mask of one bit is asking that bit. -/
theorem hasFlag_twoPow (k : Nat) (p : Byte) (hk : k < 8) : hasFlag (BitVec.twoPow 8 k) p = p.getLsbD k := by
  have hne : BitVec.twoPow 8 k ≠ 0#8 := fun h => by
    simpa [hk] using congrArg (BitVec.getLsbD · k) h
  rw [hasFlag, BitVec.and_twoPow]
  cases p.getLsbD k <;> simp [hne]

/-- Putting the flag of one bit gives that bit and keeps the others. -/
theorem getLsbD_putFlag_twoPow {k i : Nat} (f : Bool) (p : Byte) (hi : i < 8) :
    (putFlag (BitVec.twoPow 8 k) f p).getLsbD i = if i = k then f else p.getLsbD i := by
  by_cases hik : i = k
  · subst hik
    cases f <;> simp [putFlag, hi]
  · cases f <;> simp [putFlag, hi, hik]

theorem hasFlag_flagC (p : Byte) : hasFlag flagC p = p.getLsbD 0 := hasFlag_twoPow 0 p (by decide)

theorem hasFlag_flagN (p : Byte) : hasFlag flagN p = p.getLsbD 7 := hasFlag_twoPow 7 p (by decide)

/-- The status byte is the one made of its own eight bits. -/
theorem statusOf_getLsbD (p : Byte) :
    statusOf (n := p.getLsbD 7) (v := p.getLsbD 6) (u := p.getLsbD 5) (b := p.getLsbD 4) (d := p.getLsbD 3)
      (i := p.getLsbD 2) (z := p.getLsbD 1) (c := p.getLsbD 0) = p := by
  refine BitVec.eq_of_getLsbD_eq fun j hj => ?_
  rw [statusOf, BitVec.getLsbD_ofBoolListLE]
  interval_cases j <;> rfl

/-- Putting the flag of bit `k` replaces entry `k` of the eight flags a status is made of. -/
theorem putFlag_twoPow_statusOf (k : Nat) (n v u b d i z c f : Bool) :
    putFlag (BitVec.twoPow 8 k) f (statusOf n v u b d i z c) =
      statusOf (if 7 = k then f else n) (if 6 = k then f else v) (if 5 = k then f else u) (if 4 = k then f else b)
        (if 3 = k then f else d) (if 2 = k then f else i) (if 1 = k then f else z) (if 0 = k then f else c) := by
  refine BitVec.eq_of_getLsbD_eq fun j hj => ?_
  rw [getLsbD_putFlag_twoPow f _ hj, statusOf, statusOf, BitVec.getLsbD_ofBoolListLE, BitVec.getLsbD_ofBoolListLE]
  interval_cases j <;> rfl

section
variable (n v u b d i z c f : Bool)

@[simp] theorem putFlag_flagC_statusOf : putFlag flagC f (statusOf n v u b d i z c) = statusOf n v u b d i z f :=
  putFlag_twoPow_statusOf 0 n v u b d i z c f

@[simp] theorem putFlag_flagZ_statusOf : putFlag flagZ f (statusOf n v u b d i z c) = statusOf n v u b d i f c :=
  putFlag_twoPow_statusOf 1 n v u b d i z c f

@[simp] theorem putFlag_flagV_statusOf : putFlag flagV f (statusOf n v u b d i z c) = statusOf n f u b d i z c :=
  putFlag_twoPow_statusOf 6 n v u b d i z c f

@[simp] theorem putFlag_flagN_statusOf : putFlag flagN f (statusOf n v u b d i z c) = statusOf f v u b d i z c :=
  putFlag_twoPow_statusOf 7 n v u b d i z c f

/-- `SetZN` on a status written out by its flags (40 R130). -/
@[simp] theorem znStatus_statusOf (r : Byte) :
    znStatus r (statusOf n v u b d i z c) = statusOf (r.getLsbD 7) v u b d i (decide (r = 0)) c := by
  rw [znStatus, putFlag_flagZ_statusOf, putFlag_flagN_statusOf, ← hasFlag_flagN]
  rfl

end

/-- C given and Z and N taken from a byte, the way adder, compare and shifts leave the status. -/
theorem znStatus_putFlag_flagC (r : Byte) (f : Bool) (p : Byte) :
    znStatus r (putFlag flagC f p) = statusCZN f r p := by
  conv_lhs => rw [← statusOf_getLsbD p, putFlag_flagC_statusOf, znStatus_statusOf]
  rfl

/-! ### The adder -/

theorem carryNat_eq (p : Byte) : carryNat p = if p.getLsbD 0 then 1 else 0 := by
  rw [carryNat, hasFlag_flagC]

theorem adcResult_toNat (a m p : Byte) : (adcResult a m p).toNat = adcSum a m p % 256 :=
  BitVec.toNat_ofNat _ _

theorem adcResult_bit7 (a m p : Byte) : (adcResult a m p).getLsbD 7 = (adcSum a m p).testBit 7 := by
  rw [adcResult, BitVec.getLsbD_ofNat]
  rfl

theorem adcResult_eq_zero_iff (a m p : Byte) : adcResult a m p = 0 ↔ adcSum a m p % 256 = 0 := by
  rw [← BitVec.toNat_inj, adcResult_toNat]
  rfl

/-- R160's formula for V: the operands have the same bit 7, and the result's differs from it. -/
theorem adcOverflow_iff (a m p : Byte) :
    adcOverflow a m p = true ↔ a.msb = m.msb ∧ a.msb ≠ (adcResult a m p).msb := by
  have hbit : adcOverflow a m p = (~~~(a ^^^ m) &&& (a ^^^ adcResult a m p)).msb :=
    hasFlag_flagN _
  rw [hbit]
  simp

/-- V is signed overflow: with the operands of one sign, the two's complement sum leaves -128..127 exactly when the result has
the other sign; with operands of two signs it cannot leave it. -/
theorem adcOverflow_eq_signedOverflow (a m p : Byte) :
    adcOverflow a m p =
      decide (a.toInt + m.toInt + (carryNat p : Int) < -128 ∨ 127 < a.toInt + m.toInt + (carryNat p : Int)) := by
  have hc : carryNat p ≤ 1 := by rw [carryNat]; split <;> omega
  have hr := adcResult_toNat a m p
  have ha := a.isLt
  have hm := m.isLt
  rw [Bool.eq_iff_iff, adcOverflow_iff, decide_eq_true_iff, BitVec.toInt_eq_toNat_cond, BitVec.toInt_eq_toNat_cond]
  simp only [BitVec.msb_eq_decide, hr, adcSum, decide_eq_decide, ne_eq]
  omega

/-- R160's status: the four flags of the adder, and the old bits of the other four. -/
theorem adcStatus_eq (a m p : Byte) :
    adcStatus a m p = statusOf (n := (adcSum a m p).testBit 7) (v := adcOverflow a m p) (u := p.getLsbD 5)
      (b := p.getLsbD 4) (d := p.getLsbD 3) (i := p.getLsbD 2) (z := decide (adcSum a m p % 256 = 0))
      (c := decide (255 < adcSum a m p)) := by
  rw [adcStatus, znStatus_putFlag_flagC, statusCZN, putFlag_flagV_statusOf, adcResult_bit7,
    decide_eq_decide.2 (adcResult_eq_zero_iff a m p)]

/-- Settles O21: the accumulator is the sum by definition; the status is `adcStatus_eq` with V by
`adcOverflow_eq_signedOverflow` and the carry bit by `carryNat_eq`. -/
theorem adderComputesSumAndFlags : Obligations.AdderComputesSumAndFlags := by
  unfold Obligations.AdderComputesSumAndFlags
  intro value s c sum signed
  have hc : carryNat s.status = c := carryNat_eq s.status
  have hsum : adcSum s.a value s.status = sum := by rw [adcSum, hc]
  rw [addWithCarry, adcResult, adcStatus_eq, adcOverflow_eq_signedOverflow, hsum, hc]

end Sys2Proof.Proofs.Adder
end

section
/-!
Subroutine call and return (44_branch_jump_subroutine.md R211, R212): a pushed and a pulled word with their bytes written as
naturals, and the obligations about JSR and RTS, settled from `pushWord` and `pullWord`.
-/
namespace Sys2Proof.Proofs.Subroutine

open Sys2Proof Sys2Proof.Machine Sys2Proof.Proofs.MemoryMap

/-! ### Words on the stack -/

theorem hiByte_eq_ofNat (w : Word) : hiByte w = BitVec.ofNat 8 (w.toNat / 256) := by
  rw [← hiByte_toNat, BitVec.ofNat_toNat, BitVec.setWidth_eq]

theorem loByte_eq_ofNat (w : Word) : loByte w = BitVec.ofNat 8 w.toNat := by
  apply BitVec.eq_of_toNat_eq
  rw [loByte_toNat, BitVec.toNat_ofNat]

theorem sub_one_sub_one (sp : Byte) : sp - 1 - 1 = sp - 2 := by
  bv_omega

theorem add_one_add_one (sp : Byte) : sp + 1 + 1 = sp + 2 := by
  bv_omega

/-- R211: a pushed word is its high byte stacked and then its low byte below it. -/
theorem pushWord_eq_stacked (w : Word) (s : State) :
    pushWord w s = { s with
      ram := stacked (stacked s.ram s.sp (BitVec.ofNat 8 (w.toNat / 256))) (s.sp - 1) (BitVec.ofNat 8 w.toNat)
      sp := s.sp - 2 } := by
  rw [pushWord_eq, hiByte_eq_ofNat, loByte_eq_ofNat, sub_one_sub_one, stacked, stacked]

/-- R212: a pulled word has its low byte from the first pull and its high byte from the second. -/
theorem pullWord_eq_pulled (s : State) :
    pullWord s = (BitVec.ofNat 16 ((pulled s 2).toNat * 256 + (pulled s 1).toNat), { s with sp := s.sp + 2 }) := by
  rw [pullWord_eq, wordOf_eq_ofNat, add_one_add_one, pulled, pulled]

/-! ### JSR -/

/-- The return address JSR saves: one less modulo 65536 is 65535 more modulo 65536. -/
theorem pc_sub_one_toNat (pc : Word) : (pc - 1).toNat = (pc.toNat + 65535) % 65536 := by
  bv_omega

/-- 30_encoding.md R92: the operand of JSR is little-endian. -/
theorem encode_jsr (w : Word) :
    encode (.jsr w) = some [0x20, BitVec.ofNat 8 w.toNat, BitVec.ofNat 8 (w.toNat / 256)] := by
  rw [← loByte_eq_ofNat, ← hiByte_eq_ofNat]
  rfl

theorem exec_jsr (w : Word) (s : State) : exec (.jsr w) s = execJsr w s := rfl

/-- Settles O32: JSR pushes the word `pc - 1`, which is `pushWord_eq_stacked`, and then sets the pc. -/
theorem jsrPushesAndJumps : Obligations.JsrPushesAndJumps := by
  unfold Obligations.JsrPushesAndJumps
  intro w s ret
  refine ⟨⟨encode_jsr w, rfl⟩, ?_⟩
  have hret : (s.pc - 1).toNat = ret := pc_sub_one_toNat s.pc
  rw [exec_jsr, execJsr, pushWord_eq_stacked, hret]

/-! ### RTS -/

theorem exec_rts (s : State) : exec .rts s = execRts s := rfl

/-- Settles O33: RTS pulls a word, which is `pullWord_eq_pulled`, and the pc is that word and one more; mode IMP before it touches
neither the stack pointer nor RAM. -/
theorem rtsPullsAndReturns : Obligations.RtsPullsAndReturns := by
  unfold Obligations.RtsPullsAndReturns
  refine ⟨⟨rfl, rfl⟩, fun s => ?_⟩
  rw [exec_rts, execRts, pullWord_eq_pulled, BitVec.ofNat_add _ 1]
  rfl

end Sys2Proof.Proofs.Subroutine
end

section
/-!
The return from an interrupt (45_stack_flag_system.md R234): the mask that clears B and U as the eight flags it leaves, the return
with the bytes it takes named by `pulled`, and the obligation about RTI.
-/
namespace Sys2Proof.Proofs.InterruptReturn

open Sys2Proof Sys2Proof.Machine Sys2Proof.Proofs.MemoryMap Sys2Proof.Proofs.Subroutine

/-- The mask `0xCF` clears bits 4 and 5, B and U, and keeps the other six. -/
theorem flagsOnly_eq_statusOf (p : Byte) :
    flagsOnly p = statusOf (n := p.getLsbD 7) (v := p.getLsbD 6) (u := false) (b := false) (d := p.getLsbD 3)
      (i := p.getLsbD 2) (z := p.getLsbD 1) (c := p.getLsbD 0) := by
  refine BitVec.eq_of_getLsbD_eq fun j hj => ?_
  rw [flagsOnly, BitVec.getLsbD_and, statusOf, BitVec.getLsbD_ofBoolListLE]
  interval_cases j <;> simp

/-- R234: of the three bytes pulled the first is the status, the second the low and the third the high byte of the pc. -/
theorem returnFromInterrupt_eq_pulled (s : State) :
    returnFromInterrupt s = { s with
      status := flagsOnly (pulled s 1)
      pc := BitVec.ofNat 16 ((pulled s 3).toNat * 256 + (pulled s 2).toNat)
      sp := s.sp + 3 } := by
  have htwo : s.sp + 1 + 1 = s.sp + 2 := add_one_add_one s.sp
  have hthree : s.sp + 2 + 1 = s.sp + 3 := by bv_omega
  rw [returnFromInterrupt_eq, wordOf_eq_ofNat, htwo, hthree, flagsOnly, pulled, pulled, pulled]

theorem exec_rti (s : State) : exec .rti s = execRti s := rfl

/-- Settles O37: RTI is the return `returnFromInterrupt_eq_pulled`, its status written out by `flagsOnly_eq_statusOf`; mode IMP
before it touches neither the stack pointer nor RAM. -/
theorem rtiRestoresStatusAndPc : Obligations.RtiRestoresStatusAndPc := by
  unfold Obligations.RtiRestoresStatusAndPc
  refine ⟨⟨rfl, rfl⟩, fun s => ?_⟩
  rw [exec_rti, execRti, returnFromInterrupt_eq_pulled, flagsOnly_eq_statusOf]
  rfl

end Sys2Proof.Proofs.InterruptReturn
end

section
/-!
The dot clock and the frame (60_exceptions.md R262): the state when the PPU stands so many dots after a frame's start, one dot clock
as one dot more, and the obligation about any number of them.
-/
namespace Sys2Proof.Proofs.DotClock

open Sys2Proof Sys2Proof.Machine

/-- At the end of a scanline, not the frame's last, a dot clock goes to the start of the next. -/
theorem ppuDotClock_scanline_end (s : State) (hdot : s.dot = 340) (hline : s.scanline < 260) :
    ppuDotClock s = { s with dot := 0, scanline := s.scanline + 1 } := by
  have hnext : s.scanline + 1 ≠ 261 := by omega
  simp [ppuDotClock, Config.dotsPerScanline, Config.scanlinesPerFrame, hdot, hnext]

/-- At the end of the frame's last scanline a dot clock goes to the start of a frame and sets `frame_complete`. -/
theorem ppuDotClock_frame_end (s : State) (hdot : s.dot = 340) (hline : s.scanline = 260) :
    ppuDotClock s = { s with dot := 0, scanline := 0, frameComplete := true } := by
  simp [ppuDotClock, Config.dotsPerScanline, Config.scanlinesPerFrame, hdot, hline]

/-- The state `s` with its PPU counters `k` dots after the start of a frame; `frame_complete` is also set if `k` reaches the end of
that frame. -/
def dotsIntoFrame (s : State) (k : Nat) : State :=
  { s with
    dot := k % 341, scanline := k / 341 % 261
    frameComplete := s.frameComplete || decide (89001 ≤ k) }

/-- Counters in range are those of the place in the frame. -/
theorem dotsIntoFrame_framePosition (s : State) (hdot : s.dot ≤ 340) (hline : s.scanline ≤ 260) :
    dotsIntoFrame s (framePosition s) = s := by
  have hd : framePosition s % 341 = s.dot := by rw [framePosition]; omega
  have hl : framePosition s / 341 % 261 = s.scanline := by rw [framePosition]; omega
  have hc : ¬ 89001 ≤ framePosition s := by rw [framePosition]; omega
  simp [dotsIntoFrame, hd, hl, hc]

/-- One dot clock is one dot more: within a scanline, at the end of one, and at the end of the frame. -/
theorem ppuDotClock_dotsIntoFrame (s : State) (k : Nat) :
    ppuDotClock (dotsIntoFrame s k) = dotsIntoFrame s (k + 1) := by
  have hline : k / 341 % 261 < 261 := Nat.mod_lt _ (by decide)
  by_cases hdot : k % 341 + 1 < 341
  · have hd : (k + 1) % 341 = k % 341 + 1 := by omega
    have hl : (k + 1) / 341 = k / 341 := by omega
    have hc : 89001 ≤ k + 1 ↔ 89001 ≤ k := by omega
    rw [ppuDotClock_within _ hdot hline]
    simp [dotsIntoFrame, hd, hl, hc]
  have hlast : k % 341 = 340 := by omega
  have hd : (k + 1) % 341 = 0 := by omega
  by_cases hnext : k / 341 % 261 < 260
  · have hl : (k + 1) / 341 % 261 = k / 341 % 261 + 1 := by omega
    have hc : 89001 ≤ k + 1 ↔ 89001 ≤ k := by omega
    rw [ppuDotClock_scanline_end _ hlast hnext]
    simp [dotsIntoFrame, hd, hl, hc]
  · have hl : (k + 1) / 341 % 261 = 0 := by omega
    have hc : 89001 ≤ k + 1 := by omega
    rw [ppuDotClock_frame_end _ hlast (by simp only [dotsIntoFrame]; omega)]
    simp [dotsIntoFrame, hd, hl, hc]

/-- From counters in range, `n` dot clocks are `n` dots more. -/
theorem ppuDotClock_iterate (n : Nat) (s : State) (hdot : s.dot ≤ 340) (hline : s.scanline ≤ 260) :
    ppuDotClock^[n] s = dotsIntoFrame s (framePosition s + n) := by
  have hsemi : Function.Semiconj (dotsIntoFrame s) Nat.succ ppuDotClock :=
    fun k => (ppuDotClock_dotsIntoFrame s k).symm
  calc ppuDotClock^[n] s
      = ppuDotClock^[n] (dotsIntoFrame s (framePosition s)) := by rw [dotsIntoFrame_framePosition s hdot hline]
    _ = dotsIntoFrame s (Nat.succ^[n] (framePosition s)) := (hsemi.iterate_right n _).symm
    _ = dotsIntoFrame s (framePosition s + n) := by rw [Nat.succ_iterate]

/-- Settles O57: `n` dot clocks are `n` dots more by `ppuDotClock_iterate`, and the two counters are the digits of the place modulo
341 × 261; from power-on, 89001 dots more are the start of the frame again. -/
theorem dotClockWalksTheFrame : Obligations.DotClockWalksTheFrame := by
  unfold Obligations.DotClockWalksTheFrame
  refine ⟨fun n s hdot hline => ?_, fun p => ?_⟩
  · refine ⟨_, _, ppuDotClock_iterate n s hdot hline, ?_, ?_, ?_⟩ <;> omega
  · have hstart : framePosition (powerOn p) = 0 := by simp [framePosition, powerOn]
    rw [ppuDotClock_iterate 89001 (powerOn p) (Nat.zero_le _) (Nat.zero_le _), hstart]
    simp [dotsIntoFrame, powerOn]

end Sys2Proof.Proofs.DotClock
end

section
/-!
CPU reset (70_reset_and_hazards.md R280): a read of a vector as `vectorWord`, and the obligation about reset.
-/
namespace Sys2Proof.Proofs.Reset

open Sys2Proof Sys2Proof.Machine Sys2Proof.Proofs.MemoryMap

/-- Above the PPU window a read gives the byte that is there to be inspected (20_memory.md R77). -/
theorem busRead_eq_busPeek {addr : Word} (s : State) (h : 0x4000 ≤ addr) :
    busRead addr s = ((busPeek addr s).getD 0, s) := by
  have hram : ¬ addr ≤ 0x1FFF := by bv_omega
  have hwindow : ¬ addr ≤ 0x3FFF := by bv_omega
  simp only [busRead, busPeek, if_neg hram, if_neg hwindow]
  cases s.cart.bind fun c => cartRead c addr <;> rfl

/-- 60_exceptions.md R255: a vector is read as the word of the two bytes there, and reading it changes nothing. -/
theorem readWord_eq_vectorWord {vector : Word} (s : State) (h : 0x4000 ≤ vector) (hlast : vector ≠ 0xFFFF) :
    readWord vector s = (vectorWord vector s, s) := by
  have hnext : 0x4000 ≤ vector + 1 := by bv_omega
  rw [readWord, busRead_eq_busPeek s h, busRead_eq_busPeek s hnext, wordOf_eq_ofNat, vectorWord]

/-- Settles O47: the vector's two bytes lie above the PPU window, so reading them changes nothing by `readWord_eq_vectorWord`, and
neither the bytes nor the mapper depend on the registers set before. -/
theorem cpuResetSetsTheRegisters : Obligations.CpuResetSetsTheRegisters := by
  unfold Obligations.CpuResetSetsTheRegisters
  intro s
  rw [cpuReset, readWord_eq_vectorWord _ (by decide) (by decide)]
  rfl

end Sys2Proof.Proofs.Reset
end

section
/-!
Encoding and decoding (30_encoding.md R90 to R93, R95, R99): the opcode map read in both directions, the decoder as one equation and
its converse, and the obligations about the round trips, the opcode bytes and the words of the grid.
-/
namespace Sys2Proof.Proofs.Encoding

open Sys2Proof Sys2Proof.Machine

/-! ### Operand bytes -/

/-- The form of the same mode with given operand bytes (R91, R92). -/
def withBytes (lo hi : Byte) : Operand → Operand
  | .acc => .acc
  | .imm _ => .imm lo
  | .zp0 _ => .zp0 lo
  | .zpx _ => .zpx lo
  | .zpy _ => .zpy lo
  | .abs _ => .abs (wordOf hi lo)
  | .abx _ => .abx (wordOf hi lo)
  | .aby _ => .aby (wordOf hi lo)
  | .ind _ => .ind (wordOf hi lo)
  | .izx _ => .izx lo
  | .izy _ => .izy lo

/-- A form is made of its own operand bytes. -/
theorem withBytes_bytes (m : Operand) : withBytes (m.bytes.getD 0 0) (m.bytes.getD 1 0) m = m := by
  cases m with
  | abs w | abx w | aby w | ind w => exact congrArg _ (wordOf_hiByte_loByte w)
  | acc | imm _ | zp0 _ | zpx _ | zpy _ | izx _ | izy _ => rfl

/-- R91: an instruction has as many operand bytes as its mode calls for. -/
theorem operandList_length (i : Instr) : i.operandList.length = i.mode.operandBytes := by
  cases i with
  | adc m | and m | asl m | bit m | cmp m | cpx m | cpy m | dec m | eor m | inc m | jmp m | lda m
  | ldx m | ldy m | lsr m | ora m | rol m | ror m | sbc m | sta m | stx m | sty m =>
    exact Laws.EncodedLength.operand_bytes_length m
  | _ => rfl

theorem operandCount_le (op : Byte) : operandCount op ≤ 2 := by
  rw [operandCount]
  cases (decodeOp op 0 0).mode <;> decide

/-! ### The opcode map (R95, R96, R99) -/

/-- The opcode map reads the opcode and the operand bytes of an instruction as that instruction. -/
def DecodesItsCode (i : Instr) : Prop :=
  ∃ op, opcodeOf i = some op ∧ operandCount op = i.operandList.length ∧
    decodeOp op (i.operandList.getD 0 0) (i.operandList.getD 1 0) = i

/-- For a mnemonic with operand forms it is enough that the opcode of a form gives that form of any operand bytes. -/
theorem decodesItsCode_of_form (mnemonic : Operand → Instr) (m : Operand) (hbytes : (mnemonic m).operandList = m.bytes)
    (hform : ∃ op, opcodeOf (mnemonic m) = some op ∧ operandCount op = m.bytes.length ∧
      ∀ lo hi, decodeOp op lo hi = mnemonic (withBytes lo hi m)) : DecodesItsCode (mnemonic m) := by
  obtain ⟨op, hop, hcount, hdecode⟩ := hform
  refine ⟨op, hop, by rw [hcount, hbytes], ?_⟩
  rw [hdecode, hbytes, withBytes_bytes]

/-- R99: none of the 105 bytes is an official opcode. -/
theorem decodeOp_of_mem_unofficial : ∀ op ∈ unofficialOpcodes, decodeOp op 0 0 = .nopUnofficial op :=
  List.map_inj_left.1 rfl

/-- R95, R99: every instruction of the table is what its own code stands for. -/
theorem decodesItsCode {i : Instr} (hwf : i.WellFormed = true) : DecodesItsCode i := by
  cases i with
  | adc m | and m | asl m | bit m | cmp m | cpx m | cpy m | dec m | eor m | inc m | jmp m | lda m
  | ldx m | ldy m | lsr m | ora m | rol m | ror m | sbc m | sta m | stx m | sty m =>
    refine decodesItsCode_of_form _ m rfl ?_
    cases m
    any_goals exact Bool.noConfusion hwf
    all_goals exact ⟨_, rfl, rfl, fun _ _ => rfl⟩
  | jsr w => exact ⟨_, rfl, rfl, congrArg _ (wordOf_hiByte_loByte w)⟩
  | nopUnofficial op =>
    have hop := decodeOp_of_mem_unofficial op (List.contains_iff_mem.1 hwf)
    exact ⟨op, if_pos hwf, by rw [operandCount, hop]; rfl, hop⟩
  | _ => exact ⟨_, rfl, rfl, rfl⟩

/-- R90: every opcode byte stands for an instruction of the table. -/
theorem decodeOp_zero_wellFormed : ∀ op : Byte, (decodeOp op 0 0).WellFormed = true := by decide +kernel

/-- What the opcode map makes of an opcode byte is an instruction of the table whose code those bytes are; the operand bytes given
as the halves of a word, which is the operand of the three-byte instructions. -/
theorem decodeOp_halves (op : Byte) (w : Word) :
    (decodeOp op (loByte w) (hiByte w)).WellFormed = true ∧ opcodeOf (decodeOp op (loByte w) (hiByte w)) = some op ∧
      (decodeOp op (loByte w) (hiByte w)).operandList = [loByte w, hiByte w].take (operandCount op) := by
  have hzero := decodeOp_zero_wellFormed op
  revert hzero
  unfold operandCount decodeOp
  rw [wordOf_hiByte_loByte]
  split
  case h_152 => exact fun hlisted => ⟨hlisted, if_pos hlisted, rfl⟩
  all_goals next hop => exact fun _ => ⟨rfl, congrArg some (BitVec.eq_of_toNat_eq hop.symm), rfl⟩

theorem decodeOp_spec (op lo hi : Byte) :
    (decodeOp op lo hi).WellFormed = true ∧ opcodeOf (decodeOp op lo hi) = some op ∧
      (decodeOp op lo hi).operandList = [lo, hi].take (operandCount op) := by
  simpa using decodeOp_halves op (wordOf hi lo)

/-! ### The decoder (R90 to R93) -/

/-- An opcode byte and as many operand bytes as it calls for decode, whatever follows. -/
theorem decode_append {op : Byte} {operands : List Byte} (rest : List Byte) (h : operands.length = operandCount op) :
    decode (op :: (operands ++ rest)) = .ok (decodeOp op (operands.getD 0 0) (operands.getD 1 0), rest) := by
  match operands, h with
  | [], h | [_], h | [_, _], h => simp [decode, ← h]
  | _ :: _ :: _ :: _, h =>
    have hle := operandCount_le op
    simp only [List.length_cons] at h
    omega

/-- Bytes that decode begin with an opcode byte and the operand bytes it calls for. -/
theorem exists_of_decode {bytes rest : List Byte} {i : Instr} (h : decode bytes = .ok (i, rest)) :
    ∃ op operands, bytes = op :: (operands ++ rest) ∧ operands.length = operandCount op ∧
      i = decodeOp op (operands.getD 0 0) (operands.getD 1 0) := by
  cases bytes with
  | nil => simp [decode] at h
  | cons op bytes =>
    simp only [decode] at h
    split at h
    · next hcount =>
      obtain ⟨rfl, rfl⟩ : decodeOp op 0 0 = i ∧ _ = rest := by simpa using h
      exact ⟨op, [], rfl, hcount.symm, rfl⟩
    · next lo tail hcount =>
      obtain ⟨rfl, rfl⟩ : decodeOp op lo 0 = i ∧ tail = rest := by simpa using h
      exact ⟨op, [lo], rfl, hcount.symm, rfl⟩
    · next lo hi tail hcount =>
      obtain ⟨rfl, rfl⟩ : decodeOp op lo hi = i ∧ tail = rest := by simpa using h
      exact ⟨op, [lo, hi], rfl, hcount.symm, rfl⟩
    · simp at h

/-- Operand bytes of the right number are what is left of them after padding to two. -/
theorem take_getD_of_length {operands : List Byte} {n : Nat} (h : operands.length = n) (hn : n ≤ 2) :
    [operands.getD 0 0, operands.getD 1 0].take n = operands := by
  subst h
  match operands, hn with
  | [], _ | [_], _ | [_, _], _ => rfl

/-- Settles O2: a well-formed instruction decodes from its own opcode and operand bytes by `decodesItsCode`, and the decoder takes
exactly those by `decode_append`. -/
theorem decodeOfEncode : Obligations.DecodeOfEncode := by
  unfold Obligations.DecodeOfEncode
  intro i rest hwf
  obtain ⟨op, hop, hcount, hdecode⟩ := decodesItsCode hwf
  refine ⟨op :: i.operandList, by rw [encode, hop]; rfl, ?_⟩
  rw [List.cons_append, decode_append rest hcount.symm, hdecode]

/-- Settles O3: bytes that decode are an opcode with its operand bytes by `exists_of_decode`, and those are the code of what they
decode to by `decodeOp_spec`. -/
theorem encodeOfDecode : Obligations.EncodeOfDecode := by
  unfold Obligations.EncodeOfDecode
  intro bytes rest i h
  obtain ⟨op, operands, rfl, hlen, rfl⟩ := exists_of_decode h
  obtain ⟨hwf, hop, hlist⟩ := decodeOp_spec op (operands.getD 0 0) (operands.getD 1 0)
  rw [take_getD_of_length hlen (operandCount_le op)] at hlist
  exact ⟨hwf, op :: operands, by rw [encode, hop, hlist]; rfl, rfl⟩

/-! ### Every opcode byte (R93, R99) -/

/-- R93: the length of a decoded instruction depends on its opcode byte alone. -/
theorem decodeOp_length (op lo hi : Byte) : (decodeOp op lo hi).length = 1 + operandCount op := by
  obtain ⟨-, -, hlist⟩ := decodeOp_spec op lo hi
  have hle := operandCount_le op
  rw [Instr.length, ← operandList_length, hlist, List.length_take]
  simp only [List.length_cons, List.length_nil]
  omega

theorem operandCount_of_mem_unofficial {op : Byte} (h : op ∈ unofficialOpcodes) : operandCount op = 0 := by
  rw [operandCount, decodeOp_of_mem_unofficial op h]
  rfl

/-- R99: of its own operand bytes, an opcode byte makes the unofficial no-operation exactly if it is one of the 105. -/
theorem decodeOp_eq_nopUnofficial_iff (op lo hi : Byte) :
    let operands := [lo, hi].take (operandCount op)
    decodeOp op (operands.getD 0 0) (operands.getD 1 0) = .nopUnofficial op ↔ op ∈ unofficialOpcodes := by
  intro operands
  constructor
  · intro h
    obtain ⟨hwf, -, -⟩ := decodeOp_spec op (operands.getD 0 0) (operands.getD 1 0)
    rw [h] at hwf
    exact List.contains_iff_mem.1 hwf
  · intro h
    have hnone : operands = [] := by simp [operands, operandCount_of_mem_unofficial h]
    rw [hnone]
    exact decodeOp_of_mem_unofficial op h

/-- Settles O4: the three bytes are the opcode, the operand bytes it calls for and the bytes left over, so `decode_append` decodes
them; which opcodes are unofficial is `decodeOp_eq_nopUnofficial_iff`. -/
theorem everyOpcodeDecodes : Obligations.EveryOpcodeDecodes := by
  unfold Obligations.EveryOpcodeDecodes
  refine ⟨fun op lo hi => ?_, by decide, by decide⟩
  have hle := operandCount_le op
  have hcount : ([lo, hi].take (operandCount op)).length = operandCount op := by
    rw [List.length_take]
    exact Nat.min_eq_left hle
  have hdecode := decode_append ([lo, hi].drop (operandCount op)) hcount
  have hlen := decodeOp_length op (([lo, hi].take (operandCount op)).getD 0 0) (([lo, hi].take (operandCount op)).getD 1 0)
  have hnop := decodeOp_eq_nopUnofficial_iff op lo hi
  rw [List.take_append_drop] at hdecode
  refine ⟨_, ?_, hlen, by omega, by omega, hnop, fun hmem => ?_⟩
  · rw [hdecode, Nat.add_comm, List.drop_succ_cons]
  · rw [hnop.2 hmem]
    exact ⟨rfl, rfl⟩

/-- Settles O1: each of the fifteen words is decoded by evaluating the decoder on it. -/
theorem specWordsDecode : Obligations.SpecWordsDecode := by
  unfold Obligations.SpecWordsDecode
  exact ⟨rfl, rfl, rfl, rfl, rfl, rfl, rfl, rfl, rfl, rfl, rfl, rfl, rfl, rfl, rfl⟩

end Sys2Proof.Proofs.Encoding
end

section
/-!
Addressing modes and the operand read (40_fetch_execute_and_addressing.md R112 to R128): the effective addresses written as naturals,
and one equation each for the mode, the operand read, the store and the write back, in the terms of Safety.lean. Every form but IND has
them; IND belongs to JMP alone.
-/
namespace Sys2Proof.Proofs.Operands

open Sys2Proof Sys2Proof.Machine Sys2Proof.Proofs.MemoryMap

/-! ### Addresses as naturals -/

theorem zext16_toNat (b : Byte) : (zext16 b).toNat = b.toNat := by
  rw [zext16, wordOf_toNat]
  simp

theorem zext16_eq_ofNat (b : Byte) : zext16 b = BitVec.ofNat 16 b.toNat := by
  rw [← zext16_toNat, BitVec.ofNat_toNat, BitVec.setWidth_eq]

/-- R118, R119: an indexed zero-page address stays in page zero. -/
theorem zext16_add_eq_ofNat (b i : Byte) : zext16 (b + i) = BitVec.ofNat 16 ((b.toNat + i.toNat) % 256) := by
  rw [zext16_eq_ofNat, BitVec.toNat_add]

/-- R121, R122: an index is added to an address modulo 65536. -/
theorem add_zext16_eq_ofNat (w : Word) (i : Byte) : w + zext16 i = BitVec.ofNat 16 (w.toNat + i.toNat) := by
  apply BitVec.eq_of_toNat_eq
  rw [BitVec.toNat_add, zext16_toNat, BitVec.toNat_ofNat]

theorem add_eq_ofNat (b i : Byte) : b + i = BitVec.ofNat 8 (b.toNat + i.toNat) := by
  apply BitVec.eq_of_toNat_eq
  rw [BitVec.toNat_add, BitVec.toNat_ofNat]

/-- R125, R126: a pointer of page zero, which reading does not change. -/
theorem readZeroPageWord_eq_zeroPageWord (t : Byte) (s : State) : readZeroPageWord t s = (zeroPageWord s t, s) := by
  rw [readZeroPageWord_eq, wordOf_eq_ofNat, zeroPageWord]

/-- R113: the high byte changes exactly if the page does. -/
theorem pageCrossed_eq (base addr : Word) : pageCrossed base addr = decide (pageOf base ≠ pageOf addr) := by
  have h : hiByte base = hiByte addr ↔ pageOf base = pageOf addr := by
    rw [← BitVec.toNat_inj, hiByte_toNat, hiByte_toNat, pageOf, pageOf]
  rw [pageCrossed, Bool.eq_iff_iff]
  simp [h]

/-! ### The mode -/

/-- A form of a row that has no IND column is not IND (30_encoding.md R95). -/
theorem mode_ne_ind {modes : List Mode} {m : Operand} (h : modes.contains m.mode = true) (hind : Mode.ind ∉ modes) :
    m.mode ≠ .ind := by
  rintro hm
  rw [hm, List.contains_iff_mem] at h
  exact hind h

/-- A form of a row that has no ACC column is not ACC (30_encoding.md R95). -/
theorem ne_acc {modes : List Mode} {m : Operand} (h : modes.contains m.mode = true) (hacc : Mode.acc ∉ modes) :
    m ≠ .acc := by
  rintro rfl
  exact hacc (List.contains_iff_mem.1 h)

/-- R127: a form with an address of its own leaves it in the scratch and says whether indexing has crossed a page. -/
theorem addrMode_eq {m : Operand} (s : State) (hacc : m ≠ .acc) (hind : m.mode ≠ .ind) :
    addrMode m s = (crossesPage m s, { s with addrAbs := operandAddr m s }) := by
  cases m with
  | acc => exact absurd rfl hacc
  | ind w => exact absurd rfl hind
  | imm v | abs w => rfl
  | zp0 b => rw [addrMode, zext16_eq_ofNat]; rfl
  | zpx b | zpy b => rw [addrMode, zext16_add_eq_ofNat]; rfl
  | abx w | aby w => rw [addrMode, pageCrossed_eq, add_zext16_eq_ofNat]; rfl
  | izx b => rw [addrMode, readZeroPageWord_eq_zeroPageWord, add_eq_ofNat]; rfl
  | izy b => rw [addrMode, readZeroPageWord_eq_zeroPageWord, pageCrossed_eq, add_zext16_eq_ofNat]; rfl

/-! ### Bus accesses of states with the same memories -/

/-- A bus read depends on RAM, cartridge and PPU alone, and puts back a PPU that they determine (20_memory.md R41). -/
theorem busRead_congr (addr : Word) {s t : State} (hram : t.ram = s.ram) (hcart : t.cart = s.cart) (hppu : t.ppu = s.ppu) :
    busRead addr t = ((busRead addr s).1, { t with ppu := (busRead addr s).2.ppu }) := by
  cases t
  simp only at hram hcart hppu
  subst hram hcart hppu
  simp only [busRead]
  repeat' split
  all_goals rfl

/-- A bus write depends on RAM, cartridge and PPU alone, and puts back memories that they determine (20_memory.md R42). -/
theorem busWrite_congr (addr : Word) (v : Byte) {s t : State} (hram : t.ram = s.ram) (hcart : t.cart = s.cart)
    (hppu : t.ppu = s.ppu) :
    busWrite addr v t = { t with
      ram := (busWrite addr v s).ram, cart := (busWrite addr v s).cart, ppu := (busWrite addr v s).ppu } := by
  cases t
  simp only at hram hcart hppu
  subst hram hcart hppu
  simp only [busWrite]
  repeat' split
  all_goals rfl

/-! ### The operand read -/

/-- R112, R113: the operand read gives the operand byte and leaves the state after it. -/
theorem readOperand_eq (sensitive : Bool) {m : Operand} (s : State) (hind : m.mode ≠ .ind) :
    readOperand sensitive m s = (operandByte m s, afterRead sensitive m s) := by
  by_cases hacc : m = .acc
  · subst hacc
    rfl
  rw [readOperand, addrMode_eq s hacc hind]
  cases m with
  | acc => exact absurd rfl hacc
  | ind w => exact absurd rfl hind
  | imm v => rfl
  | zp0 _ | zpx _ | zpy _ | abs _ | abx _ | aby _ | izx _ | izy _ =>
    simp only [fetchOperand]
    rw [busRead_congr (s := s) (t := { s with addrAbs := operandAddr _ s }) _ rfl rfl rfl]
    cases hcross : crossesPage _ s && sensitive
    all_goals
      rw [Bool.and_comm] at hcross
      simp [operandByte, afterRead, addCycles, hcross]

section
variable (sensitive : Bool) (m : Operand) (s : State)

/-- An operand read changes no register, flag or storage (R112). -/
@[simp] theorem afterRead_a : (afterRead sensitive m s).a = s.a := by cases m <;> rfl
@[simp] theorem afterRead_x : (afterRead sensitive m s).x = s.x := by cases m <;> rfl
@[simp] theorem afterRead_y : (afterRead sensitive m s).y = s.y := by cases m <;> rfl
@[simp] theorem afterRead_sp : (afterRead sensitive m s).sp = s.sp := by cases m <;> rfl
@[simp] theorem afterRead_pc : (afterRead sensitive m s).pc = s.pc := by cases m <;> rfl
@[simp] theorem afterRead_status : (afterRead sensitive m s).status = s.status := by cases m <;> rfl
@[simp] theorem afterRead_ram : (afterRead sensitive m s).ram = s.ram := by cases m <;> rfl
@[simp] theorem afterRead_cart : (afterRead sensitive m s).cart = s.cart := by cases m <;> rfl
@[simp] theorem afterRead_addrAbs : (afterRead sensitive m s).addrAbs = operandAddr m s := by cases m <;> rfl

end

/-! ### The store and the write back -/

/-- A bus write keeps the status, whatever it is (20_memory.md R42). -/
theorem busWrite_withStatus (addr : Word) (v p : Byte) (s : State) :
    busWrite addr v { s with status := p } = { busWrite addr v s with status := p } := by
  rw [busWrite_congr (s := s) (t := { s with status := p }) _ _ rfl rfl rfl, busWrite_frame addr v s]

/-- 41 R143 to R145: a store is one bus write at the effective address. -/
theorem storeOperand_eq {m : Operand} (v : Byte) (s : State) (hacc : m ≠ .acc) (hind : m.mode ≠ .ind) :
    storeOperand m v s = busWrite (operandAddr m s) v { s with addrAbs := operandAddr m s } := by
  rw [storeOperand, addrMode_eq s hacc hind]

/-- R128: in a memory form the write back is one bus write at the effective address in the scratch. -/
theorem writeBack_eq {m : Operand} (v : Byte) (s : State) (hacc : m ≠ .acc) : writeBack m v s = busWrite s.addrAbs v s := by
  cases m with
  | acc => exact absurd rfl hacc
  | _ => rfl

end Sys2Proof.Proofs.Operands
end

section
/-!
Loads, stores, transfers (41_load_store_transfer.md) and arithmetic, logic and compares (42_arithmetic_logic_compare.md): `SetZN` as the
status it leaves, the subtraction as integer difference, and the obligations about these instructions, settled from the operand read.
-/
namespace Sys2Proof.Proofs.Registers

open Sys2Proof Sys2Proof.Machine Sys2Proof.Proofs.MemoryMap Sys2Proof.Proofs.Adder Sys2Proof.Proofs.Operands

/-! ### Z and N (40 R130) -/

theorem znStatus_eq (r p : Byte) : znStatus r p = statusZN r p := by
  conv_lhs => rw [← statusOf_getLsbD p, znStatus_statusOf]
  rfl

theorem setZN_eq (r : Byte) (s : State) : setZN r s = { s with status := statusZN r s.status } := by
  rw [setZN, znStatus_eq]

/-! ### Loads and stores (41 R140 to R145) -/

/-- Settles O18: each load is the operand read `readOperand_eq` with `SetZN` of the byte that it gives. -/
theorem loadsTakeTheOperand : Obligations.LoadsTakeTheOperand := by
  unfold Obligations.LoadsTakeTheOperand
  intro m s
  refine ⟨fun hwf => ?lda, fun hwf => ?ldx, fun hwf => ?ldy⟩
  all_goals have hread := readOperand_eq true s (mode_ne_ind hwf (by decide))
  case lda => simp [exec, execLda, hread, setZN_eq]
  case ldx => simp [exec, execLdx, hread, setZN_eq]
  case ldy => simp [exec, execLdy, hread, setZN_eq]

/-- Settles O19: a store is `storeOperand_eq`, since no row of a store has an ACC or IND form. -/
theorem storesWriteTheRegister : Obligations.StoresWriteTheRegister := by
  unfold Obligations.StoresWriteTheRegister
  intro m s
  refine ⟨fun hwf => ?_, fun hwf => ?_, fun hwf => ?_⟩
  all_goals exact congrArg _ (storeOperand_eq _ s (ne_acc hwf (by decide)) (mode_ne_ind hwf (by decide)))

/-! ### Transfers (41 R146 to R151) -/

/-- Settles O20: each transfer but TXS is a copy with `SetZN` of the byte copied. -/
theorem transfersCopyTheRegister : Obligations.TransfersCopyTheRegister := by
  unfold Obligations.TransfersCopyTheRegister
  intro s
  refine ⟨?tax, ?tay, ?txa, ?tya, ?tsx, rfl⟩
  case tax => rw [exec, execTax, setZN_eq]; rfl
  case tay => rw [exec, execTay, setZN_eq]; rfl
  case txa => rw [exec, execTxa, setZN_eq]; rfl
  case tya => rw [exec, execTya, setZN_eq]; rfl
  case tsx => rw [exec, execTsx, setZN_eq]; rfl

/-! ### Addition and logic (42 R161, R163 to R165) -/

/-- Settles O22: ADC is the adder on what the operand read gives. -/
theorem adcAddsTheOperand : Obligations.AdcAddsTheOperand := by
  unfold Obligations.AdcAddsTheOperand
  intro m s hwf
  rw [exec, execAdc, readOperand_eq true s (mode_ne_ind hwf (by decide))]

/-- Settles O24: each of the three combines the accumulator with what the operand read gives, and takes `SetZN` of the result. -/
theorem logicCombinesTheOperand : Obligations.LogicCombinesTheOperand := by
  unfold Obligations.LogicCombinesTheOperand
  intro m s
  refine ⟨fun hwf => ?and, fun hwf => ?ora, fun hwf => ?eor⟩
  all_goals have hread := readOperand_eq true s (mode_ne_ind hwf (by decide))
  case and => simp [exec, execAnd, hread, setZN_eq]
  case ora => simp [exec, execOra, hread, setZN_eq]
  case eor => simp [exec, execEor, hread, setZN_eq]

/-! ### Subtraction (42 R162) -/

/-- The inverted operand is 255 less the operand. -/
theorem xor_ff_toNat (m : Byte) : (m ^^^ 0xFF).toNat = 255 - m.toNat := by
  rw [show (0xFF : Byte) = BitVec.allOnes 8 from rfl, BitVec.xor_allOnes, BitVec.toNat_not]

/-- The inverted operand is, signed, one less than the negated operand. -/
theorem xor_ff_toInt (m : Byte) : (m ^^^ 0xFF).toInt = -1 - m.toInt := by
  have hm := m.isLt
  rw [BitVec.toInt_eq_toNat_cond, BitVec.toInt_eq_toNat_cond, xor_ff_toNat]
  split <;> split <;> omega

/-- A sum that is 256 more than a difference is the same byte. -/
theorem ofNat_eq_ofInt {sum : Nat} {diff : Int} (h : (sum : Int) = 256 + diff) :
    BitVec.ofNat 8 sum = BitVec.ofInt 8 diff := by
  apply BitVec.eq_of_toNat_eq
  rw [BitVec.toNat_ofNat, BitVec.toNat_ofInt]
  omega

/-- The adder on the inverted operand subtracts operand and borrow (R162, R171). -/
theorem addWithCarry_inverted (value : Byte) (s : State) :
    let borrow : Int := if s.status.getLsbD 0 then 0 else 1
    let diff : Int := (s.a.toNat : Int) - value.toNat - borrow
    let signed : Int := s.a.toInt - value.toInt - borrow
    addWithCarry (value ^^^ 0xFF) s = { s with
      a := BitVec.ofInt 8 diff
      status := statusOf (n := (BitVec.ofInt 8 diff).getLsbD 7) (v := decide (signed < -128 ∨ 127 < signed))
        (u := s.status.getLsbD 5) (b := s.status.getLsbD 4) (d := s.status.getLsbD 3) (i := s.status.getLsbD 2)
        (z := decide (BitVec.ofInt 8 diff = 0)) (c := decide (0 ≤ diff)) } := by
  intro borrow diff signed
  have hvalue := value.isLt
  have hcarry : ((if s.status.getLsbD 0 then 1 else 0 : Nat) : Int) = 1 - borrow := by
    simp only [borrow]
    split <;> rfl
  obtain ⟨sum, hsum⟩ : ∃ n, s.a.toNat + (value ^^^ 0xFF).toNat + (if s.status.getLsbD 0 then 1 else 0) = n := ⟨_, rfl⟩
  have hdiff : (sum : Int) = 256 + diff := by
    rw [xor_ff_toNat] at hsum
    simp only [diff]
    omega
  have hsigned : s.a.toInt + (value ^^^ 0xFF).toInt + ((if s.status.getLsbD 0 then 1 else 0 : Nat) : Int) = signed := by
    rw [xor_ff_toInt, hcarry]
    simp only [signed]
    omega
  have hbyte : BitVec.ofNat 8 sum = BitVec.ofInt 8 diff := ofNat_eq_ofInt hdiff
  have hn : sum.testBit 7 = (BitVec.ofInt 8 diff).getLsbD 7 := by
    rw [← hbyte, BitVec.getLsbD_ofNat]
    rfl
  have hz : sum % 256 = 0 ↔ BitVec.ofInt 8 diff = 0 := by
    rw [← hbyte, ← BitVec.toNat_inj, BitVec.toNat_ofNat]
    rfl
  have hc : 255 < sum ↔ 0 ≤ diff := by omega
  have hadd := adderComputesSumAndFlags (value ^^^ 0xFF) s
  simp only [hsum, hsigned, hbyte, hn, hz, hc] at hadd
  exact hadd

/-- Settles O23: SBC is the adder on the inverted operand byte, which is `addWithCarry_inverted`. -/
theorem sbcSubtractsTheOperand : Obligations.SbcSubtractsTheOperand := by
  unfold Obligations.SbcSubtractsTheOperand
  intro m s hwf value borrow diff signed
  have hsub := addWithCarry_inverted value (afterRead true m s)
  rw [afterRead_a, afterRead_status] at hsub
  rw [exec, execSbc, readOperand_eq true s (mode_ne_ind hwf (by decide)), hsub]

/-! ### BIT and the compares (42 R166 to R170) -/

theorem hasFlag_flagV (p : Byte) : hasFlag flagV p = p.getLsbD 6 := hasFlag_twoPow 6 p (by decide)

theorem hasFlag_flagZ (p : Byte) : hasFlag flagZ p = p.getLsbD 1 := hasFlag_twoPow 1 p (by decide)

/-- R166: Z from the and, N and V from bits 7 and 6 of the operand, the other five bits kept. -/
theorem bitStatus_eq (a m p : Byte) :
    bitStatus a m p = statusOf (n := m.getLsbD 7) (v := m.getLsbD 6) (u := p.getLsbD 5) (b := p.getLsbD 4)
      (d := p.getLsbD 3) (i := p.getLsbD 2) (z := decide (a &&& m = 0)) (c := p.getLsbD 0) := by
  conv_lhs => rw [← statusOf_getLsbD p]
  rw [bitStatus, putFlag_flagZ_statusOf, putFlag_flagN_statusOf, putFlag_flagV_statusOf, ← hasFlag_flagN, ← hasFlag_flagV]
  rfl

/-- Settles O25: BIT changes the status to `bitStatus_eq` of what the operand read gives. -/
theorem bitTestsTheOperand : Obligations.BitTestsTheOperand := by
  unfold Obligations.BitTestsTheOperand
  intro m s hwf
  rw [exec, execBit, readOperand_eq false s (mode_ne_ind hwf (by decide))]
  rw [bitStatus_eq, afterRead_a, afterRead_status]

/-- The byte difference is the integer difference modulo 256. -/
theorem sub_eq_ofInt (r m : Byte) : r - m = BitVec.ofInt 8 (r.toNat - m.toNat) := by
  apply BitVec.eq_of_toNat_eq
  rw [BitVec.toNat_sub, BitVec.toNat_ofInt]
  omega

/-- R167: C unsigned at-least, Z and N from the difference. -/
theorem compareStatus_eq (r m p : Byte) :
    compareStatus r m p = statusCZN (decide (m.toNat ≤ r.toNat)) (BitVec.ofInt 8 (r.toNat - m.toNat)) p := by
  rw [compareStatus, znStatus_putFlag_flagC, sub_eq_ofInt]
  rfl

/-- Settles O26: each compare changes the status to `compareStatus_eq` of its register and what the operand read gives. -/
theorem comparesSetFlags : Obligations.ComparesSetFlags := by
  unfold Obligations.ComparesSetFlags
  intro m s flags
  refine ⟨fun hwf => ?cmp, fun hwf => ?cpx, fun hwf => ?cpy⟩
  case cmp => simp [exec, execCmp, readOperand_eq true s (mode_ne_ind hwf (by decide)), compareStatus_eq, flags]
  case cpx => simp [exec, execCpx, readOperand_eq false s (mode_ne_ind hwf (by decide)), compareStatus_eq, flags]
  case cpy => simp [exec, execCpy, readOperand_eq false s (mode_ne_ind hwf (by decide)), compareStatus_eq, flags]

end Sys2Proof.Proofs.Registers
end

section
/-!
Shifts, rotates, increments and decrements (43_shift_rotate_incdec.md): the four results and the bits shifted out by arithmetic on
naturals, one equation for the accumulator form and one for the memory forms, and the obligations about these instructions.
-/
namespace Sys2Proof.Proofs.Shifts

open Sys2Proof Sys2Proof.Machine Sys2Proof.Proofs.Adder Sys2Proof.Proofs.Operands Sys2Proof.Proofs.Registers

/-! ### Results by arithmetic (R181 to R184) -/

theorem shiftLeft_eq (c : Bool) (m : Byte) :
    shiftLeft c m = { value := BitVec.ofNat 8 (2 * m.toNat), carry := decide (128 ≤ m.toNat) } := by
  have hvalue : m <<< 1 = BitVec.ofNat 8 (2 * m.toNat) := by
    apply BitVec.eq_of_toNat_eq
    rw [BitVec.toNat_shiftLeft, Nat.shiftLeft_eq, BitVec.toNat_ofNat, Nat.mul_comm]
  have hcarry : m.getLsbD 7 = decide (128 ≤ m.toNat) := BitVec.msb_eq_decide m
  rw [shiftLeft, hvalue, hcarry]

theorem getLsbD_zero_eq_decide (m : Byte) : m.getLsbD 0 = decide (m.toNat % 2 = 1) :=
  Nat.testBit_zero m.toNat

theorem shiftRight_eq (c : Bool) (m : Byte) :
    shiftRight c m = { value := BitVec.ofNat 8 (m.toNat / 2), carry := decide (m.toNat % 2 = 1) } := by
  have hm := m.isLt
  have hvalue : m >>> 1 = BitVec.ofNat 8 (m.toNat / 2) := by
    apply BitVec.eq_of_toNat_eq
    rw [BitVec.toNat_ushiftRight, Nat.shiftRight_eq_div_pow, BitVec.toNat_ofNat]
    omega
  rw [shiftRight, hvalue, getLsbD_zero_eq_decide]

/-- The carry rotated in at the right is one more. -/
theorem shiftLeft_one_or_one (m : Byte) : (m <<< 1) ||| (0x01 : Byte) = m <<< 1 + (0x01 : Byte) := by
  refine (BitVec.add_eq_or_of_and_eq_zero _ _ (BitVec.eq_of_getLsbD_eq fun j hj => ?_)).symm
  interval_cases j <;> simp

/-- The carry rotated in at the left is 128 more. -/
theorem high_or_shiftRight_one (m : Byte) : (0x80 : Byte) ||| (m >>> 1) = (0x80 : Byte) + m >>> 1 := by
  refine (BitVec.add_eq_or_of_and_eq_zero _ _ (BitVec.eq_of_getLsbD_eq fun j hj => ?_)).symm
  interval_cases j <;> simp

theorem rotateLeft_eq (c : Bool) (m : Byte) :
    rotateLeft c m =
      { value := BitVec.ofNat 8 (2 * m.toNat + if c then 1 else 0), carry := decide (128 ≤ m.toNat) } := by
  have hshift : m <<< 1 = BitVec.ofNat 8 (2 * m.toNat) := congrArg Shifted.value (shiftLeft_eq c m)
  have hvalue : (m <<< 1) ||| (if c then 0x01 else 0x00) = BitVec.ofNat 8 (2 * m.toNat + if c then 1 else 0) := by
    cases c
    · simpa using hshift
    · rw [if_pos rfl, if_pos rfl, shiftLeft_one_or_one, hshift, BitVec.ofNat_add]
      rfl
  have hcarry : m.getLsbD 7 = decide (128 ≤ m.toNat) := BitVec.msb_eq_decide m
  rw [rotateLeft, hvalue, hcarry]

theorem rotateRight_eq (c : Bool) (m : Byte) :
    rotateRight c m =
      { value := BitVec.ofNat 8 (128 * (if c then 1 else 0) + m.toNat / 2), carry := decide (m.toNat % 2 = 1) } := by
  have hshift : m >>> 1 = BitVec.ofNat 8 (m.toNat / 2) := congrArg Shifted.value (shiftRight_eq c m)
  have hvalue : ((if c then 0x80 else 0x00 : Nat) : Byte) ||| (m >>> 1) =
      BitVec.ofNat 8 (128 * (if c then 1 else 0) + m.toNat / 2) := by
    cases c
    · simpa using hshift
    · rw [if_pos rfl, if_pos rfl, BitVec.ofNat_add, ← hshift]
      exact high_or_shiftRight_one m
  rw [rotateRight, hvalue, getLsbD_zero_eq_decide]

theorem shiftStatus_eq (r : Shifted) (p : Byte) : shiftStatus r p = statusCZN r.carry r.value p :=
  znStatus_putFlag_flagC r.value r.carry p

/-! ### The two shapes of a shift (R180) -/

theorem shiftOperand_acc (f : Bool → Byte → Shifted) (s : State) {r : Shifted} (h : f (s.status.getLsbD 0) s.a = r) :
    shiftOperand f .acc s = { s with fetched := s.a, a := r.value, status := statusCZN r.carry r.value s.status } := by
  subst h
  rw [← hasFlag_flagC, ← shiftStatus_eq]
  rfl

/-- In memory: the operand read, one write of the result at the same address, and the flags. -/
theorem shiftOperand_memory (f : Bool → Byte → Shifted) {m : Operand} (s : State) {r : Shifted} (hacc : m ≠ .acc)
    (hind : m.mode ≠ .ind) (h : f (s.status.getLsbD 0) (operandByte m s) = r) :
    shiftOperand f m s = { busWrite (operandAddr m s) r.value (afterRead false m s) with
      status := statusCZN r.carry r.value s.status } := by
  subst h
  rw [shiftOperand, readOperand_eq false s hind]
  simp only [writeBack_eq _ _ hacc, busWrite_withStatus, hasFlag_flagC, shiftStatus_eq]
  rw [afterRead_status, afterRead_addrAbs]

/-- Settles O27: the accumulator form `shiftOperand_acc` with each result by arithmetic. -/
theorem shiftsOnTheAccumulator : Obligations.ShiftsOnTheAccumulator := by
  unfold Obligations.ShiftsOnTheAccumulator
  intro s v c asl lsr rol ror
  exact ⟨congrArg _ (shiftOperand_acc shiftLeft s (shiftLeft_eq _ _)),
    congrArg _ (shiftOperand_acc shiftRight s (shiftRight_eq _ _)),
    congrArg _ (shiftOperand_acc rotateLeft s (rotateLeft_eq _ _)),
    congrArg _ (shiftOperand_acc rotateRight s (rotateRight_eq _ _))⟩

/-- Settles O28: the memory form `shiftOperand_memory` with each result by arithmetic. -/
theorem shiftsInMemory : Obligations.ShiftsInMemory := by
  unfold Obligations.ShiftsInMemory
  intro m s hacc hwf v c asl lsr rol ror stored
  have hind := mode_ne_ind hwf (by decide)
  exact ⟨congrArg _ (shiftOperand_memory shiftLeft s hacc hind (shiftLeft_eq _ _)),
    congrArg _ (shiftOperand_memory shiftRight s hacc hind (shiftRight_eq _ _)),
    congrArg _ (shiftOperand_memory rotateLeft s hacc hind (rotateLeft_eq _ _)),
    congrArg _ (shiftOperand_memory rotateRight s hacc hind (rotateRight_eq _ _))⟩

/-! ### Increments and decrements (R185 to R190) -/

theorem add_one_eq_ofNat (r : Byte) : r + 1 = BitVec.ofNat 8 (r.toNat + 1) := by
  bv_omega

theorem sub_one_eq_ofNat (r : Byte) : r - 1 = BitVec.ofNat 8 (r.toNat + 255) := by
  bv_omega

/-- INC and DEC: the operand read, one write of the changed byte at the same address, Z and N. -/
theorem modifyMemory_eq (f : Byte → Byte) {m : Operand} (s : State) {r : Byte} (hind : m.mode ≠ .ind)
    (h : f (operandByte m s) = r) :
    modifyMemory f m s = { busWrite (operandAddr m s) r (afterRead false m s) with status := statusZN r s.status } := by
  subst h
  have hstatus : (busWrite (operandAddr m s) (f (operandByte m s)) (afterRead false m s)).status = s.status := by
    rw [busWrite_frame, afterRead_status]
  rw [modifyMemory, readOperand_eq false s hind]
  simp only [setZN_eq, afterRead_addrAbs, hstatus]

/-- Settles O29: `modifyMemory_eq` in memory and `SetZN` of the changed register, one more or less as naturals. -/
theorem incrementsAndDecrements : Obligations.IncrementsAndDecrements := by
  unfold Obligations.IncrementsAndDecrements
  intro up down
  refine ⟨?memory, fun s => ⟨?inx, ?iny, ?dex, ?dey⟩⟩
  case memory =>
    intro m s hwf stored
    have hind := mode_ne_ind hwf (by decide)
    exact ⟨congrArg _ (modifyMemory_eq _ s hind (add_one_eq_ofNat _)),
      congrArg _ (modifyMemory_eq _ s hind (sub_one_eq_ofNat _))⟩
  case inx => rw [exec, execInx, setZN_eq, add_one_eq_ofNat]; rfl
  case iny => rw [exec, execIny, setZN_eq, add_one_eq_ofNat]; rfl
  case dex => rw [exec, execDex, setZN_eq, sub_one_eq_ofNat]; rfl
  case dey => rw [exec, execDey, setZN_eq, sub_one_eq_ofNat]; rfl

end Sys2Proof.Proofs.Shifts
end

section
/-!
Branches and jumps (44_branch_jump_subroutine.md R200 to R209): the signed offset and the target as integers, and the obligations about
the eight branches and JMP.
-/
namespace Sys2Proof.Proofs.Jumps

open Sys2Proof Sys2Proof.Machine Sys2Proof.Proofs.MemoryMap Sys2Proof.Proofs.Adder Sys2Proof.Proofs.Operands
  Sys2Proof.Proofs.Registers

/-! ### Branches -/

/-- 40 R123: the offset byte is sign-extended. -/
theorem sext16_eq_ofInt (b : Byte) : sext16 b = BitVec.ofInt 16 b.toInt := by
  have hb := b.isLt
  have hsign : b &&& 0x80 ≠ 0 ↔ 128 ≤ b.toNat := by
    rw [← bne_iff_ne, ← decide_eq_true_iff (p := 128 ≤ _), ← BitVec.msb_eq_decide b]
    exact Bool.eq_iff_iff.1 (hasFlag_flagN b)
  apply BitVec.eq_of_toNat_eq
  rw [BitVec.toNat_ofInt, BitVec.toInt_eq_toNat_cond, sext16]
  by_cases hzero : b &&& 0x80 = 0
  · have hlow : ¬ 128 ≤ b.toNat := mt hsign.2 (not_not.2 hzero)
    rw [if_pos hzero, if_pos (by omega), wordOf_toNat, show (0x00 : Byte).toNat = 0 from rfl]
    omega
  · have hhigh : 128 ≤ b.toNat := hsign.1 hzero
    rw [if_neg hzero, if_neg (by omega), wordOf_toNat, show (0xFF : Byte).toNat = 255 from rfl]
    omega

/-- R200: the target is the next instruction's address plus the signed offset, modulo 65536. -/
theorem add_sext16_eq_branchTarget (offset : Byte) (s : State) : s.pc + sext16 offset = branchTarget offset s := by
  apply BitVec.eq_of_toNat_eq
  rw [sext16_eq_ofInt, branchTarget, BitVec.toNat_add, BitVec.toNat_ofInt, BitVec.toNat_ofInt]
  omega

/-- R200: what a branch does, taken or not. -/
theorem branch_eq_afterBranch (taken : Bool) (offset : Byte) (s : State) :
    branch taken offset s = afterBranch taken offset s := by
  cases taken with
  | false => simp [branch, afterBranch, sext16_eq_ofInt]
  | true =>
    simp only [branch, if_true, add_sext16_eq_branchTarget, pageCrossed_eq]
    simp [afterBranch, addCycles, sext16_eq_ofInt, ne_comm]

/-- Settles O30: each branch is `branch_eq_afterBranch` with its flag as a bit of the status. -/
theorem branchesTestTheirFlag : Obligations.BranchesTestTheirFlag := by
  unfold Obligations.BranchesTestTheirFlag
  intro offset s
  simp only [← branch_eq_afterBranch, ← hasFlag_flagC, ← hasFlag_flagZ, ← hasFlag_flagV, ← hasFlag_flagN]
  exact ⟨rfl, rfl, rfl, rfl, rfl, rfl, rfl, rfl⟩

/-! ### JMP -/

/-- The start of an address's page (00_scope.md R9). -/
theorem and_ff00_eq_wordOf (w : Word) : w &&& 0xFF00 = wordOf (hiByte w) 0x00 := by
  conv_lhs => rw [← wordOf_hiByte_loByte w, wordOf, show (0xFF00 : Word) = (0xFF : Byte) ++ (0x00 : Byte) from rfl,
    BitVec.and_append]
  rw [show (0xFF : Byte) = BitVec.allOnes 8 from rfl, BitVec.and_allOnes]
  exact congrArg _ BitVec.and_zero

/-- 40 R124: the high byte lies after the pointer, but in its page. -/
theorem indirectHighAddr_eq_ofNat (w : Word) :
    indirectHighAddr w = BitVec.ofNat 16 (if w.toNat % 256 = 255 then w.toNat - 255 else w.toNat + 1) := by
  have hlow : loByte w = 0xFF ↔ w.toNat % 256 = 255 := by
    rw [← BitVec.toNat_inj, loByte_toNat]
    rfl
  by_cases h : loByte w = 0xFF
  · rw [indirectHighAddr, if_pos h, if_pos (hlow.1 h), and_ff00_eq_wordOf, wordOf_eq_ofNat, hiByte_toNat]
    have hlast := hlow.1 h
    exact congrArg _ (by simp; omega)
  · rw [indirectHighAddr, if_neg h, if_neg (mt hlow.2 h), BitVec.ofNat_add, BitVec.ofNat_toNat, BitVec.setWidth_eq]
    rfl

/-- 40 R124: reading the target changes nothing but the PPU. -/
theorem readIndirect_frame (ptr : Word) (s : State) :
    (readIndirect ptr s).2 = { s with ppu := (readIndirect ptr s).2.ppu } := by
  rw [readIndirect, busRead_frame (indirectHighAddr ptr), busRead_frame ptr s]

/-- Settles O31: the two forms of the mode; IND reads two bytes, which change nothing but the PPU. -/
theorem jmpReachesItsTarget : Obligations.JmpReachesItsTarget := by
  unfold Obligations.JmpReachesItsTarget
  intro w s
  refine ⟨rfl, ?_⟩
  intro high lo hi target
  have haddr : indirectHighAddr w = BitVec.ofNat 16 high := indirectHighAddr_eq_ofNat w
  have hread : readIndirect w s = (target, { s with ppu := hi.2.ppu }) := by
    have hframe := readIndirect_frame w s
    rw [readIndirect, haddr] at hframe ⊢
    rw [wordOf_eq_ofNat]
    exact congrArg _ hframe
  rw [exec, execJmp, addrMode, hread]

end Sys2Proof.Proofs.Jumps
end

section
/-!
Stack, flag and system instructions (45_stack_flag_system.md) and the entries into a handler (60_exceptions.md R254 to R256): the status
bytes that are pushed, one equation for taking an exception, and what a return finds on the stack after an entry.
-/
namespace Sys2Proof.Proofs.Exceptions

open Sys2Proof Sys2Proof.Machine Sys2Proof.Proofs.MemoryMap Sys2Proof.Proofs.Adder Sys2Proof.Proofs.Operands
  Sys2Proof.Proofs.Registers Sys2Proof.Proofs.Subroutine Sys2Proof.Proofs.InterruptReturn Sys2Proof.Proofs.Reset

/-! ### Status bytes by their flags -/

/-- Putting the flag of bit `k` replaces that one of a status's own eight flags. -/
theorem putFlag_twoPow_eq_statusOf (k : Nat) (f : Bool) (p : Byte) :
    putFlag (BitVec.twoPow 8 k) f p =
      statusOf (n := if 7 = k then f else p.getLsbD 7) (v := if 6 = k then f else p.getLsbD 6)
        (u := if 5 = k then f else p.getLsbD 5) (b := if 4 = k then f else p.getLsbD 4)
        (d := if 3 = k then f else p.getLsbD 3) (i := if 2 = k then f else p.getLsbD 2)
        (z := if 1 = k then f else p.getLsbD 1) (c := if 0 = k then f else p.getLsbD 0) := by
  conv_lhs => rw [← statusOf_getLsbD p, putFlag_twoPow_statusOf]

/-- R225, R227: PHP and BRK push the status with B and U set. -/
theorem pushedStatus_eq_statusOf (p : Byte) :
    pushedStatus p = statusOf (n := p.getLsbD 7) (v := p.getLsbD 6) (u := true) (b := true) (d := p.getLsbD 3)
      (i := p.getLsbD 2) (z := p.getLsbD 1) (c := p.getLsbD 0) := by
  refine BitVec.eq_of_getLsbD_eq fun j hj => ?_
  rw [pushedStatus, BitVec.getLsbD_or, statusOf, BitVec.getLsbD_ofBoolListLE]
  interval_cases j <;> simp

/-- 60 R254: interrupt entry clears B and sets U. -/
theorem interruptStatus_eq_statusOf (p : Byte) :
    interruptStatus p = statusOf (n := p.getLsbD 7) (v := p.getLsbD 6) (u := true) (b := false) (d := p.getLsbD 3)
      (i := p.getLsbD 2) (z := p.getLsbD 1) (c := p.getLsbD 0) := by
  refine BitVec.eq_of_getLsbD_eq fun j hj => ?_
  rw [interruptStatus, BitVec.getLsbD_or, BitVec.getLsbD_and, statusOf, BitVec.getLsbD_ofBoolListLE]
  interval_cases j <;> simp

theorem statusOf_or_flagI (n v u b d i z c : Bool) : statusOf n v u b d i z c ||| 0x04 = statusOf n v u b d true z c :=
  putFlag_twoPow_statusOf 2 n v u b d i z c true

/-- B and U cleared in a status written out by its flags. -/
theorem flagsOnly_statusOf (n v u b d i z c : Bool) :
    flagsOnly (statusOf n v u b d i z c) = statusOf n v false false d i z c := by
  refine BitVec.eq_of_getLsbD_eq fun j hj => ?_
  rw [flagsOnly, BitVec.getLsbD_and, statusOf, statusOf, BitVec.getLsbD_ofBoolListLE, BitVec.getLsbD_ofBoolListLE]
  interval_cases j <;> simp

/-! ### Pushes, pulls, flag instructions (45 R221 to R246) -/

/-- Settles O35: `push_eq` and `pull_eq` after the mode IMP, with the byte that PHP pushes by its flags. -/
theorem pushesAndPullsMoveOneByte : Obligations.PushesAndPullsMoveOneByte := by
  unfold Obligations.PushesAndPullsMoveOneByte
  intro s
  refine ⟨?pha, ?php, ?pla, ?plp⟩
  case pha => rw [exec, execPha, push_eq]; rfl
  case php => rw [exec, execPhp, push_eq, pushedStatus_eq_statusOf]; rfl
  case pla => rw [exec, execPla, pull_eq, setZN_eq]; rfl
  case plp => rw [exec, execPlp, pull_eq]; rfl

/-- Settles O38: each of the seven puts the flag of one bit. -/
theorem flagInstructionsChangeOneBit : Obligations.FlagInstructionsChangeOneBit := by
  unfold Obligations.FlagInstructionsChangeOneBit
  intro s with'
  have hput (k : Nat) (f : Bool) := congrArg (fun p => (.next { impliedMode s with status := p } : Outcome))
    (putFlag_twoPow_eq_statusOf k f s.status)
  exact ⟨hput 0 false, hput 0 true, hput 2 false, hput 2 true, hput 3 false, hput 3 true, hput 6 false⟩

/-- Settles O39: both meanings are the mode IMP and nothing else. -/
theorem nopsChangeNothing : Obligations.NopsChangeNothing := by
  unfold Obligations.NopsChangeNothing
  exact fun _ _ => ⟨rfl, rfl⟩

/-! ### Taking an exception (60 R254; 45 R232) -/

/-- From 0x2000 on what a look finds depends on the cartridge alone (20_memory.md R41, R77). -/
theorem busPeek_congr {addr : Word} {s t : State} (hcart : t.cart = s.cart) (h : 0x2000 ≤ addr) :
    busPeek addr t = busPeek addr s := by
  have hram : ¬ addr ≤ 0x1FFF := by bv_omega
  rw [busPeek, busPeek, hcart, if_neg hram, if_neg hram]

theorem vectorWord_congr {vector : Word} {s t : State} (hcart : t.cart = s.cart) (h : 0x2000 ≤ vector)
    (hlast : vector ≠ 0xFFFF) : vectorWord vector t = vectorWord vector s := by
  rw [vectorWord, vectorWord, busPeek_congr hcart h, busPeek_congr hcart (by bv_omega)]

/-- R254: the word and the status byte on the stack, I set, the pc from the vector, all else kept. -/
theorem enterHandler_eq_stackedFrame (pushed live : Byte) {vector : Word} (s : State) (h : 0x4000 ≤ vector)
    (hlast : vector ≠ 0xFFFF) :
    enterHandler pushed live vector s = { s with
      ram := stackedFrame s.ram s.sp s.pc pushed, sp := s.sp - 3, pc := vectorWord vector s, status := live ||| 0x04 } := by
  have hsp : s.sp - 2 - 1 = s.sp - 3 := by bv_omega
  have hvector : 0x2000 ≤ vector := by bv_omega
  rw [enterHandler_eq _ _ _ _ h hlast, pushWord_eq_stacked, push_eq]
  have hword (ram : Memory) (sp p : Byte) :
      vectorWord vector { s with ram := ram, sp := sp, status := p } = vectorWord vector s :=
    vectorWord_congr rfl hvector hlast
  simp only [readWord_eq_vectorWord _ h hlast, hsp, hword]
  rfl

/-- Settles O36: BRK is an entry with the pc one further on, the status with B and U set pushed, and the live status kept. -/
theorem brkEntersTheHandler : Obligations.BrkEntersTheHandler := by
  unfold Obligations.BrkEntersTheHandler
  intro s
  have hlive : s.status ||| 0x04 = _ := putFlag_twoPow_eq_statusOf 2 true s.status
  rw [exec, execBrk, enterBrk, enterHandler_eq_stackedFrame _ _ _ (by decide) (by decide)]
  simp only [impliedMode_status, hlive, pushedStatus_eq_statusOf]
  rfl

/-- The state after an IRQ or NMI entry: the status with B cleared and U set is pushed and, with I set, live. -/
theorem interruptEntry_eq {vector : Word} (s : State) (h : 0x4000 ≤ vector) (hlast : vector ≠ 0xFFFF) :
    let saved := fun i : Bool => statusOf (n := s.status.getLsbD 7) (v := s.status.getLsbD 6) (u := true) (b := false)
      (d := s.status.getLsbD 3) (i := i) (z := s.status.getLsbD 1) (c := s.status.getLsbD 0)
    enterHandler (interruptStatus s.status) (interruptStatus s.status) vector s = { s with
      sp := s.sp - 3, pc := vectorWord vector s, status := saved true
      ram := stackedFrame s.ram s.sp s.pc (saved (s.status.getLsbD 2)) } := by
  rw [enterHandler_eq_stackedFrame _ _ _ h hlast, interruptStatus_eq_statusOf, statusOf_or_flagI]

/-- Settles O44: `interruptEntry_eq` through 0xFFFA, with eight cycles owed. -/
theorem nmiEntersTheHandler : Obligations.NmiEntersTheHandler := by
  unfold Obligations.NmiEntersTheHandler
  intro s saved
  rw [enterNmi, interruptEntry_eq s (by decide) (by decide)]
  rfl

theorem and_flagI_eq_zero_iff (p : Byte) : p &&& 0x04 = 0 ↔ p.getLsbD 2 = false := by
  have h : (p &&& 0x04 != 0) = p.getLsbD 2 := hasFlag_twoPow 2 p (by decide)
  rw [← h, bne_eq_false_iff_eq]

/-- Settles O45: `interruptEntry_eq` through 0xFFFE, with seven cycles owed, behind the test of I. -/
theorem irqEntersTheHandlerUnlessMasked : Obligations.IrqEntersTheHandlerUnlessMasked := by
  unfold Obligations.IrqEntersTheHandlerUnlessMasked
  intro s saved
  refine ⟨fun hset => ?_, fun hclear => ?_⟩
  · exact if_neg fun hzero => Bool.noConfusion (hset.symm.trans ((and_flagI_eq_zero_iff _).1 hzero))
  · rw [enterIrq, if_pos ((and_flagI_eq_zero_iff _).2 hclear), interruptEntry_eq s (by decide) (by decide)]
    simp only [hclear]
    rfl

/-! ### Returning (45 R234; 44 R213) -/

theorem stacked_wf {ram : Memory} (sp v : Byte) (h : Memory.wf 2048 ram = true) :
    Memory.wf 2048 (stacked ram sp v) = true := by
  have hsp := sp.isLt
  exact wf_memWrite v h (by omega)

/-- A canonical RAM gives back the byte pushed at a stack pointer, and at another what it held there before. -/
theorem memRead_stacked {ram : Memory} (sp sp' v : Byte) (h : Memory.wf 2048 ram = true) :
    memRead (stacked ram sp v) (256 + sp'.toNat) = if sp' = sp then v else memRead ram (256 + sp'.toNat) := by
  rw [stacked, memRead_memWrite _ _ v h]
  simp only [Nat.add_left_cancel_iff, BitVec.toNat_inj]

/-- The two halves of a word make it up again. -/
theorem ofNat_halves (w : Word) :
    BitVec.ofNat 16 ((BitVec.ofNat 8 (w.toNat / 256)).toNat * 256 + (BitVec.ofNat 8 w.toNat).toNat) = w := by
  rw [← hiByte_eq_ofNat, ← loByte_eq_ofNat, ← wordOf_eq_ofNat, wordOf_hiByte_loByte]

/-- R234 after R254: RTI finds the word, the status byte and the stack pointer of the entry. -/
theorem exec_rti_of_stackedFrame {t : State} {ram : Memory} {sp status : Byte} {w : Word} (hwf : Memory.wf 2048 ram = true)
    (hram : t.ram = stackedFrame ram sp w status) (hsp : t.sp = sp - 3) :
    ∃ u, exec .rti t = .next u ∧ u.pc = w ∧ u.sp = sp ∧ u.status = flagsOnly status := by
  have h1 := stacked_wf sp (BitVec.ofNat 8 (w.toNat / 256)) hwf
  have h2 := stacked_wf (sp - 1) (BitVec.ofNat 8 w.toNat) h1
  have e1 : sp - 3 + 1 = sp - 2 := by bv_omega
  have e2 : sp - 3 + 2 = sp - 1 := by bv_omega
  have e3 : sp - 3 + 3 = sp := by bv_omega
  have hpulled (n : Byte) : pulled (impliedMode t) n = memRead (stackedFrame ram sp w status) (256 + (sp - 3 + n).toNat) := by
    rw [← hram, ← hsp]; rfl
  have p1 : pulled (impliedMode t) 1 = status := by
    rw [hpulled, e1, stackedFrame, memRead_stacked _ _ _ h2, if_pos rfl]
  have p2 : pulled (impliedMode t) 2 = BitVec.ofNat 8 w.toNat := by
    rw [hpulled, e2, stackedFrame, memRead_stacked _ _ _ h2, if_neg (by bv_omega), memRead_stacked _ _ _ h1, if_pos rfl]
  have p3 : pulled (impliedMode t) 3 = BitVec.ofNat 8 (w.toNat / 256) := by
    rw [hpulled, e3, stackedFrame, memRead_stacked _ _ _ h2, if_neg (by bv_omega), memRead_stacked _ _ _ h1,
      if_neg (by bv_omega), memRead_stacked _ _ _ hwf, if_pos rfl]
  refine ⟨_, rfl, ?_⟩
  rw [returnFromInterrupt_eq_pulled, p1, p2, p3]
  exact ⟨ofNat_halves w, by rw [impliedMode_sp, hsp, e3], rfl⟩

/-- 44 R213: RTS finds the word and the stack pointer of the push, and touches neither status nor a, x, y. -/
theorem exec_rts_of_stacked {t : State} {ram : Memory} {sp : Byte} {w : Word} (hwf : Memory.wf 2048 ram = true)
    (hram : t.ram = stacked (stacked ram sp (BitVec.ofNat 8 (w.toNat / 256))) (sp - 1) (BitVec.ofNat 8 w.toNat))
    (hsp : t.sp = sp - 2) :
    exec .rts t = .next { t with fetched := t.a, sp := sp, pc := w + 1 } := by
  have h1 := stacked_wf sp (BitVec.ofNat 8 (w.toNat / 256)) hwf
  have e1 : sp - 2 + 1 = sp - 1 := by bv_omega
  have e2 : sp - 2 + 2 = sp := by bv_omega
  have p1 : pulled t 1 = BitVec.ofNat 8 w.toNat := by
    rw [pulled, hram, hsp, e1, memRead_stacked _ _ _ h1, if_pos rfl]
  have p2 : pulled t 2 = BitVec.ofNat 8 (w.toNat / 256) := by
    rw [pulled, hram, hsp, e2, memRead_stacked _ _ _ h1, if_neg (by bv_omega), memRead_stacked _ _ _ hwf, if_pos rfl]
  obtain ⟨-, hrts⟩ := rtsPullsAndReturns
  rw [hrts t, p1, p2, BitVec.ofNat_add, ofNat_halves, hsp, e2]
  rfl

/-- Settles O46: each entry leaves its word, its status byte and three bytes less on the stack, which `exec_rti_of_stackedFrame` finds
again; JSR leaves the word `pc - 1`, which `exec_rts_of_stacked` finds. -/
theorem returnsUndoEntries : Obligations.ReturnsUndoEntries := by
  unfold Obligations.ReturnsUndoEntries
  intro s hmem
  have hwf := ram_wf hmem
  refine ⟨?nmi, fun hclear => ?irq, ?brk, fun w => ?jsr⟩
  case nmi =>
    have hentry := nmiEntersTheHandler s
    obtain ⟨u, hu, hpc, hsp, hstatus⟩ := exec_rti_of_stackedFrame (t := enterNmi s) hwf (by rw [hentry]) (by rw [hentry])
    exact ⟨u, hu, hpc, hsp, by rw [hstatus, flagsOnly_statusOf, flagsOnly_eq_statusOf]⟩
  case irq =>
    have hentry := (irqEntersTheHandlerUnlessMasked s).2 hclear
    obtain ⟨u, hu, hpc, hsp, hstatus⟩ := exec_rti_of_stackedFrame (t := enterIrq s) hwf (by rw [hentry]) (by rw [hentry])
    exact ⟨u, hu, hpc, hsp, by rw [hstatus, flagsOnly_statusOf, flagsOnly_eq_statusOf, hclear]⟩
  case brk =>
    obtain ⟨t, hbrk, hram, hsp⟩ : ∃ t, exec .brk s = .next t ∧
        t.ram = stackedFrame s.ram s.sp (s.pc + 1) (pushedStatus s.status) ∧ t.sp = s.sp - 3 :=
      ⟨_, brkEntersTheHandler s, by rw [pushedStatus_eq_statusOf], rfl⟩
    obtain ⟨u, hu, hpc, hsp, hstatus⟩ := exec_rti_of_stackedFrame hwf hram hsp
    exact ⟨t, u, hbrk, hu, hpc, hsp, by
      rw [hstatus, pushedStatus_eq_statusOf, flagsOnly_statusOf, flagsOnly_eq_statusOf]⟩
  case jsr =>
    have hjsr : exec (.jsr w) s = .next { pushWord (s.pc - 1) { s with addrAbs := w } with pc := w } := rfl
    rw [pushWord_eq_stacked] at hjsr
    refine ⟨_, _, hjsr, exec_rts_of_stacked hwf rfl rfl, ?_, rfl, rfl, rfl, rfl, rfl⟩
    exact BitVec.sub_add_cancel s.pc 1

end Sys2Proof.Proofs.Exceptions
end

section
/-!
The PPU's own bus (20_memory.md R70 to R76): one equation per range for a read and for a write, with the 14-bit address as a remainder,
and the obligations about the palette, the pattern range and the nametable range.
-/
namespace Sys2Proof.Proofs.PpuBus

open Sys2Proof Sys2Proof.Machine Sys2Proof.Proofs.MemoryMap

/-! ### Addresses -/

/-- R70, R71: the PPU bus has 14 address bits. -/
theorem and_3fff_toNat (addr : Word) : (addr &&& 0x3FFF).toNat = addr.toNat % 0x4000 :=
  toNat_and_lowMask addr 0x3FFF 14 rfl

/-- R72: the pattern range. -/
theorem and_3fff_le_1fff_iff (addr : Word) : addr &&& 0x3FFF ≤ 0x1FFF ↔ addr.toNat % 0x4000 ≤ 0x1FFF := by
  rw [BitVec.le_def, and_3fff_toNat]
  rfl

/-- R75: the end of the nametable range. -/
theorem and_3fff_le_3eff_iff (addr : Word) : addr &&& 0x3FFF ≤ 0x3EFF ↔ addr.toNat % 0x4000 ≤ 0x3EFF := by
  rw [BitVec.le_def, and_3fff_toNat]
  rfl

/-- R72: the cell of the pattern shadow. -/
theorem patternIndex_eq_mod (addr : Word) : patternIndex addr = addr.toNat % 0x2000 :=
  toNat_and_lowMask addr 0x1FFF 13 rfl

theorem patternIndex_and_3fff {addr : Word} (h : addr.toNat % 0x4000 ≤ 0x1FFF) :
    patternIndex (addr &&& 0x3FFF) = addr.toNat % 0x4000 := by
  rw [patternIndex_eq_mod, and_3fff_toNat]
  omega

/-- R74: the palette cell of an address, by the remainder modulo 32, with four cells standing for four others. -/
def paletteCell (n : Nat) : Nat := if n % 32 ≥ 16 ∧ n % 4 = 0 then n % 32 - 16 else n % 32

theorem paletteIndex_eq_paletteCell (addr : Word) : paletteIndex addr = paletteCell addr.toNat := by
  have hlow : (addr &&& 0x1F).toNat = addr.toNat % 32 := toNat_and_lowMask addr 0x1F 5 rfl
  rw [paletteIndex, hlow, paletteCell]
  split <;> split <;> omega

theorem paletteIndex_and_3fff (addr : Word) : paletteIndex (addr &&& 0x3FFF) = paletteIndex addr := by
  rw [paletteIndex_eq_paletteCell, paletteIndex_eq_paletteCell, and_3fff_toNat, paletteCell, paletteCell]
  split <;> split <;> omega

/-! ### One range at a time -/

section
variable (cart : Option Cartridge) (p : Ppu) {addr : Word} (v : Byte)

/-- R72: with a cartridge the pattern range is CHR. -/
theorem ppuRead_chr (c : Cartridge) (h : addr.toNat % 0x4000 ≤ 0x1FFF) :
    ppuRead (some c) p addr = memRead c.chr (addr.toNat % 0x4000) := by
  have hlow := (and_3fff_le_1fff_iff addr).2 h
  simp only [ppuRead, ppuMapRead, if_pos hlow, and_3fff_toNat]
  rfl

/-- R72: without a cartridge the pattern range is the shadow. -/
theorem ppuRead_shadow (h : addr.toNat % 0x4000 ≤ 0x1FFF) :
    ppuRead none p addr = memRead p.pattern (addr.toNat % 0x4000) := by
  have hlow := (and_3fff_le_1fff_iff addr).2 h
  simp only [ppuRead, if_pos hlow, patternIndex_and_3fff h]
  rfl

theorem ppuWrite_pattern (h : addr.toNat % 0x4000 ≤ 0x1FFF) :
    ppuWrite p addr v = { p with pattern := memWrite p.pattern (addr.toNat % 0x4000) v } := by
  have hlow := (and_3fff_le_1fff_iff addr).2 h
  simp only [ppuWrite, if_pos hlow, patternIndex_and_3fff h]

/-- R75: nothing answers in the nametable range. -/
theorem ppuRead_nametable (hlo : 0x2000 ≤ addr.toNat % 0x4000) (hhi : addr.toNat % 0x4000 ≤ 0x3EFF) :
    ppuRead cart p addr = 0x00 := by
  have hpattern : ¬ addr &&& 0x3FFF ≤ 0x1FFF := mt (and_3fff_le_1fff_iff addr).1 (by omega)
  simp only [ppuRead, if_neg hpattern, if_pos ((and_3fff_le_3eff_iff addr).2 hhi)]

theorem ppuWrite_nametable (hlo : 0x2000 ≤ addr.toNat % 0x4000) (hhi : addr.toNat % 0x4000 ≤ 0x3EFF) :
    ppuWrite p addr v = p := by
  have hpattern : ¬ addr &&& 0x3FFF ≤ 0x1FFF := mt (and_3fff_le_1fff_iff addr).1 (by omega)
  simp only [ppuWrite, if_neg hpattern, if_pos ((and_3fff_le_3eff_iff addr).2 hhi)]

/-- R74: the rest is the palette. -/
theorem ppuRead_palette (h : 0x3F00 ≤ addr.toNat % 0x4000) :
    ppuRead cart p addr = memRead p.palette (paletteCell addr.toNat) := by
  have hpattern : ¬ addr &&& 0x3FFF ≤ 0x1FFF := mt (and_3fff_le_1fff_iff addr).1 (by omega)
  have hnametable : ¬ addr &&& 0x3FFF ≤ 0x3EFF := mt (and_3fff_le_3eff_iff addr).1 (by omega)
  simp only [ppuRead, if_neg hpattern, if_neg hnametable]
  rw [paletteIndex_and_3fff, paletteIndex_eq_paletteCell]

theorem ppuWrite_palette (h : 0x3F00 ≤ addr.toNat % 0x4000) :
    ppuWrite p addr v = { p with palette := memWrite p.palette (paletteIndex addr) v } := by
  have hpattern : ¬ addr &&& 0x3FFF ≤ 0x1FFF := mt (and_3fff_le_1fff_iff addr).1 (by omega)
  have hnametable : ¬ addr &&& 0x3FFF ≤ 0x3EFF := mt (and_3fff_le_3eff_iff addr).1 (by omega)
  simp only [ppuWrite, if_neg hpattern, if_neg hnametable, paletteIndex_and_3fff]

end

theorem palette_wf {p : Ppu} (h : p.wf = true) : Memory.wf 32 p.palette = true := by
  simp only [Ppu.wf, Bool.and_eq_true] at h
  exact h.1.1

theorem pattern_wf {p : Ppu} (h : p.wf = true) : Memory.wf 8192 p.pattern = true := by
  simp only [Ppu.wf, Bool.and_eq_true] at h
  exact h.1.2

/-- Settles O16: both accesses are accesses of the palette cell of their address, in a canonical palette. -/
theorem paletteIsMirrored : Obligations.PaletteIsMirrored := by
  unfold Obligations.PaletteIsMirrored
  intro cart p addr other v hwf haddr hother cell
  rw [ppuWrite_palette p v haddr, ppuRead_palette cart _ hother, ppuRead_palette cart _ hother,
    memRead_memWrite _ _ v (palette_wf hwf), paletteIndex_eq_paletteCell]
  rfl

/-- Settles O17: the pattern range is CHR or the canonical shadow, and the nametable range is neither read nor written. -/
theorem patternAndNametableRanges : Obligations.PatternAndNametableRanges := by
  unfold Obligations.PatternAndNametableRanges
  intro cart p addr other v
  refine ⟨fun hwf haddr hother => ⟨fun c => ppuRead_chr _ c hother, ?_⟩, fun hlo hhi =>
    ⟨ppuRead_nametable cart p hlo hhi, ppuWrite_nametable p v hlo hhi⟩⟩
  rw [ppuWrite_pattern p v haddr, ppuRead_shadow _ hother, ppuRead_shadow _ hother, memRead_memWrite _ _ v (pattern_wf hwf)]

end Sys2Proof.Proofs.PpuBus
end

section
/-!
The PPU's registers 2, 5 and 7, the unreadable ones, and the addresses at which nothing answers (20_memory.md R46, R47, R61 to R69, R77,
R82): each access of a register through the window, and the obligations about them.
-/
namespace Sys2Proof.Proofs.PpuRegisters

open Sys2Proof Sys2Proof.Machine Sys2Proof.Proofs.MemoryMap Sys2Proof.Proofs.PpuBus

/-! ### Undecoded addresses -/

/-- Below 0x8000, and without a cartridge anywhere, the cartridge does not answer a read (R41, R51). -/
theorem cartRead_unmapped {s : State} {addr : Word} (h : addr.toNat ≤ 0x7FFF ∨ s.cart = none) :
    (s.cart.bind fun c => cartRead c addr) = none := by
  rcases h with h | h
  · exact cartRead_low _ (by bv_omega)
  · rw [h]; rfl

/-- Below 0x8000, and without a cartridge anywhere, the cartridge does not answer a write (R42, R51). -/
theorem cartWrite_unmapped {s : State} {addr : Word} (v : Byte) (h : addr.toNat ≤ 0x7FFF ∨ s.cart = none) :
    (s.cart.bind fun c => cartWrite c addr v) = none := by
  rcases h with h | h
  · exact cartWrite_low _ _ (by bv_omega)
  · rw [h]; rfl

/-- Settles O7: neither the cartridge nor RAM nor the PPU window answers there. -/
theorem undecodedAddresses : Obligations.UndecodedAddresses := by
  unfold Obligations.UndecodedAddresses
  intro s addr v hhigh hcart
  have hram : ¬ addr ≤ 0x1FFF := by bv_omega
  have hwindow : ¬ addr ≤ 0x3FFF := by bv_omega
  constructor
  · simp only [busRead, cartRead_unmapped hcart, if_neg hram, if_neg hwindow]
  · simp only [busWrite, cartWrite_unmapped v hcart, if_neg hram, if_neg hwindow]

/-! ### Registers that give 0x00, and the scroll register -/

/-- R61: a register number other than 2 and 7 gives 0x00 and changes nothing. -/
theorem ppuRegRead_unreadable (cart : Option Cartridge) (p : Ppu) {r : Nat} (hr : r < 8) (h2 : r ≠ 2) (h7 : r ≠ 7) :
    ppuRegRead cart p (BitVec.ofNat 16 r) = (0x00, p) := by
  have hne2 : BitVec.ofNat 16 r ≠ 2 := by bv_omega
  have hne7 : BitVec.ofNat 16 r ≠ 7 := by bv_omega
  rw [ppuRegRead, if_neg hne2, if_neg hne7]

theorem busRead_unreadable {addr : Word} (s : State) (hw : inPpuWindow addr = true) (h2 : addr.toNat % 8 ≠ 2)
    (h7 : addr.toNat % 8 ≠ 7) : busRead addr s = (0x00, s) := by
  rw [busRead_window s hw rfl, ppuRegRead_unreadable _ _ (Nat.mod_lt _ (by decide)) h2 h7]

/-- Settles O11: the unreadable registers by `busRead_unreadable`; register 5 is the latch through the window. -/
theorem unreadableRegistersAndScroll : Obligations.UnreadableRegistersAndScroll := by
  unfold Obligations.UnreadableRegistersAndScroll
  exact fun s addr v hw => ⟨busRead_unreadable s hw, busWrite_window v s hw⟩

/-! ### Register 2 -/

/-- A read of any mirror of register 2 is `ppuReadStatus` (R63). -/
theorem busRead_register2 {addr : Word} (s : State) (hw : inPpuWindow addr = true) (hr : addr.toNat % 8 = 2) :
    busRead addr s = ((ppuReadStatus s.ppu).1, { s with ppu := (ppuReadStatus s.ppu).2 }) :=
  busRead_window s hw hr

/-- Settles O12: register 2 through the window, its two masks bit by bit. -/
theorem statusRegisterRead : Obligations.StatusRegisterRead := by
  unfold Obligations.StatusRegisterRead
  intro s addr hw hr
  rw [busRead_register2 s hw hr]
  refine ⟨fun k hk => ?merged, s.ppu.status &&& 0x7F, fun k hk => ?cleared, rfl⟩
  case merged =>
    rw [ppuReadStatus, BitVec.getLsbD_or, BitVec.getLsbD_and, BitVec.getLsbD_and]
    interval_cases k <;> simp
  case cleared =>
    rw [BitVec.getLsbD_and]
    interval_cases k <;> simp

/-! ### Register 7 -/

/-- A read of any mirror of register 7 is `ppuReadData` (R68). -/
theorem busRead_register7 {addr : Word} (s : State) (hw : inPpuWindow addr = true) (hr : addr.toNat % 8 = 7) :
    busRead addr s = ((ppuReadData s.cart s.ppu).1, { s with ppu := (ppuReadData s.cart s.ppu).2 }) :=
  busRead_window s hw hr

/-- R68: the delayed read, with the pointer compared as a natural. -/
theorem ppuReadData_eq (cart : Option Cartridge) (p : Ppu) :
    ppuReadData cart p = ((if 0x3F00 ≤ p.addrReg.toNat then ppuRead cart p p.addrReg else p.dataBuffer),
      { p with dataBuffer := ppuRead cart p p.addrReg, addrReg := p.addrReg + 1 }) := rfl

/-- Settles O14: register 7 through the window; of two reads the second gives what the first has put into the buffer. -/
theorem dataRegisterRead : Obligations.DataRegisterRead := by
  unfold Obligations.DataRegisterRead
  intro s addr addr' hw hr
  have hread := busRead_register7 s hw hr
  rw [ppuReadData_eq] at hread
  refine ⟨hread, fun c hcart hlow hw' hr' => ?_⟩
  have hfirst : ¬ 0x3F00 ≤ s.ppu.addrReg.toNat := by omega
  have hsecond : ¬ 0x3F00 ≤ (s.ppu.addrReg + 1).toNat := by bv_omega
  have hmod : s.ppu.addrReg.toNat % 0x4000 = s.ppu.addrReg.toNat := Nat.mod_eq_of_lt (by omega)
  rw [hread, busRead_register7 _ hw' hr', ppuReadData_eq, if_neg hfirst, if_neg hsecond, hcart,
    ppuRead_chr _ c (by omega), hmod]
  exact ⟨rfl, rfl⟩

/-- Settles O15: register 7 through the window is a PPU-bus write at the pointer, by the range it is in. -/
theorem dataRegisterWrite : Obligations.DataRegisterWrite := by
  unfold Obligations.DataRegisterWrite
  intro s addr v hw hr a
  have hwrite : busWrite addr v s = { s with ppu := ppuWriteData s.ppu v } := busWrite_window v s hw hr
  rw [hwrite, ppuWriteData]
  by_cases hpattern : a ≤ 0x1FFF
  · rw [ppuWrite_pattern s.ppu v hpattern, if_pos hpattern, if_neg (by omega)]
  rw [if_neg hpattern]
  by_cases hnametable : a ≤ 0x3EFF
  · rw [ppuWrite_nametable s.ppu v (by omega) hnametable, if_neg (by omega)]
  · rw [ppuWrite_palette s.ppu v (by omega), if_pos (by omega)]

/-! ### What a read can change (R77, R82) -/

/-- Outside the window a read gives the byte a look finds (R77). -/
theorem busPeek_outside {addr : Word} (s : State) (h : inPpuWindow addr = false) :
    busPeek addr s = some (busRead addr s).1 := by
  have hwindow : ¬ (¬ addr ≤ 0x1FFF ∧ addr ≤ 0x3FFF) := fun hin => by
    have hout := mt (inPpuWindow_iff addr).2 (by simp [h])
    exact hout (by bv_omega)
  simp only [busPeek, busRead]
  split
  · rfl
  · split
    · rfl
    · next hram => rw [if_neg fun hle => hwindow ⟨hram, hle⟩, if_neg fun hle => hwindow ⟨hram, hle⟩]

/-- Settles O9: outside the window `busRead_pure`, inside it `busRead_unreadable`; the debugger's read by its two cases. -/
theorem readSideEffects : Obligations.ReadSideEffects := by
  unfold Obligations.ReadSideEffects
  intro s addr n
  refine ⟨fun hquiet => ?_, fun hout => ?_, rfl, rfl⟩
  · by_cases hw : inPpuWindow addr = true
    · rw [busRead_unreadable s hw (fun h2 => hquiet ⟨hw, .inl h2⟩) (fun h7 => hquiet ⟨hw, .inr h7⟩)]
    · exact busRead_pure addr s fun hin => hw ((inPpuWindow_iff addr).2 hin)
  · have hpeek := busPeek_outside s hout
    exact ⟨hpeek, by rw [debugRead, if_pos rfl, hpeek]; rfl⟩

end Sys2Proof.Proofs.PpuRegisters
end

section
/-!
What an instruction leaves alone (10_state.md R10 to R20): the shape of each shared operation's result as a record update, the frame of
every instruction in one structure, and the obligations about registers, flags and clocks, which are its fields.
-/
namespace Sys2Proof.Proofs.Frames

open Sys2Proof Sys2Proof.Machine Sys2Proof.Proofs.Operands Sys2Proof.Proofs.Registers Sys2Proof.Proofs.Subroutine
  Sys2Proof.Proofs.InterruptReturn Sys2Proof.Proofs.Jumps Sys2Proof.Proofs.Exceptions

/-! ### Shared operations as record updates -/

theorem addrMode_shape (m : Operand) (s : State) :
    ∃ crossed f addr p, addrMode m s = (crossed, { s with fetched := f, addrAbs := addr, ppu := p }) :=
  ⟨_, _, _, _, Prod.ext rfl (addrMode_frame m s)⟩

theorem fetchOperand_shape (m : Operand) (s : State) :
    ∃ v f p, fetchOperand m s = (v, { s with fetched := f, ppu := p }) :=
  ⟨_, _, _, Prod.ext rfl (fetchOperand_frame m s)⟩

/-- Reading an operand sets the scratch, may change the PPU and adds at most the page-cross cycle (40 R112, R113). -/
theorem readOperand_shape (sensitive : Bool) (m : Operand) (s : State) :
    ∃ v f addr p c, c ≤ 1 ∧ readOperand sensitive m s =
      (v, { s with fetched := f, addrAbs := addr, ppu := p, cyclesRemaining := s.cyclesRemaining + c }) := by
  obtain ⟨crossed, f, addr, p, hmode⟩ := addrMode_shape m s
  obtain ⟨v, f', p', hfetch⟩ := fetchOperand_shape m { s with fetched := f, addrAbs := addr, ppu := p }
  rw [readOperand, hmode]
  simp only [hfetch]
  cases crossed && sensitive
  · exact ⟨_, _, _, _, 0, Nat.zero_le 1, rfl⟩
  · exact ⟨_, _, _, _, 1, Nat.le_refl 1, rfl⟩

theorem busWrite_shape (addr : Word) (v : Byte) (s : State) :
    ∃ ram cart p, busWrite addr v s = { s with ram := ram, cart := cart, ppu := p } :=
  ⟨_, _, _, busWrite_frame addr v s⟩

/-! ### Flags (10_state.md R15) -/

/-- Putting a flag of a mask keeps the bits outside it. -/
theorem putFlag_and_not {flag mask : Byte} (f : Bool) (p : Byte) (h : flag &&& ~~~mask = 0) :
    putFlag flag f p &&& ~~~mask = p &&& ~~~mask := by
  refine BitVec.eq_of_getLsbD_eq fun j hj => ?_
  have hbit : (flag.getLsbD j && !mask.getLsbD j) = false := by
    simpa [hj] using congrArg (BitVec.getLsbD · j) h
  cases f <;> simp only [putFlag, BitVec.getLsbD_and, BitVec.getLsbD_not, hj] <;> grind

theorem znStatus_and_not {mask : Byte} (v p : Byte) (h : 0x82 &&& ~~~mask = 0) :
    znStatus v p &&& ~~~mask = p &&& ~~~mask := by
  have hsub (flag : Byte) (hflag : flag &&& 0x82 = flag) : flag &&& ~~~mask = 0 := by
    rw [← hflag, BitVec.and_assoc, h]
    exact BitVec.and_zero
  rw [znStatus, putFlag_and_not _ _ (hsub flagN rfl), putFlag_and_not _ _ (hsub flagZ rfl)]

theorem znStatus_and_not_82 (v p : Byte) : znStatus v p &&& ~~~(0x82 : Byte) = p &&& ~~~(0x82 : Byte) :=
  znStatus_and_not v p (by decide)

theorem adcStatus_and_not (a v p : Byte) : adcStatus a v p &&& ~~~(0xC3 : Byte) = p &&& ~~~(0xC3 : Byte) := by
  rw [adcStatus, putFlag_and_not _ _ (by decide), znStatus_and_not _ _ (by decide), putFlag_and_not _ _ (by decide)]

theorem compareStatus_and_not (r v p : Byte) : compareStatus r v p &&& ~~~(0x83 : Byte) = p &&& ~~~(0x83 : Byte) := by
  rw [compareStatus, znStatus_and_not _ _ (by decide), putFlag_and_not _ _ (by decide)]

theorem bitStatus_and_not (a v p : Byte) : bitStatus a v p &&& ~~~(0xC2 : Byte) = p &&& ~~~(0xC2 : Byte) := by
  rw [bitStatus, putFlag_and_not _ _ (by decide), putFlag_and_not _ _ (by decide), putFlag_and_not _ _ (by decide)]

theorem shiftStatus_and_not (r : Shifted) (p : Byte) : shiftStatus r p &&& ~~~(0x83 : Byte) = p &&& ~~~(0x83 : Byte) := by
  rw [shiftStatus, znStatus_and_not _ _ (by decide), putFlag_and_not _ _ (by decide)]

/-! ### The frame of every instruction -/

/-- What an instruction keeps: the registers, the flags and the clocks that the rules do not name it for. -/
structure ExecFrame (i : Instr) (s t : State) : Prop where
  a : writesA i = false → t.a = s.a
  x : writesX i = false → t.x = s.x
  y : writesY i = false → t.y = s.y
  pc : writesPc i = false → t.pc = s.pc
  sp : i ≠ .txs → t.sp = s.sp - BitVec.ofNat 8 (pushCount i) + BitVec.ofNat 8 (pullCount i)
  flags : t.status &&& ~~~(writtenFlags i) = s.status &&& ~~~(writtenFlags i)
  cycles : s.cyclesRemaining ≤ t.cyclesRemaining ∧ t.cyclesRemaining ≤ s.cyclesRemaining + 2
  clocks : t.opcode = s.opcode ∧ t.systemClock = s.systemClock ∧ t.dot = s.dot ∧ t.scanline = s.scanline ∧
    t.frameComplete = s.frameComplete ∧ t.everReset = s.everReset ∧ t.env = s.env

theorem sp_kept (sp : Byte) : sp = sp - BitVec.ofNat 8 0 + BitVec.ofNat 8 0 := by simp

theorem sp_down (sp : Byte) (n : Nat) : sp - BitVec.ofNat 8 n = sp - BitVec.ofNat 8 n + BitVec.ofNat 8 0 := by simp

theorem sp_up (sp : Byte) (n : Nat) : sp + BitVec.ofNat 8 n = sp - BitVec.ofNat 8 0 + BitVec.ofNat 8 n := by simp

theorem branchCycles_le (taken : Bool) (far : Prop) [Decidable far] :
    (if taken then (if far then 2 else 1) else 0) ≤ 2 := by
  split
  · split <;> omega
  · omega

theorem and_not_ff (p q : Byte) : p &&& ~~~(0xFF : Byte) = q &&& ~~~(0xFF : Byte) := by simp

/-- A record update that adds at most two cycles has the frame of `i` if the registers and flags it sets are those of `i`. -/
theorem execFrame_of_update {i : Instr} {s : State} {a x y sp p f : Byte} {pc addr rel : Word} {c : Nat} {ram : Memory}
    {cart : Option Cartridge} {ppu : Ppu} (ha : writesA i = false → a = s.a) (hx : writesX i = false → x = s.x)
    (hy : writesY i = false → y = s.y) (hpc : writesPc i = false → pc = s.pc)
    (hsp : i ≠ .txs → sp = s.sp - BitVec.ofNat 8 (pushCount i) + BitVec.ofNat 8 (pullCount i))
    (hflags : p &&& ~~~(writtenFlags i) = s.status &&& ~~~(writtenFlags i)) (hc : c ≤ 2) :
    ExecFrame i s { s with
      a := a, x := x, y := y, sp := sp, pc := pc, status := p, fetched := f, addrAbs := addr, addrRel := rel
      cyclesRemaining := s.cyclesRemaining + c, ram := ram, cart := cart, ppu := ppu } where
  a := ha
  x := hx
  y := hy
  pc := hpc
  sp := hsp
  flags := hflags
  cycles := ⟨Nat.le_add_right _ _, Nat.add_le_add_left hc _⟩
  clocks := ⟨rfl, rfl, rfl, rfl, rfl, rfl, rfl⟩

theorem exec_frame (i : Instr) (s : State) : ∃ t, exec i s = .next t ∧ ExecFrame i s t := by
  have kept {α : Type} {r : α} {b : Bool} (_ : b = false) : r = r := rfl
  have hzero : (0 : Nat) ≤ 2 := by decide
  cases i with
  | adc m | sbc m =>
    obtain ⟨v, f, addr, p, c, hc, hread⟩ := readOperand_shape true m s
    refine ⟨_, rfl, ?_⟩
    simp only [hread]
    exact execFrame_of_update nofun kept kept kept (fun _ => sp_kept _) (adcStatus_and_not _ _ _) (by omega)
  | and m | ora m | eor m | lda m =>
    obtain ⟨v, f, addr, p, c, hc, hread⟩ := readOperand_shape true m s
    refine ⟨_, rfl, ?_⟩
    simp only [hread]
    exact execFrame_of_update nofun kept kept kept (fun _ => sp_kept _) (znStatus_and_not_82 _ _) (by omega)
  | ldx m =>
    obtain ⟨v, f, addr, p, c, hc, hread⟩ := readOperand_shape true m s
    refine ⟨_, rfl, ?_⟩
    simp only [hread]
    exact execFrame_of_update kept nofun kept kept (fun _ => sp_kept _) (znStatus_and_not_82 _ _) (by omega)
  | ldy m =>
    obtain ⟨v, f, addr, p, c, hc, hread⟩ := readOperand_shape true m s
    refine ⟨_, rfl, ?_⟩
    simp only [hread]
    exact execFrame_of_update kept kept nofun kept (fun _ => sp_kept _) (znStatus_and_not_82 _ _) (by omega)
  | bit m =>
    obtain ⟨v, f, addr, p, c, hc, hread⟩ := readOperand_shape false m s
    refine ⟨_, rfl, ?_⟩
    simp only [hread]
    exact execFrame_of_update kept kept kept kept (fun _ => sp_kept _) (bitStatus_and_not _ _ _) (by omega)
  | cmp m =>
    obtain ⟨v, f, addr, p, c, hc, hread⟩ := readOperand_shape true m s
    refine ⟨_, rfl, ?_⟩
    simp only [hread]
    exact execFrame_of_update kept kept kept kept (fun _ => sp_kept _) (compareStatus_and_not _ _ _) (by omega)
  | cpx m | cpy m =>
    obtain ⟨v, f, addr, p, c, hc, hread⟩ := readOperand_shape false m s
    refine ⟨_, rfl, ?_⟩
    simp only [hread]
    exact execFrame_of_update kept kept kept kept (fun _ => sp_kept _) (compareStatus_and_not _ _ _) (by omega)
  | asl m | lsr m | rol m | ror m =>
    obtain ⟨v, f, addr, p, c, hc, hread⟩ := readOperand_shape false m s
    refine ⟨_, rfl, ?_⟩
    simp only [shiftOperand, hread]
    by_cases hacc : m = .acc
    · subst hacc
      exact execFrame_of_update nofun kept kept kept (fun _ => sp_kept _) (shiftStatus_and_not _ _) (by omega)
    · rw [writeBack_eq _ _ hacc]
      obtain ⟨ram, cart, p, hwrite⟩ := busWrite_shape addr _ _
      rw [hwrite]
      exact execFrame_of_update kept kept kept kept (fun _ => sp_kept _) (shiftStatus_and_not _ _) (by omega)
  | inc m | dec m =>
    obtain ⟨v, f, addr, p, c, hc, hread⟩ := readOperand_shape false m s
    refine ⟨_, rfl, ?_⟩
    simp only [modifyMemory, hread]
    obtain ⟨ram, cart, p, hwrite⟩ := busWrite_shape addr _ _
    rw [hwrite]
    exact execFrame_of_update kept kept kept kept (fun _ => sp_kept _) (znStatus_and_not_82 _ _) (by omega)
  | sta m | stx m | sty m =>
    obtain ⟨crossed, f, addr, p, hmode⟩ := addrMode_shape m s
    refine ⟨_, rfl, ?_⟩
    simp only [storeOperand, hmode]
    obtain ⟨ram, cart, p, hwrite⟩ := busWrite_shape addr _ _
    rw [hwrite]
    exact execFrame_of_update (c := 0) kept kept kept kept (fun _ => sp_kept _) rfl hzero
  | bcc d | bcs d | beq d | bmi d | bne d | bpl d | bvc d | bvs d =>
    refine ⟨_, congrArg Host.Outcome.next (branch_eq_afterBranch _ d s), ?_⟩
    exact execFrame_of_update kept kept kept nofun (fun _ => sp_kept _) rfl (branchCycles_le _ _)
  | jmp m =>
    obtain ⟨crossed, f, addr, p, hmode⟩ := addrMode_shape m s
    refine ⟨_, rfl, ?_⟩
    simp only [hmode]
    exact execFrame_of_update (c := 0) kept kept kept nofun (fun _ => sp_kept _) rfl hzero
  | clc | sec | cli | sei | cld | sed | clv =>
    exact ⟨_, rfl, execFrame_of_update (c := 0) kept kept kept kept (fun _ => sp_kept _) (putFlag_and_not _ _ (by decide)) hzero⟩
  | inx | dex | tax | tsx =>
    exact ⟨_, rfl, execFrame_of_update (c := 0) kept nofun kept kept (fun _ => sp_kept _) (znStatus_and_not_82 _ _) hzero⟩
  | iny | dey | tay =>
    exact ⟨_, rfl, execFrame_of_update (c := 0) kept kept nofun kept (fun _ => sp_kept _) (znStatus_and_not_82 _ _) hzero⟩
  | txa | tya =>
    exact ⟨_, rfl, execFrame_of_update (c := 0) nofun kept kept kept (fun _ => sp_kept _) (znStatus_and_not_82 _ _) hzero⟩
  | txs =>
    exact ⟨_, rfl, execFrame_of_update (c := 0) kept kept kept kept (fun h => absurd rfl h) rfl hzero⟩
  | nop | nopUnofficial op =>
    exact ⟨_, rfl, execFrame_of_update (c := 0) kept kept kept kept (fun _ => sp_kept _) rfl hzero⟩
  | pha =>
    obtain ⟨hpha, -, -, -⟩ := pushesAndPullsMoveOneByte s
    exact ⟨_, hpha, execFrame_of_update (c := 0) kept kept kept kept (fun _ => sp_down s.sp 1) rfl hzero⟩
  | php =>
    obtain ⟨-, hphp, -, -⟩ := pushesAndPullsMoveOneByte s
    exact ⟨_, hphp, execFrame_of_update (c := 0) kept kept kept kept (fun _ => sp_down s.sp 1) rfl hzero⟩
  | pla =>
    obtain ⟨-, -, hpla, -⟩ := pushesAndPullsMoveOneByte s
    rw [← znStatus_eq] at hpla
    exact ⟨_, hpla, execFrame_of_update (c := 0) nofun kept kept kept (fun _ => sp_up s.sp 1) (znStatus_and_not_82 _ _) hzero⟩
  | plp =>
    obtain ⟨-, -, -, hplp⟩ := pushesAndPullsMoveOneByte s
    exact ⟨_, hplp, execFrame_of_update (c := 0) kept kept kept kept (fun _ => sp_up s.sp 1) (and_not_ff _ _) hzero⟩
  | jsr w =>
    obtain ⟨-, hjsr⟩ := jsrPushesAndJumps w s
    exact ⟨_, hjsr, execFrame_of_update (c := 0) kept kept kept nofun (fun _ => sp_down s.sp 2) rfl hzero⟩
  | rts =>
    obtain ⟨-, hrts⟩ := rtsPullsAndReturns
    exact ⟨_, hrts s, execFrame_of_update (c := 0) kept kept kept nofun (fun _ => sp_up s.sp 2) rfl hzero⟩
  | brk =>
    have hbrk : exec .brk s = .next _ := congrArg Host.Outcome.next
      (enterHandler_eq_stackedFrame (pushedStatus s.status) s.status (vector := Config.irqVector)
        { impliedMode s with pc := s.pc + 1 } (by decide) (by decide))
    exact ⟨_, hbrk, execFrame_of_update (c := 0) kept kept kept nofun (fun _ => sp_down s.sp 3)
      (putFlag_and_not (flag := flagI) true _ (by decide)) hzero⟩
  | rti =>
    obtain ⟨-, hrti⟩ := rtiRestoresStatusAndPc
    exact ⟨_, hrti s, execFrame_of_update (c := 0) kept kept kept nofun (fun _ => sp_up s.sp 3) (and_not_ff _ _) hzero⟩

/-- Every instruction gives a next state (60_exceptions.md R250), and it is framed. -/
theorem execFrame_of_next {i : Instr} {s t : State} (h : exec i s = .next t) : ExecFrame i s t := by
  obtain ⟨u, hu, hframe⟩ := exec_frame i s
  obtain rfl : u = t := Host.Outcome.next.inj (hu.symm.trans h)
  exact hframe

/-- Settles O40: the register fields of the frame. -/
theorem registerFrame : Obligations.RegisterFrame := by
  unfold Obligations.RegisterFrame
  intro i s t h
  have hframe := execFrame_of_next h
  exact ⟨hframe.a, hframe.x, hframe.y, hframe.pc, hframe.sp⟩

/-- Settles O41: the flags of the frame. -/
theorem flagFrame : Obligations.FlagFrame := by
  unfold Obligations.FlagFrame
  exact fun i s t h => (execFrame_of_next h).flags

/-- Settles O43: the clocks of the frame. -/
theorem clockFrame : Obligations.ClockFrame := by
  unfold Obligations.ClockFrame
  intro i s t h
  have hframe := execFrame_of_next h
  obtain ⟨hopcode, hclock, hdot, hline, hframeComplete, hreset, henv⟩ := hframe.clocks
  exact ⟨hopcode, hclock, hdot, hline, hframeComplete, hreset, henv, hframe.cycles⟩

end Sys2Proof.Proofs.Frames
end

section
/-!
What an instruction does to the memories (20_memory.md R40 to R69; 40_fetch_execute_and_addressing.md R129): reads that change at most
the PPU's registers 2 and 7, one store, or pushes; and the obligation about the bytes that stay as they were.
-/
namespace Sys2Proof.Proofs.MemoryEffects

open Sys2Proof Sys2Proof.Machine Sys2Proof.Proofs.MemoryMap Sys2Proof.Proofs.PpuBus Sys2Proof.Proofs.PpuRegisters Sys2Proof.Proofs.Operands
  Sys2Proof.Proofs.Subroutine Sys2Proof.Proofs.InterruptReturn Sys2Proof.Proofs.Jumps Sys2Proof.Proofs.Exceptions

/-! ### Reads -/

/-- What any number of register reads can do to the PPU: latch, pointer and buffer aside, they can only clear bits of the status (R63,
R68). -/
structure PpuReads (p q : Ppu) : Prop where
  ctrl : q.ctrl = p.ctrl
  mask : q.mask = p.mask
  palette : q.palette = p.palette
  pattern : q.pattern = p.pattern
  status : q.status &&& ~~~p.status = 0

theorem and_not_self (p : Byte) : p &&& ~~~p = 0 := by simp

theorem PpuReads.refl (p : Ppu) : PpuReads p p := ⟨rfl, rfl, rfl, rfl, and_not_self _⟩

/-- Bits that are only lost twice are only lost. -/
theorem and_not_trans {p q r : Byte} (hpq : q &&& ~~~p = 0) (hqr : r &&& ~~~q = 0) : r &&& ~~~p = 0 := by
  refine BitVec.eq_of_getLsbD_eq fun j hj => ?_
  have h1 : (q.getLsbD j && !p.getLsbD j) = false := by simpa [hj] using congrArg (BitVec.getLsbD · j) hpq
  have h2 : (r.getLsbD j && !q.getLsbD j) = false := by simpa [hj] using congrArg (BitVec.getLsbD · j) hqr
  rw [BitVec.getLsbD_and, BitVec.getLsbD_not, show (0 : Byte).getLsbD j = false from BitVec.getLsbD_zero]
  grind

theorem PpuReads.trans {p q r : Ppu} (h : PpuReads p q) (h' : PpuReads q r) : PpuReads p r :=
  ⟨h'.ctrl.trans h.ctrl, h'.mask.trans h.mask, h'.palette.trans h.palette, h'.pattern.trans h.pattern,
    and_not_trans h.status h'.status⟩

theorem and_7f_and_not_self (p : Byte) : p &&& 0x7F &&& ~~~p = 0 := by
  rw [BitVec.and_assoc, BitVec.and_comm 0x7F, ← BitVec.and_assoc, and_not_self]
  exact BitVec.zero_and

theorem ppuReads_ppuRegRead (cart : Option Cartridge) (p : Ppu) (r : Word) : PpuReads p (ppuRegRead cart p r).2 := by
  rw [ppuRegRead]
  split
  · exact ⟨rfl, rfl, rfl, rfl, and_7f_and_not_self _⟩
  · split
    · exact ⟨rfl, rfl, rfl, rfl, and_not_self _⟩
    · exact PpuReads.refl p

/-- A state that bus reads can lead to, other fields aside. -/
structure ReadsOnly (s t : State) : Prop where
  ram : t.ram = s.ram
  cart : t.cart = s.cart
  ppu : PpuReads s.ppu t.ppu

theorem ReadsOnly.refl (s : State) : ReadsOnly s s := ⟨rfl, rfl, PpuReads.refl _⟩

theorem ReadsOnly.trans {s t u : State} (h : ReadsOnly s t) (h' : ReadsOnly t u) : ReadsOnly s u :=
  ⟨h'.ram.trans h.ram, h'.cart.trans h.cart, h.ppu.trans h'.ppu⟩

/-- Two states with the same memories. -/
structure SameMemories (s t : State) : Prop where
  ram : t.ram = s.ram
  cart : t.cart = s.cart
  ppu : t.ppu = s.ppu

theorem SameMemories.refl (s : State) : SameMemories s s := ⟨rfl, rfl, rfl⟩

theorem SameMemories.readsOnly {s t : State} (h : SameMemories s t) : ReadsOnly s t :=
  ⟨h.ram, h.cart, h.ppu ▸ PpuReads.refl _⟩

/-- Registers, scratch and counters are no part of the memories. -/
theorem sameMemories_of_rfl {s t : State} (hram : t.ram = s.ram := by rfl) (hcart : t.cart = s.cart := by rfl)
    (hppu : t.ppu = s.ppu := by rfl) : SameMemories s t := ⟨hram, hcart, hppu⟩

theorem readsOnly_busRead (addr : Word) (s : State) : ReadsOnly s (busRead addr s).2 := by
  simp only [busRead]
  split
  · exact ReadsOnly.refl s
  · split
    · exact ReadsOnly.refl s
    · split
      · exact ⟨rfl, rfl, ppuReads_ppuRegRead _ _ _⟩
      · exact ReadsOnly.refl s

theorem readsOnly_addrMode (m : Operand) (s : State) : ReadsOnly s (addrMode m s).2 := by
  cases m with
  | ind w =>
    have hread := (readsOnly_busRead w s).trans (readsOnly_busRead (indirectHighAddr w) _)
    exact hread.trans (sameMemories_of_rfl).readsOnly
  | izx b | izy b =>
    rw [addrMode, readZeroPageWord_eq_zeroPageWord]
    exact (sameMemories_of_rfl).readsOnly
  | _ => exact (sameMemories_of_rfl).readsOnly

theorem readsOnly_fetchOperand (m : Operand) (s : State) : ReadsOnly s (fetchOperand m s).2 := by
  cases m with
  | acc => exact ReadsOnly.refl s
  | imm v => exact (sameMemories_of_rfl).readsOnly
  | _ => exact (readsOnly_busRead s.addrAbs s).trans (sameMemories_of_rfl).readsOnly

theorem readsOnly_readOperand (sensitive : Bool) (m : Operand) (s : State) : ReadsOnly s (readOperand sensitive m s).2 := by
  have hread := (readsOnly_addrMode m s).trans (readsOnly_fetchOperand m (addrMode m s).2)
  rw [readOperand]
  refine hread.trans (SameMemories.readsOnly ?_)
  dsimp only
  split
  · exact sameMemories_of_rfl
  · exact sameMemories_of_rfl

/-! ### Pushes -/

/-- The RAM after bytes have been pushed, one below the other (10_state.md R13). -/
def stackedAll (ram : Memory) (sp : Byte) : List Byte → Memory
  | [] => ram
  | v :: vs => stackedAll (stacked ram sp v) (sp - 1) vs

theorem stackedAll_wf {ram : Memory} (sp : Byte) (vs : List Byte) (h : Memory.wf 2048 ram = true) :
    Memory.wf 2048 (stackedAll ram sp vs) = true := by
  induction vs generalizing ram sp with
  | nil => exact h
  | cons v vs ih => exact ih (sp - 1) (stacked_wf sp v h)

/-- The three bytes of an entry (60_exceptions.md R254). -/
theorem stackedFrame_eq_stackedAll (ram : Memory) (sp : Byte) (w : Word) (status : Byte) :
    stackedFrame ram sp w status = stackedAll ram sp [BitVec.ofNat 8 (w.toNat / 256), BitVec.ofNat 8 w.toNat, status] := by
  rw [stackedFrame, stackedAll, stackedAll, stackedAll, stackedAll, sub_one_sub_one]

/-- Pushes leave every cell alone but the ones they go down through. -/
theorem memRead_stackedAll_other (ram : Memory) (sp : Byte) (vs : List Byte) {j : Nat}
    (h : ∀ k, k < vs.length → j ≠ 256 + (sp - BitVec.ofNat 8 k).toNat) :
    memRead (stackedAll ram sp vs) j = memRead ram j := by
  induction vs generalizing ram sp with
  | nil => rfl
  | cons v vs ih =>
    have hhead : j ≠ 256 + sp.toNat := by simpa using h 0 (by simp)
    have htail : ∀ k, k < vs.length → j ≠ 256 + (sp - 1 - BitVec.ofNat 8 k).toNat := fun k hk => by
      have hstep : sp - 1 - BitVec.ofNat 8 k = sp - BitVec.ofNat 8 (k + 1) := by
        rw [BitVec.ofNat_add]
        bv_omega
      rw [hstep]
      exact h (k + 1) (by simpa using hk)
    rw [stackedAll, ih _ _ htail, stacked, memRead_memWrite_other _ _ hhead]

/-! ### The effect of an instruction -/

/-- One byte goes over the bus to an address, and before it at most reads. -/
def StoresAt (addr : Word) (s t : State) : Prop :=
  ∃ u v, ReadsOnly s u ∧ SameMemories (busWrite addr v u) t

theorem storesAt_busWrite (addr : Word) (v : Byte) {s u : State} (h : ReadsOnly s u) :
    StoresAt addr s (busWrite addr v u) :=
  ⟨u, v, h, sameMemories_of_rfl⟩

/-- So many bytes go on the stack, and besides them at most reads. -/
def PushesOnly (n : Nat) (s t : State) : Prop :=
  ∃ vs : List Byte, vs.length = n ∧ t.ram = stackedAll s.ram s.sp vs ∧ t.cart = s.cart ∧ PpuReads s.ppu t.ppu

theorem pushesOnly_of_readsOnly {s t : State} (h : ReadsOnly s t) : PushesOnly 0 s t :=
  ⟨[], rfl, h.ram, h.cart, h.ppu⟩

/-- A store where the operand form says so, pushes otherwise. -/
def MemoryEffect (i : Instr) (s t : State) : Prop :=
  match storeTarget i with
  | some m => StoresAt (operandAddr m s) s t
  | none => PushesOnly (pushCount i) s t

theorem readOperand_addrAbs (sensitive : Bool) {m : Operand} (s : State) (hind : m.mode ≠ .ind) :
    (readOperand sensitive m s).2.addrAbs = operandAddr m s := by
  rw [readOperand_eq sensitive s hind, afterRead_addrAbs]

/-- R128: a shift in memory stores at its effective address. -/
theorem storesAt_shiftOperand (f : Bool → Byte → Shifted) {m : Operand} (s : State) (hacc : m ≠ .acc)
    (hind : m.mode ≠ .ind) : StoresAt (operandAddr m s) s (shiftOperand f m s) := by
  have haddr := readOperand_addrAbs false s hind
  rw [shiftOperand, writeBack_eq _ _ hacc, haddr]
  refine storesAt_busWrite _ _ ?_
  exact (readsOnly_readOperand false m s).trans (sameMemories_of_rfl).readsOnly

theorem storesAt_modifyMemory (f : Byte → Byte) {m : Operand} (s : State) (hind : m.mode ≠ .ind) :
    StoresAt (operandAddr m s) s (modifyMemory f m s) := by
  have haddr := readOperand_addrAbs false s hind
  rw [modifyMemory, haddr]
  exact ⟨_, _, readsOnly_readOperand false m s, sameMemories_of_rfl⟩

theorem storesAt_storeOperand {m : Operand} (v : Byte) (s : State) (hacc : m ≠ .acc) (hind : m.mode ≠ .ind) :
    StoresAt (operandAddr m s) s (storeOperand m v s) := by
  rw [storeOperand_eq v s hacc hind]
  exact storesAt_busWrite _ _ (sameMemories_of_rfl).readsOnly

/-- A shift of the accumulator stores nothing. -/
theorem memoryEffect_shift {i : Instr} {m : Operand} (f : Bool → Byte → Shifted) (s : State) (hind : m.mode ≠ .ind)
    (htarget : storeTarget i = if m = .acc then none else some m) (hpush : pushCount i = 0) :
    MemoryEffect i s (shiftOperand f m s) := by
  rw [MemoryEffect, htarget]
  by_cases hacc : m = .acc
  · subst hacc
    rw [hpush]
    exact pushesOnly_of_readsOnly (sameMemories_of_rfl).readsOnly
  · rw [if_neg hacc]
    exact storesAt_shiftOperand f s hacc hind

/-- R129: what each instruction of the table does to the memories. -/
theorem exec_memoryEffect {i : Instr} (s : State) (hwf : i.WellFormed = true) :
    ∃ t, exec i s = .next t ∧ MemoryEffect i s t := by
  cases i with
  | adc m | sbc m | and m | ora m | eor m | lda m | ldx m | ldy m | bit m | cmp m | cpx m | cpy m =>
    exact ⟨_, rfl, pushesOnly_of_readsOnly ((readsOnly_readOperand _ m s).trans (sameMemories_of_rfl).readsOnly)⟩
  | asl m | lsr m | rol m | ror m =>
    exact ⟨_, rfl, memoryEffect_shift _ s (mode_ne_ind hwf (by decide)) rfl rfl⟩
  | inc m | dec m => exact ⟨_, rfl, storesAt_modifyMemory _ s (mode_ne_ind hwf (by decide))⟩
  | sta m | stx m | sty m =>
    exact ⟨_, rfl, storesAt_storeOperand _ s (ne_acc hwf (by decide)) (mode_ne_ind hwf (by decide))⟩
  | jmp m => exact ⟨_, rfl, pushesOnly_of_readsOnly ((readsOnly_addrMode m s).trans (sameMemories_of_rfl).readsOnly)⟩
  | bcc d | bcs d | beq d | bmi d | bne d | bpl d | bvc d | bvs d =>
    refine ⟨_, congrArg Host.Outcome.next (branch_eq_afterBranch _ d s), ?_⟩
    exact pushesOnly_of_readsOnly (sameMemories_of_rfl).readsOnly
  | pha => exact ⟨_, (pushesAndPullsMoveOneByte s).1, [_], rfl, rfl, rfl, PpuReads.refl _⟩
  | php => exact ⟨_, (pushesAndPullsMoveOneByte s).2.1, [_], rfl, rfl, rfl, PpuReads.refl _⟩
  | jsr w => exact ⟨_, (jsrPushesAndJumps w s).2, [_, _], rfl, rfl, rfl, PpuReads.refl _⟩
  | brk => exact ⟨_, brkEntersTheHandler s, [_, _, _], rfl, stackedFrame_eq_stackedAll _ _ _ _, rfl, PpuReads.refl _⟩
  | pla => exact ⟨_, (pushesAndPullsMoveOneByte s).2.2.1, pushesOnly_of_readsOnly (sameMemories_of_rfl).readsOnly⟩
  | plp => exact ⟨_, (pushesAndPullsMoveOneByte s).2.2.2, pushesOnly_of_readsOnly (sameMemories_of_rfl).readsOnly⟩
  | rts => exact ⟨_, rtsPullsAndReturns.2 s, pushesOnly_of_readsOnly (sameMemories_of_rfl).readsOnly⟩
  | rti => exact ⟨_, rtiRestoresStatusAndPc.2 s, pushesOnly_of_readsOnly (sameMemories_of_rfl).readsOnly⟩
  | clc | sec | cli | sei | cld | sed | clv | inx | iny | dex | dey | tax | tay | txa | tya | tsx | txs | nop
  | nopUnofficial op => exact ⟨_, rfl, pushesOnly_of_readsOnly (sameMemories_of_rfl).readsOnly⟩

/-! ### The bytes that stay as they were -/

theorem cellOf_ram (s : State) {addr : Word} (h : addr.toNat ≤ 0x1FFF) :
    cellOf s addr = some (false, addr.toNat % 0x800) := if_pos h

theorem cellOf_prg {s : State} {c : Cartridge} {addr : Word} (hc : s.cart = some c) (h : 0x8000 ≤ addr.toNat) :
    cellOf s addr = some (true, addr.toNat % prgSpan c) := by
  rw [cellOf, if_neg (by omega), if_neg (by omega), hc]
  rfl

theorem cellOf_congr {s t : State} (hcart : t.cart = s.cart) (addr : Word) : cellOf t addr = cellOf s addr := by
  rw [cellOf, cellOf, hcart]

theorem busPeek_ram (s : State) {addr : Word} (h : addr.toNat ≤ 0x1FFF) :
    busPeek addr s = some (memRead s.ram (addr.toNat % 0x800)) := by
  have hmapper : addr < 0x8000 := by bv_omega
  have hram : addr ≤ 0x1FFF := h
  simp only [busPeek, cartRead_low _ hmapper, if_pos hram, ramIndex_eq_mod]

theorem busPeek_prg {s : State} {c : Cartridge} {addr : Word} (hc : s.cart = some c) (h : 0x8000 ≤ addr.toNat) :
    busPeek addr s = some (memRead c.prg (addr.toNat % prgSpan c)) := by
  simp [busPeek, hc, cartRead, cpuMap_eq, h]

/-- A look depends on RAM and cartridge alone (20_memory.md R77). -/
theorem busPeek_of_same {s t : State} (hram : t.ram = s.ram) (hcart : t.cart = s.cart) (addr : Word) :
    busPeek addr t = busPeek addr s := by
  rw [busPeek, busPeek, hram, hcart]

/-- Below 0x8000 a look finds what the RAM gives, whatever the cartridge (20_memory.md R41, R51). -/
theorem busPeek_low {s t : State} (hram : t.ram = s.ram) {addr : Word} (h : addr.toNat ≤ 0x7FFF) :
    busPeek addr t = busPeek addr s := by
  have hmapper : addr < 0x8000 := by bv_omega
  simp only [busPeek, cartRead_low _ hmapper, hram]

/-- Between RAM and the cartridge's range a write reaches at most the PPU (20_memory.md R45 to R47). -/
theorem busWrite_middle {addr : Word} (v : Byte) (s : State) (hlo : 0x2000 ≤ addr.toNat) (hhi : addr.toNat ≤ 0x7FFF) :
    (busWrite addr v s).ram = s.ram ∧ (busWrite addr v s).cart = s.cart := by
  by_cases hw : inPpuWindow addr = true
  · rw [busWrite_window v s hw rfl]
    exact ⟨rfl, rfl⟩
  · have hnot := mt (inPpuWindow_iff addr).2 hw
    rw [(undecodedAddresses s addr v (by omega) (.inl hhi)).2]
    exact ⟨rfl, rfl⟩

/-- A bus write is seen in no cell but its own (20_memory.md R43). -/
theorem busPeek_busWrite_other {addr other : Word} (v : Byte) (s : State)
    (h : cellOf s addr = none ∨ cellOf s other ≠ cellOf s addr) : busPeek other (busWrite addr v s) = busPeek other s := by
  by_cases hram : addr.toNat ≤ 0x1FFF
  · rw [busWrite_ram_mod v s hram]
    by_cases hother : other.toNat ≤ 0x1FFF
    · rw [cellOf_ram s hram, cellOf_ram s hother] at h
      have hne : other.toNat % 0x800 ≠ addr.toNat % 0x800 := by simpa using h
      rw [busPeek_ram _ hother, busPeek_ram _ hother, memRead_memWrite_other _ v hne]
    · exact busPeek_congr rfl (by bv_omega)
  by_cases hmapper : addr.toNat ≤ 0x7FFF
  · obtain ⟨hkeptRam, hkeptCart⟩ := busWrite_middle v s (by omega) hmapper
    exact busPeek_of_same hkeptRam hkeptCart other
  cases hc : s.cart with
  | none => rw [(undecodedAddresses s addr v (by omega) (.inr hc)).2]
  | some c =>
    rw [busWrite_prg v hc (by omega)]
    by_cases hother : 0x8000 ≤ other.toNat
    · rw [cellOf_prg hc (by omega), cellOf_prg hc hother] at h
      have hne : other.toNat % prgSpan c ≠ addr.toNat % prgSpan c := by simpa using h
      rw [busPeek_prg rfl hother, busPeek_prg hc hother]
      exact congrArg some (memRead_memWrite_other _ v hne)
    · refine busPeek_low (by rfl) ?_
      omega

/-- The parts of the cartridge that nothing changes: bank counts and CHR (20_memory.md R54). -/
def cartShape (s : State) : Option (Nat × Nat × Memory) := s.cart.map fun c => (c.prgBanks, c.chrBanks, c.chr)

theorem cartShape_congr {s t : State} (hcart : t.cart = s.cart) : cartShape t = cartShape s := by
  rw [cartShape, cartShape, hcart]

/-- R50, R54: a bus write can change `prg` and nothing else of the cartridge. -/
theorem cartShape_busWrite (addr : Word) (v : Byte) (s : State) : cartShape (busWrite addr v s) = cartShape s := by
  by_cases hmapper : 0x8000 ≤ addr.toNat
  · cases hc : s.cart with
    | none => rw [(undecodedAddresses s addr v (by omega) (.inr hc)).2]
    | some c =>
      rw [busWrite_prg v hc hmapper, cartShape, cartShape, hc]
      rfl
  · by_cases hram : addr.toNat ≤ 0x1FFF
    · rw [busWrite_ram_mod v s hram]
      rfl
    · exact cartShape_congr (busWrite_middle v s (by omega) (by omega)).2

theorem memoryFrame_of_storesAt {addr : Word} {s t : State} (h : StoresAt addr s t) :
    (∀ other, cellOf s addr = none ∨ cellOf s other ≠ cellOf s addr → busPeek other t = busPeek other s) ∧
      (inPpuWindow addr = false → t.ppu.ctrl = s.ppu.ctrl ∧ t.ppu.mask = s.ppu.mask ∧ t.ppu.palette = s.ppu.palette ∧
        t.ppu.pattern = s.ppu.pattern) ∧ cartShape t = cartShape s := by
  obtain ⟨u, v, hread, hsame⟩ := h
  refine ⟨fun other hother => ?_, fun hw => ?_, ?_⟩
  · rw [← cellOf_congr hread.cart, ← cellOf_congr hread.cart] at hother
    rw [busPeek_of_same hsame.ram hsame.cart, busPeek_busWrite_other v u hother, busPeek_of_same hread.ram hread.cart]
  · rw [hsame.ppu, busWrite_ppu_outside v u (by simp [hw])]
    exact ⟨hread.ppu.ctrl, hread.ppu.mask, hread.ppu.palette, hread.ppu.pattern⟩
  · rw [cartShape_congr hsame.cart, cartShape_busWrite, cartShape_congr hread.cart]

theorem memoryFrame_of_pushesOnly {n : Nat} {s t : State} (h : PushesOnly n s t) :
    (∀ other, (∀ k, k < n → cellOf s other ≠ some (false, 256 + (s.sp - BitVec.ofNat 8 k).toNat)) →
      busPeek other t = busPeek other s) ∧
      (t.ppu.ctrl = s.ppu.ctrl ∧ t.ppu.mask = s.ppu.mask ∧ t.ppu.palette = s.ppu.palette ∧
        t.ppu.pattern = s.ppu.pattern) ∧ cartShape t = cartShape s := by
  obtain ⟨vs, rfl, hram, hcart, hppu⟩ := h
  refine ⟨fun other hother => ?_, ⟨hppu.ctrl, hppu.mask, hppu.palette, hppu.pattern⟩, cartShape_congr hcart⟩
  by_cases hlow : other.toNat ≤ 0x1FFF
  · rw [cellOf_ram s hlow] at hother
    rw [busPeek_ram t hlow, busPeek_ram s hlow, hram]
    exact congrArg some (memRead_stackedAll_other _ _ vs fun k hk heq => hother k hk (by rw [heq]))
  · exact busPeek_congr hcart (by bv_omega)

/-- Settles O42: an instruction stores at its target or pushes, by `exec_memoryEffect`, and in either case the rest is framed. -/
theorem memoryFrame : Obligations.MemoryFrame := by
  unfold Obligations.MemoryFrame
  intro i s t hwf h
  obtain ⟨u, hu, heffect⟩ := exec_memoryEffect s hwf
  obtain rfl : u = t := Host.Outcome.next.inj (hu.symm.trans h)
  rw [MemoryEffect] at heffect
  cases htarget : storeTarget i with
  | some m =>
    rw [htarget] at heffect
    obtain ⟨hbytes, hppu, hcart⟩ := memoryFrame_of_storesAt heffect
    exact ⟨fun other hother _ => hbytes other (hother m rfl), fun hw => hppu (hw m rfl), hcart⟩
  | none =>
    rw [htarget] at heffect
    obtain ⟨hbytes, hppu, hcart⟩ := memoryFrame_of_pushesOnly heffect
    exact ⟨fun other _ hother => hbytes other hother, fun _ => hppu, hcart⟩

end Sys2Proof.Proofs.MemoryEffects
end

section
/-!
The clocks around an instruction (40_fetch_execute_and_addressing.md R110, R111; 60_exceptions.md R260, R261): when a master tick only
counts, when it executes, and that every one of them gives a next state.
-/
namespace Sys2Proof.Proofs.Ticks

open Sys2Proof Sys2Proof.Machine Sys2Proof.Proofs.Frames

/-! ### Counters through idle ticks -/

theorem ppuDotClock_systemClock (s : State) : (ppuDotClock s).systemClock = s.systemClock := by rw [ppuDotClock_frame]

theorem ppuDotClock_cyclesRemaining (s : State) : (ppuDotClock s).cyclesRemaining = s.cyclesRemaining := by
  rw [ppuDotClock_frame]

theorem idleTick_systemClock (s : State) : (idleTick s).systemClock = s.systemClock + 1 := rfl

theorem idleTick_cyclesRemaining (s : State) :
    (idleTick s).cyclesRemaining = if s.systemClock % Config.cpuDivider = 0 then s.cyclesRemaining - 1 else s.cyclesRemaining := rfl

theorem idleTicks_systemClock (n : Nat) (s : State) : (idleTicks n s).systemClock = s.systemClock + n := by
  rw [idleTicks_frame]

/-- Every third tick counts one owed cycle down (R260, R261). -/
theorem idleTicks_cyclesRemaining (n : Nat) (s : State) :
    (idleTicks n s).cyclesRemaining = s.cyclesRemaining - cpuClocksIn s.systemClock n := by
  induction n generalizing s with
  | zero => simp [idleTicks, cpuClocksIn]
  | succ n ih =>
    rw [idleTicks, ih, idleTick_cyclesRemaining, idleTick_systemClock, cpuClocksIn_succ]
    by_cases h : s.systemClock % Config.cpuDivider = 0
    · rw [if_pos h, if_pos h, Nat.sub_sub]
    · rw [if_neg h, if_neg h, Nat.zero_add]

/-- R260: a tick executes when it clocks the CPU and no cycle is owed. -/
def Executes (s : State) : Prop := s.systemClock % Config.cpuDivider = 0 ∧ s.cyclesRemaining = 0

theorem ticksToExecute_eq (s : State) : ticksToExecute s = (3 - s.systemClock % 3) % 3 + 3 * s.cyclesRemaining := rfl

theorem executes_iff (s : State) : Executes s ↔ ticksToExecute s = 0 := by
  rw [Executes, ticksToExecute_eq, Config.cpuDivider]
  omega

/-- R261: after the ticks to the next instruction, the next tick executes. -/
theorem executes_idleTicks (s : State) : Executes (idleTicks (ticksToExecute s) s) := by
  rw [Executes, idleTicks_systemClock, idleTicks_cyclesRemaining, cpuClocksIn, Config.cpuDivider, ticksToExecute_eq]
  omega

/-- An idle tick brings the next instruction one tick nearer. -/
theorem ticksToExecute_idleTick {s : State} (h : ¬ Executes s) :
    ticksToExecute (idleTick s) + 1 = ticksToExecute s := by
  rw [Executes, Config.cpuDivider] at h
  rw [ticksToExecute_eq, ticksToExecute_eq, idleTick_systemClock, idleTick_cyclesRemaining, Config.cpuDivider]
  split <;> omega

/-! ### The master tick -/

/-- R260: what the master tick does around an instruction. -/
def countTick (t : State) : State :=
  { t with cyclesRemaining := t.cyclesRemaining - 1, systemClock := t.systemClock + 1 }

/-- R110, R260: a tick that does not execute only counts. -/
theorem masterTick_idle {s : State} (h : ¬ Executes s) : masterTick s = .next (idleTick s) := by
  rw [masterTick, idleTick]
  by_cases hclock : s.systemClock % Config.cpuDivider = 0
  · have howed : (ppuDotClock s).cyclesRemaining ≠ 0 := by
      rw [ppuDotClock_cyclesRemaining]
      exact fun hzero => h ⟨hclock, hzero⟩
    rw [if_pos hclock, cpuClock, if_neg howed, ppuDotClock_frame]
    simp [andThen, hclock]
  · rw [if_neg hclock, ppuDotClock_frame]
    simp [andThen, hclock]

/-- R110, R260: a tick that executes runs one instruction after its dot clock, and counts. -/
theorem masterTick_executes {s : State} (h : Executes s) :
    masterTick s = andThen (executeInstruction (ppuDotClock s)) fun t => .next (countTick t) := by
  obtain ⟨hclock, hzero⟩ := h
  rw [masterTick, if_pos hclock, cpuClock, if_pos (by rw [ppuDotClock_cyclesRemaining, hzero])]
  cases executeInstruction (ppuDotClock s) <;> rfl

/-- R250: no instruction stops the machine. -/
theorem executeInstruction_next (s : State) : ∃ t, executeInstruction s = .next t := by
  obtain ⟨t, ht, -⟩ := exec_frame (fetch s).instr { (fetch s).state with cyclesRemaining := (fetch s).instr.baseCycles }
  exact ⟨t, ht⟩

/-- R250: a master tick always gives a next state: an idle one, or that of an instruction. -/
theorem masterTick_cases (s : State) :
    (¬ Executes s ∧ masterTick s = .next (idleTick s)) ∨
      (Executes s ∧ ∃ u, executeInstruction (ppuDotClock s) = .next u ∧ masterTick s = .next (countTick u)) := by
  by_cases h : Executes s
  · obtain ⟨u, hu⟩ := executeInstruction_next (ppuDotClock s)
    exact .inr ⟨h, u, hu, by rw [masterTick_executes h, hu]; rfl⟩
  · exact .inl ⟨h, masterTick_idle h⟩

theorem masterTick_next (s : State) : ∃ t, masterTick s = .next t := by
  rcases masterTick_cases s with ⟨-, h⟩ | ⟨-, u, -, h⟩
  · exact ⟨_, h⟩
  · exact ⟨_, h⟩

end Sys2Proof.Proofs.Ticks
end

section
/-!
The step of the machine (60_exceptions.md R252, R260 to R266): its two cases as equations, and the obligations about what a step delivers,
where it stops, and that it is the ticks and events of the schedule.
-/
namespace Sys2Proof.Proofs.Steps

open Sys2Proof Sys2Proof.Machine Sys2Proof.Proofs.Ticks

/-- The state with another schedule before it. -/
def withEnv (env : List (Nat × Event)) (s : State) : State := { s with env := env }

/-- A step that delivers the due event, after the idle ticks before it (R252). -/
theorem step_of_due {s : State} {d : Nat} {e : Event} {rest : List (Nat × Event)} (hcart : cartAdmitted s.cart = true)
    (hdue : dueEvent s = some (d, e, rest)) (hmay : (s.everReset || (d == 0 && !isInterrupt e)) = true) :
    step s = .next (deliver e (idleTicks d (withEnv rest s))) := by
  simp only [step, stepBody, hcart, hdue, hmay, passTicks_eq]
  rfl

/-- A step that runs an instruction, after the idle ticks before it (R260, R261). -/
theorem step_of_not_due {s : State} (hcart : cartAdmitted s.cart = true) (hreset : s.everReset = true)
    (hdue : dueEvent s = none) :
    step s = masterTick (idleTicks (ticksToExecute s) (withEnv (waitEnv (ticksToExecute s + 1) s.env) s)) := by
  simp only [step, stepBody, hcart, hdue, passTicks_eq]
  exact if_pos hreset

theorem dueEvent_of_le {s : State} {d : Nat} {e : Event} {rest : List (Nat × Event)} (henv : s.env = (d, e) :: rest)
    (h : d ≤ ticksToExecute s) : dueEvent s = some (d, e, rest) := by
  simp [dueEvent, henv, h]

/-- The due event stands at the head of the schedule (R252). -/
theorem env_of_dueEvent {s : State} {d : Nat} {e : Event} {rest : List (Nat × Event)}
    (h : dueEvent s = some (d, e, rest)) : s.env = (d, e) :: rest ∧ d ≤ ticksToExecute s := by
  rw [dueEvent] at h
  split at h
  · simp at h
  · next henv =>
    split at h
    · next hle =>
      simp only [Option.some.injEq, Prod.mk.injEq] at h
      obtain ⟨rfl, rfl, rfl⟩ := h
      exact ⟨henv, hle⟩
    · simp at h

/-- Settles O50: the due event is delivered by `step_of_due`, and `deliver` is what the statement writes out. -/
theorem stepDeliversTheDueEvent : Obligations.StepDeliversTheDueEvent := by
  unfold Obligations.StepDeliversTheDueEvent
  intro s d e rest hcart hmay henv hle u
  have hallowed : (s.everReset || (d == 0 && !isInterrupt e)) = true := by
    rcases hmay with hreset | ⟨rfl, hirq, hnmi⟩
    · rw [hreset]; rfl
    · cases e <;> simp_all [isInterrupt]
  rw [step_of_due hcart (dueEvent_of_le henv hle) hallowed]
  cases e <;> rfl

/-- Settles O51: the two refusals are the two tests of the step; past them a step is a delivery or a master tick, and every master tick
gives a next state by `masterTick_next`. -/
theorem stepStopsOnlyWhereRefused : Obligations.StepStopsOnlyWhereRefused := by
  unfold Obligations.StepStopsOnlyWhereRefused
  refine ⟨fun s c hc hbanks => ?shape, fun s hcart hnever hlate => ?never, fun s e rest hcart hnever henv he => ?due,
    fun s hreset hcart => ?total⟩
  case shape =>
    have hnot : cartAdmitted s.cart = false := by
      rw [hc]
      rcases hbanks with h | h <;> simp [cartAdmitted, h]
    rw [step, stepBody, hnot]
    rfl
  case never =>
    cases hdue : dueEvent s with
    | none =>
      simp only [step, stepBody, hcart, hdue, hnever]
      rfl
    | some due =>
      obtain ⟨d, e, rest⟩ := due
      have hnot : (s.everReset || (d == 0 && !isInterrupt e)) = false := by
        rcases hlate d e rest (env_of_dueEvent hdue).1 with h | h
        · simp [hnever, show d ≠ 0 by omega]
        · simp [hnever, h]
      simp only [step, stepBody, hcart, hdue, hnot]
      rfl
  case due => rw [step_of_due hcart (dueEvent_of_le henv (Nat.zero_le _)) (by simp [he])]; rfl
  case total =>
    cases hdue : dueEvent s with
    | none =>
      rw [step_of_not_due hcart hreset hdue]
      exact masterTick_next _
    | some due =>
      obtain ⟨d, e, rest⟩ := due
      exact ⟨_, step_of_due hcart hdue (by rw [hreset]; rfl)⟩

/-! ### The schedule tick by tick (R252) -/

theorem ppuDotClock_withEnv (env : List (Nat × Event)) (s : State) :
    ppuDotClock (withEnv env s) = withEnv env (ppuDotClock s) := by
  by_cases hdot : s.dot + 1 = Config.dotsPerScanline
  · by_cases hline : s.scanline + 1 = Config.scanlinesPerFrame <;> simp [ppuDotClock, withEnv, hdot, hline]
  · by_cases hline : s.scanline = Config.scanlinesPerFrame <;> simp [ppuDotClock, withEnv, hdot, hline]

/-- The schedule does not run in an idle tick. -/
theorem idleTick_withEnv (env : List (Nat × Event)) (s : State) : idleTick (withEnv env s) = withEnv env (idleTick s) := by
  rw [idleTick, ppuDotClock_withEnv]
  rfl

theorem ticksToExecute_withEnv (env : List (Nat × Event)) (s : State) :
    ticksToExecute (withEnv env s) = ticksToExecute s := rfl

theorem scheduledTick_due {s : State} {e : Event} {rest : List (Nat × Event)} (henv : s.env = (0, e) :: rest) :
    scheduledTick s = .next (deliver e (withEnv rest s)) := by
  rw [scheduledTick, henv]
  rfl

theorem scheduledTick_not_due {s : State} (henv : ∀ e rest, s.env ≠ (0, e) :: rest) :
    scheduledTick s = masterTick (withEnv (waitEnv 1 s.env) s) := by
  rw [scheduledTick]
  split
  · next h => exact absurd h (henv _ _)
  · rfl

/-- Where neither an event nor an instruction is due, a scheduled tick is an idle tick. -/
theorem scheduledTick_idle {s : State} (henv : ∀ e rest, s.env ≠ (0, e) :: rest) (hidle : ¬ Executes s) :
    scheduledTick s = .next (withEnv (waitEnv 1 s.env) (idleTick s)) := by
  rw [scheduledTick_not_due henv, masterTick_idle (s := withEnv (waitEnv 1 s.env) s) hidle, idleTick_withEnv]

/-- A due event comes after as many scheduled ticks as it waits. -/
theorem scheduledTicks_of_due (d : Nat) {s : State} {e : Event} {rest : List (Nat × Event)} (henv : s.env = (d, e) :: rest)
    (hle : d ≤ ticksToExecute s) : scheduledTicks (d + 1) s = .next (deliver e (idleTicks d (withEnv rest s))) := by
  induction d generalizing s with
  | zero =>
    rw [scheduledTicks, scheduledTick_due henv]
    rfl
  | succ d ih =>
    have hidle : ¬ Executes s := by
      rw [executes_iff]
      omega
    have hticks := ticksToExecute_idleTick hidle
    have hwait : waitEnv 1 s.env = (d, e) :: rest := by rw [henv]; rfl
    have hrest := ih (s := withEnv ((d, e) :: rest) (idleTick s)) rfl (by rw [ticksToExecute_withEnv]; omega)
    rw [scheduledTicks, scheduledTick_idle (by simp [henv]) hidle, hwait]
    refine hrest.trans ?_
    rw [idleTicks, idleTick_withEnv]
    rfl

/-- Does no event fall in the next so many ticks? -/
def QuietFor (n : Nat) (s : State) : Prop := ∀ d e rest, s.env = (d, e) :: rest → n < d

theorem waitEnv_waitEnv (m n : Nat) (env : List (Nat × Event)) : waitEnv m (waitEnv n env) = waitEnv (n + m) env := by
  cases env with
  | nil => rfl
  | cons head rest => simp [waitEnv, Nat.sub_sub]

theorem QuietFor.idleTick {n : Nat} {s : State} (h : QuietFor (n + 1) s) :
    QuietFor n (withEnv (waitEnv 1 s.env) (idleTick s)) := by
  intro d e rest henv
  change waitEnv 1 s.env = (d, e) :: rest at henv
  cases hs : s.env with
  | nil => simp [hs, waitEnv] at henv
  | cons head tail =>
    have hlt := h head.1 head.2 tail hs
    simp only [hs, waitEnv, List.cons.injEq, Prod.mk.injEq] at henv
    omega

theorem QuietFor.not_due {n : Nat} {s : State} (h : QuietFor n s) (e : Event) (rest : List (Nat × Event)) :
    s.env ≠ (0, e) :: rest :=
  fun henv => absurd (h 0 e rest henv) (Nat.not_lt_zero n)

/-- Where no event falls before the next instruction, the scheduled ticks to it are the idle ticks and the executing one. -/
theorem scheduledTicks_of_quiet (n : Nat) {s : State} (hn : ticksToExecute s = n) (hquiet : QuietFor n s) :
    scheduledTicks (n + 1) s = masterTick (idleTicks n (withEnv (waitEnv (n + 1) s.env) s)) := by
  induction n generalizing s with
  | zero =>
    obtain ⟨t, ht⟩ := masterTick_next (withEnv (waitEnv 1 s.env) s)
    rw [scheduledTicks, scheduledTick_not_due hquiet.not_due, idleTicks, ht]
    rfl
  | succ n ih =>
    have hidle : ¬ Executes s := by
      rw [executes_iff]
      omega
    have hticks := ticksToExecute_idleTick hidle
    have hrest := ih (by rw [ticksToExecute_withEnv]; omega) hquiet.idleTick
    rw [scheduledTicks, scheduledTick_idle hquiet.not_due hidle]
    refine hrest.trans ?_
    rw [idleTicks, idleTick_withEnv]
    simp only [withEnv, waitEnv_waitEnv, Nat.add_comm 1]

theorem quietFor_of_not_due {s : State} (h : dueEvent s = none) : QuietFor (ticksToExecute s) s := by
  intro d e rest henv
  by_contra hle
  rw [dueEvent_of_le henv (by omega)] at h
  exact absurd h (by simp)

/-- Settles O52: a step that delivers is `scheduledTicks_of_due`, one that runs an instruction is `scheduledTicks_of_quiet`. -/
theorem stepRefinesTheClock : Obligations.StepRefinesTheClock := by
  unfold Obligations.StepRefinesTheClock
  intro s hreset hcart
  cases hdue : dueEvent s with
  | none => rw [step_of_not_due hcart hreset hdue, scheduledTicks_of_quiet _ rfl (quietFor_of_not_due hdue)]
  | some due =>
    obtain ⟨d, e, rest⟩ := due
    obtain ⟨henv, hle⟩ := env_of_dueEvent hdue
    rw [step_of_due hcart hdue (by rw [hreset]; rfl)]
    exact (scheduledTicks_of_due d henv hle).symm

end Sys2Proof.Proofs.Steps
end

section
/-!
The fetch (40_fetch_execute_and_addressing.md R111; 20_memory.md R85): it is the bus reads of `readCode` and the decoding of what they
give, and the obligation about the instruction that a step runs.
-/
namespace Sys2Proof.Proofs.Fetch

open Sys2Proof Sys2Proof.Machine Sys2Proof.Proofs.MemoryMap Sys2Proof.Proofs.PpuRegisters Sys2Proof.Proofs.Encoding
  Sys2Proof.Proofs.Operands Sys2Proof.Proofs.MemoryEffects Sys2Proof.Proofs.Ticks Sys2Proof.Proofs.Steps

/-! ### Reading code -/

/-- Reading code is reads. -/
theorem readsOnly_readCode (n : Nat) (addr : Word) (s : State) : ReadsOnly s (readCode n addr s).2 := by
  induction n generalizing addr s with
  | zero => exact ReadsOnly.refl s
  | succ n ih => exact (readsOnly_busRead addr s).trans (ih _ _)

/-- Reading code depends on the memories alone. -/
theorem readCode_congr (n : Nat) (addr : Word) {s t : State} (h : SameMemories s t) :
    (readCode n addr t).1 = (readCode n addr s).1 ∧ (readCode n addr t).2.ppu = (readCode n addr s).2.ppu := by
  induction n generalizing addr s t with
  | zero => exact ⟨rfl, h.ppu⟩
  | succ n ih =>
    have hfirst := busRead_congr addr h.ram h.cart h.ppu
    have hframe := busRead_frame addr s
    have hsame : SameMemories (busRead addr s).2 (busRead addr t).2 := by
      rw [hfirst]
      exact ⟨by rw [hframe]; exact h.ram, by rw [hframe]; exact h.cart, rfl⟩
    obtain ⟨hbytes, hppu⟩ := ih (addr + 1) hsame
    have hbyte : (busRead addr t).1 = (busRead addr s).1 := by rw [hfirst]
    exact ⟨by simp only [readCode, hbyte, hbytes], hppu⟩

/-- In the window a look finds nothing (20_memory.md R77). -/
theorem busPeek_window {addr : Word} (s : State) (h : inPpuWindow addr = true) : busPeek addr s = none := by
  obtain ⟨hlo, hhi⟩ := (inPpuWindow_iff addr).1 h
  have hmapper : addr < 0x8000 := by bv_omega
  have hram : ¬ addr ≤ 0x1FFF := by bv_omega
  have hwindow : addr ≤ 0x3FFF := hhi
  simp only [busPeek, cartRead_low _ hmapper, if_neg hram, if_pos hwindow]

/-- Where a look finds a byte, a read gives it and changes nothing (20_memory.md R77, R82). -/
theorem busRead_of_busPeek {addr : Word} {s : State} {b : Byte} (h : busPeek addr s = some b) : busRead addr s = (b, s) := by
  by_cases hw : inPpuWindow addr = true
  · rw [busPeek_window s hw] at h
    exact absurd h (by simp)
  · rw [busPeek_outside s (by simpa using hw)] at h
    have hpure := busRead_pure addr s fun hin => hw ((inPpuWindow_iff addr).2 hin)
    exact Prod.ext (Option.some.inj h) hpure

/-- Where looks find bytes, reading code gives them and changes nothing (20_memory.md R77, R82). -/
theorem readCode_of_busPeek (bytes : List Byte) (addr : Word) (s : State)
    (h : ∀ k b, bytes[k]? = some b → busPeek (addr + BitVec.ofNat 16 k) s = some b) :
    readCode bytes.length addr s = (bytes, s) := by
  induction bytes generalizing addr with
  | nil => rfl
  | cons b bytes ih =>
    have hfirst : busRead addr s = (b, s) := busRead_of_busPeek (by simpa using h 0 b rfl)
    have hrest : readCode bytes.length (addr + 1) s = (bytes, s) := by
      refine ih _ fun k c hk => ?_
      have haddr : addr + 1 + BitVec.ofNat 16 k = addr + BitVec.ofNat 16 (k + 1) := by
        rw [BitVec.ofNat_add]
        bv_omega
      rw [haddr]
      exact h (k + 1) c hk
    simp only [List.length_cons, readCode, hfirst, hrest]

/-! ### The fetch as reading code -/

/-- One byte of the instruction stream, from a state with the memories of another. -/
theorem readPc_congr {s t : State} (h : SameMemories s t) :
    readPc t = ((busRead t.pc s).1, { t with ppu := (busRead t.pc s).2.ppu, pc := t.pc + 1 }) := by
  rw [readPc, busRead_congr t.pc h.ram h.cart h.ppu]

/-- R111: the fetch reads as many bytes as the opcode byte calls for, from the pc on, and decodes them. -/
theorem fetch_eq_readCode (s : State) :
    let n := operandCount (busRead s.pc s).1
    let code := readCode (n + 1) s.pc s
    fetch s =
      { instr := decodeOp (busRead s.pc s).1 (code.1.getD 1 0) (code.1.getD 2 0)
        state := { s with ppu := code.2.ppu, pc := s.pc + BitVec.ofNat 16 (n + 1), opcode := (busRead s.pc s).1 } } := by
  have hle := operandCount_le (busRead s.pc s).1
  have hop := readPc_congr (SameMemories.refl s)
  have hsame (p : Byte) : SameMemories (busRead s.pc s).2
      { s with ppu := (busRead s.pc s).2.ppu, pc := s.pc + 1, opcode := p } := by
    rw [busRead_frame]
    exact sameMemories_of_rfl
  rw [fetch, hop]
  obtain hcount | hcount | hcount : operandCount (busRead s.pc s).1 = 0 ∨ operandCount (busRead s.pc s).1 = 1 ∨
      operandCount (busRead s.pc s).1 = 2 := by omega
  · simp only [hcount]
    rfl
  · simp only [hcount, readPc_congr (hsame _)]
    rw [show s.pc + 1 + 1 = s.pc + BitVec.ofNat 16 (1 + 1) by bv_omega]
    rfl
  · have hsame2 (p : Byte) : SameMemories (busRead (s.pc + 1) (busRead s.pc s).2).2
        { s with
          ppu := (busRead (s.pc + 1) (busRead s.pc s).2).2.ppu, pc := s.pc + 1 + 1, opcode := p } := by
      rw [busRead_frame (s.pc + 1), busRead_frame s.pc]
      exact sameMemories_of_rfl
    simp only [hcount, readPc_congr (hsame _), readPc_congr (hsame2 _)]
    rw [show s.pc + 1 + 1 + 1 = s.pc + BitVec.ofNat 16 (2 + 1) by bv_omega]
    rfl

/-- Where the bytes at the pc are the code of an instruction of the table, the fetch gives that instruction (R111; 30_encoding.md R90
to R93). -/
theorem fetch_of_code {s : State} {i : Instr} {op : Byte} {operands : List Byte} (hwf : i.WellFormed = true)
    (hcode : encode i = some (op :: operands)) (hread : (readCode i.length s.pc s).1 = op :: operands) :
    fetch s = { instr := i, state := { s with
      ppu := (readCode i.length s.pc s).2.ppu, pc := s.pc + BitVec.ofNat 16 i.length, opcode := op } } := by
  obtain ⟨op', hop, hcount, hdecode⟩ := decodesItsCode hwf
  obtain ⟨rfl, rfl⟩ : op' = op ∧ i.operandList = operands := by simpa [encode, hop] using hcode
  have hlen : i.length = operandCount op' + 1 := by
    rw [hcount, operandList_length, Instr.length, Nat.add_comm]
  rw [hlen] at hread ⊢
  have hfirst : (busRead s.pc s).1 = op' := by
    rw [readCode] at hread
    exact (List.cons.inj hread).1
  rw [fetch_eq_readCode]
  simp only [hfirst, hread, List.getD_cons_succ, hdecode]

/-- The state in which the instruction itself executes: its opcode byte and its base count loaded (R111). -/
theorem executeInstruction_of_code {s : State} {i : Instr} {op : Byte} {operands : List Byte} (hwf : i.WellFormed = true)
    (hcode : encode i = some (op :: operands)) (hread : (readCode i.length s.pc s).1 = op :: operands) :
    executeInstruction s = exec i { s with
      ppu := (readCode i.length s.pc s).2.ppu, pc := s.pc + BitVec.ofNat 16 i.length, opcode := op
      cyclesRemaining := i.baseCycles } := by
  rw [executeInstruction, fetch_of_code hwf hcode hread]

/-! ### The step that runs an instruction -/

theorem encode_length {i : Instr} {bytes : List Byte} (hwf : i.WellFormed = true) (h : encode i = some bytes) :
    bytes.length = i.length := by
  obtain ⟨op, hop, -, -⟩ := decodesItsCode hwf
  obtain rfl : op :: i.operandList = bytes := by simpa [encode, hop] using h
  rw [List.length_cons, operandList_length, Instr.length, Nat.add_comm]

theorem runs_iff (s : State) :
    s.runs = true ↔ s.everReset = true ∧ cartAdmitted s.cart = true ∧ dueEvent s = none := by
  simp [State.runs, and_assoc]

/-- What stands at the head of the executing tick: the idle ticks and the dot clock have passed (R260). -/
def atExecution (s : State) : State :=
  ppuDotClock (idleTicks (ticksToExecute s) (withEnv (waitEnv (ticksToExecute s + 1) s.env) s))

/-- A step that runs an instruction, as one instruction between counters (R110, R260). -/
theorem step_of_runs {s : State} (h : s.runs = true) :
    step s = andThen (executeInstruction (atExecution s)) fun t => .next (countTick t) := by
  obtain ⟨hreset, hcart, hdue⟩ := (runs_iff s).1 h
  have hexecutes := executes_idleTicks (withEnv (waitEnv (ticksToExecute s + 1) s.env) s)
  rw [ticksToExecute_withEnv] at hexecutes
  rw [step_of_not_due hcart hreset hdue, masterTick_executes hexecutes]
  rfl

/-- Until the instruction only counters and the schedule have changed (R260, R262). -/
theorem atExecution_frame (s : State) : atExecution s = { s with
    env := waitEnv (ticksToExecute s + 1) s.env, dot := (atExecution s).dot, scanline := (atExecution s).scanline
    frameComplete := (atExecution s).frameComplete, cyclesRemaining := (atExecution s).cyclesRemaining
    systemClock := (atExecution s).systemClock } := by
  rw [atExecution, ppuDotClock_frame, idleTicks_frame]
  rfl

theorem sameMemories_atExecution (s : State) : SameMemories s (atExecution s) := by
  rw [atExecution_frame]
  exact sameMemories_of_rfl

/-- Settles O49: the step is one execution by `step_of_runs`; the code is read from memories and a pc that the idle ticks keep, so the
fetch gives the instruction by `executeInstruction_of_code`. -/
theorem stepRunsTheDecodedInstruction : Obligations.StepRunsTheDecodedInstruction := by
  unfold Obligations.StepRunsTheDecodedInstruction
  intro s i op operands hwf hcode code
  refine ⟨fun hpeek => ?looked, ?runs⟩
  case looked =>
    have hlooked := readCode_of_busPeek (op :: operands) s.pc s hpeek
    rwa [encode_length hwf hcode] at hlooked
  case runs =>
    intro hruns hread u
    have hpc : (atExecution s).pc = s.pc := by rw [atExecution_frame]
    obtain ⟨hbytes, hppu⟩ := readCode_congr i.length s.pc (sameMemories_atExecution s)
    have hread' : (readCode i.length (atExecution s).pc (atExecution s)).1 = op :: operands := by rw [hpc, hbytes, hread]
    rw [step_of_runs hruns, executeInstruction_of_code hwf hcode hread', hpc, hppu]
    rfl

end Sys2Proof.Proofs.Fetch
end

section
/-!
The reset input and the state after it (70_reset_and_hazards.md R281 to R284).
-/
namespace Sys2Proof.Proofs.ResetInput

open Sys2Proof Sys2Proof.Machine

/-- Settles O48: the reset input is so defined, and the state after it is the booted one with empty memories, by evaluation. -/
theorem resetStateIsBooted : Obligations.ResetStateIsBooted := by
  unfold Obligations.ResetStateIsBooted
  exact ⟨fun _ => rfl, rfl, by decide⟩

end Sys2Proof.Proofs.ResetInput
end

section
/-!
What every step keeps (10_state.md R20 to R34): one inversion of the step, its effect on the memories and on the counters, and the
obligations about the invariant and about the PPU's status register.
-/
namespace Sys2Proof.Proofs.Invariants

open Sys2Proof Sys2Proof.Machine Sys2Proof.Proofs.MemoryMap Sys2Proof.Proofs.Encoding Sys2Proof.Proofs.Exceptions
  Sys2Proof.Proofs.Frames Sys2Proof.Proofs.MemoryEffects Sys2Proof.Proofs.Reset Sys2Proof.Proofs.Ticks
  Sys2Proof.Proofs.Steps Sys2Proof.Proofs.Fetch Sys2Proof.Proofs.DotClock

/-! ### What a step can be -/

/-- A step is a delivery after idle ticks, or one instruction between counters (60_exceptions.md R252, R260). -/
theorem step_cases {s t : State} (h : step s = .next t) :
    (∃ d e rest, t = deliver e (idleTicks d (withEnv rest s))) ∨
      ∃ u, executeInstruction (atExecution s) = .next u ∧ t = countTick u := by
  have hcart : cartAdmitted s.cart = true := by
    by_contra hnot
    have hrefused : cartAdmitted s.cart = false := by simpa using hnot
    simp [step, stepBody, hrefused] at h
  cases hdue : dueEvent s with
  | some due =>
    obtain ⟨d, e, rest⟩ := due
    have hmay : (s.everReset || (d == 0 && !isInterrupt e)) = true := by
      by_contra hnot
      simp [step, stepBody, hcart, hdue, hnot] at h
    rw [step_of_due hcart hdue hmay] at h
    exact .inl ⟨d, e, rest, (Host.Outcome.next.inj h).symm⟩
  | none =>
    have hreset : s.everReset = true := by
      by_contra hnot
      simp [step, stepBody, hcart, hdue, hnot] at h
    obtain ⟨u, hu⟩ := executeInstruction_next (atExecution s)
    rw [step_of_runs ((runs_iff s).2 ⟨hreset, hcart, hdue⟩), hu] at h
    exact .inr ⟨u, hu, (Host.Outcome.next.inj h).symm⟩

/-- R111: the instruction executed is one of the table, on a state that the fetch has only read in and set to its base count. -/
theorem executeInstruction_cases {s u : State} (h : executeInstruction s = .next u) :
    ∃ i v, i.WellFormed = true ∧ exec i v = .next u ∧ ReadsOnly s v ∧ v.cyclesRemaining = i.baseCycles := by
  obtain ⟨hwf, -, -⟩ := decodeOp_spec (busRead s.pc s).1
    ((readCode (operandCount (busRead s.pc s).1 + 1) s.pc s).1.getD 1 0)
    ((readCode (operandCount (busRead s.pc s).1 + 1) s.pc s).1.getD 2 0)
  rw [executeInstruction, fetch_eq_readCode] at h
  exact ⟨_, _, hwf, h, ⟨rfl, rfl, (readsOnly_readCode _ _ _).ppu⟩, rfl⟩

/-- No instruction runs a clock (10_state.md R22, R33). -/
theorem executeInstruction_clocks {s u : State} (h : executeInstruction s = .next u) :
    u.systemClock = s.systemClock ∧ u.dot = s.dot ∧ u.scanline = s.scanline ∧ u.frameComplete = s.frameComplete := by
  rw [executeInstruction, fetch_eq_readCode] at h
  obtain ⟨-, hclock, hdot, hline, hcomplete, -⟩ := (execFrame_of_next h).clocks
  exact ⟨hclock, hdot, hline, hcomplete⟩

/-! ### Memories through a step -/

/-- What one instruction or one event can do to the memories. -/
def MemoryStep (s t : State) : Prop := (∃ addr, StoresAt addr s t) ∨ ∃ n, PushesOnly n s t

theorem memoryStep_of_effect {i : Instr} {s t : State} (h : MemoryEffect i s t) : MemoryStep s t := by
  rw [MemoryEffect] at h
  split at h
  · exact .inl ⟨_, h⟩
  · exact .inr ⟨_, h⟩

theorem memoryStep_of_readsOnly {s t : State} (h : ReadsOnly s t) : MemoryStep s t := .inr ⟨0, pushesOnly_of_readsOnly h⟩

/-- An interrupt entry pushes three bytes (60_exceptions.md R254, R256). -/
theorem pushesOnly_of_stackedFrame {s t : State} {w : Word} {status : Byte}
    (hram : t.ram = stackedFrame s.ram s.sp w status) (hcart : t.cart = s.cart) (hppu : t.ppu = s.ppu) :
    PushesOnly 3 s t :=
  ⟨_, rfl, hram.trans (stackedFrame_eq_stackedAll _ _ _ _), hcart, hppu ▸ PpuReads.refl _⟩

/-- Counting the tick leaves the memories alone. -/
theorem memoryStep_countTick {s t : State} (h : MemoryStep s t) : MemoryStep s (countTick t) := by
  rcases h with ⟨addr, u, v, hread, hsame⟩ | hpush
  · exact .inl ⟨addr, u, v, hread, ⟨hsame.ram, hsame.cart, hsame.ppu⟩⟩
  · exact .inr hpush

theorem memoryStep_deliver (e : Event) (s : State) : MemoryStep s (deliver e s) := by
  cases e with
  | reset =>
    refine memoryStep_of_readsOnly ?_
    rw [deliver, assertReset, cpuResetSetsTheRegisters]
    exact (sameMemories_of_rfl).readsOnly
  | nmi =>
    have hentry := nmiEntersTheHandler s
    refine .inr ⟨3, pushesOnly_of_stackedFrame (by rw [deliver, hentry]) ?_ ?_⟩ <;> rw [deliver, hentry]
  | irq =>
    obtain ⟨hmasked, hentry⟩ := irqEntersTheHandlerUnlessMasked s
    cases hi : s.status.getLsbD 2 with
    | true =>
      rw [deliver, hmasked hi]
      exact memoryStep_of_readsOnly (ReadsOnly.refl s)
    | false =>
      refine .inr ⟨3, pushesOnly_of_stackedFrame (by rw [deliver, hentry hi]) ?_ ?_⟩ <;> rw [deliver, hentry hi]
  | debugRead addr => exact memoryStep_of_readsOnly (readsOnly_busRead addr s)
  | debugWrite addr v => exact .inl ⟨addr, storesAt_busWrite addr v (ReadsOnly.refl s)⟩
  | clearFrame => exact memoryStep_of_readsOnly (sameMemories_of_rfl).readsOnly

theorem sameMemories_idleTicks (d : Nat) (rest : List (Nat × Event)) (s : State) :
    SameMemories s (idleTicks d (withEnv rest s)) := by
  rw [idleTicks_frame]
  exact sameMemories_of_rfl

/-- A step reads, and then stores once or pushes. -/
theorem step_memory {s t : State} (h : step s = .next t) : ∃ u, ReadsOnly s u ∧ MemoryStep u t := by
  rcases step_cases h with ⟨d, e, rest, rfl⟩ | ⟨u, hu, rfl⟩
  · exact ⟨_, (sameMemories_idleTicks d rest s).readsOnly, memoryStep_deliver e _⟩
  · obtain ⟨i, v, hwf, hexec, hread, -⟩ := executeInstruction_cases hu
    obtain ⟨u', hu', heffect⟩ := exec_memoryEffect v hwf
    obtain rfl : u' = u := Host.Outcome.next.inj (hu'.symm.trans hexec)
    exact ⟨v, (sameMemories_atExecution s).readsOnly.trans hread, memoryStep_countTick (memoryStep_of_effect heffect)⟩

/-! ### The status of the PPU (10_state.md R25) -/

theorem ppuWrite_status (p : Ppu) (addr : Word) (v : Byte) : (ppuWrite p addr v).status = p.status := by
  simp only [ppuWrite]
  split
  · rfl
  · split <;> rfl

theorem ppuWriteAddr_status (p : Ppu) (v : Byte) : (ppuWriteAddr p v).status = p.status := by
  rw [ppuWriteAddr]
  split <;> rfl

/-- R62: no register write reaches the status. -/
theorem ppuRegWrite_status (p : Ppu) (r : Word) (v : Byte) : (ppuRegWrite p r v).status = p.status := by
  rw [ppuRegWrite]
  split_ifs
  · rfl
  · rfl
  · rfl
  · exact ppuWriteAddr_status p v
  · exact ppuWrite_status p _ v
  · rfl

theorem busWrite_ppuStatus (addr : Word) (v : Byte) (s : State) : (busWrite addr v s).ppu.status = s.ppu.status := by
  by_cases hw : inPpuWindow addr = true
  · rw [busWrite_window v s hw rfl]
    exact ppuRegWrite_status _ _ _
  · rw [busWrite_ppu_outside v s hw]

theorem ppuStatus_of_memoryStep {s t : State} (h : MemoryStep s t) : t.ppu.status &&& ~~~s.ppu.status = 0 := by
  rcases h with ⟨addr, u, v, hread, hsame⟩ | ⟨n, vs, -, -, -, hppu⟩
  · rw [hsame.ppu, busWrite_ppuStatus]
    exact hread.ppu.status
  · exact hppu.status

/-- Settles O54: reads only clear bits of the PPU's status, and stores and pushes do not reach it. -/
theorem ppuStatusIsNeverSet : Obligations.PpuStatusIsNeverSet := by
  unfold Obligations.PpuStatusIsNeverSet
  intro s t h
  obtain ⟨u, hread, hstep⟩ := step_memory h
  exact and_not_trans hread.ppu.status (ppuStatus_of_memoryStep hstep)

/-! ### Canonical memories -/

theorem memoriesWf_of_readsOnly {s t : State} (h : ReadsOnly s t) (hwf : s.memoriesWf = true) : t.memoriesWf = true := by
  rw [memoriesWf_iff] at hwf ⊢
  rwa [h.ram, h.cart, Ppu.wf, h.ppu.palette, h.ppu.pattern, ← Ppu.wf]

theorem memoriesWf_of_memoryStep {s t : State} (h : MemoryStep s t) (hwf : s.memoriesWf = true) : t.memoriesWf = true := by
  rcases h with ⟨addr, u, v, hread, hsame⟩ | ⟨n, vs, -, hram, hcart, hppu⟩
  · exact memoriesWf_of_readsOnly hsame.readsOnly (busWrite_wf addr v u (memoriesWf_of_readsOnly hread hwf))
  · rw [memoriesWf_iff] at hwf ⊢
    obtain ⟨hwfRam, hwfPpu, hwfCart⟩ := hwf
    refine ⟨hram ▸ stackedAll_wf _ vs hwfRam, ?_, hcart ▸ hwfCart⟩
    rwa [Ppu.wf, hppu.palette, hppu.pattern, ← Ppu.wf]

/-! ### Counters (10_state.md R20, R33) -/

theorem countersOk_iff (s : State) : s.countersOk = true ↔ s.cyclesRemaining ≤ 8 ∧ s.dot ≤ 340 ∧ s.scanline ≤ 260 := by
  rw [State.countersOk, decide_eq_true_iff]

theorem ppuDotClock_countersOk {s : State} (h : s.countersOk = true) : (ppuDotClock s).countersOk = true := by
  rw [countersOk_iff] at h ⊢
  obtain ⟨howed, hdot, hline⟩ := h
  have hclock : ppuDotClock s = dotsIntoFrame s (framePosition s + 1) := ppuDotClock_iterate 1 s hdot hline
  rw [hclock]
  exact ⟨howed, by simp only [dotsIntoFrame]; omega, by simp only [dotsIntoFrame]; omega⟩

theorem idleTick_countersOk {s : State} (h : s.countersOk = true) : (idleTick s).countersOk = true := by
  obtain ⟨howed, hdot, hline⟩ := (countersOk_iff _).1 (ppuDotClock_countersOk h)
  rw [ppuDotClock_cyclesRemaining] at howed
  rw [countersOk_iff, idleTick_cyclesRemaining]
  exact ⟨by split <;> omega, hdot, hline⟩

theorem idleTicks_countersOk (n : Nat) {s : State} (h : s.countersOk = true) : (idleTicks n s).countersOk = true := by
  induction n generalizing s with
  | zero => exact h
  | succ n ih => exact ih (idleTick_countersOk h)

theorem atExecution_countersOk {s : State} (h : s.countersOk = true) : (atExecution s).countersOk = true :=
  ppuDotClock_countersOk (idleTicks_countersOk _ h)

/-- An event owes at most eight cycles (60_exceptions.md R254, R256; 70_reset_and_hazards.md R280) and leaves the PPU counters alone. -/
theorem deliver_countersOk (e : Event) {s : State} (h : s.countersOk = true) : (deliver e s).countersOk = true := by
  obtain ⟨-, hcounters⟩ := (countersOk_iff s).1 h
  cases e with
  | reset =>
    rw [deliver, assertReset, cpuResetSetsTheRegisters, countersOk_iff]
    exact ⟨le_rfl, hcounters⟩
  | nmi =>
    rw [deliver, nmiEntersTheHandler s, countersOk_iff]
    exact ⟨le_rfl, hcounters⟩
  | irq =>
    obtain ⟨hmasked, hentry⟩ := irqEntersTheHandlerUnlessMasked s
    cases hi : s.status.getLsbD 2 with
    | true => rwa [deliver, hmasked hi]
    | false =>
      rw [deliver, hentry hi, countersOk_iff]
      exact ⟨Nat.le_succ 7, hcounters⟩
  | debugRead addr =>
    change (busRead addr s).2.countersOk = true
    rwa [busRead_frame]
  | debugWrite addr v =>
    change (busWrite addr v s).countersOk = true
    rwa [busWrite_frame]
  | clearFrame => exact h

theorem readCycles_range (m : Mode) : 2 ≤ readCycles m ∧ readCycles m ≤ 7 := by cases m <;> decide

theorem storeCycles_range (m : Mode) : 2 ≤ storeCycles m ∧ storeCycles m ≤ 7 := by cases m <;> decide

theorem modifyCycles_range (m : Mode) : 2 ≤ modifyCycles m ∧ modifyCycles m ≤ 7 := by cases m <;> decide

/-- The base counts of the table (30_encoding.md R95, R102). -/
theorem baseCycles_range (i : Instr) : 2 ≤ i.baseCycles ∧ i.baseCycles ≤ 7 := by
  cases i with
  | adc m | and m | bit m | cmp m | cpx m | cpy m | eor m | lda m | ldx m | ldy m | ora m | sbc m => exact readCycles_range m.mode
  | sta m | stx m | sty m => exact storeCycles_range m.mode
  | asl m | lsr m | rol m | ror m | inc m | dec m => exact modifyCycles_range m.mode
  | jmp m =>
    rw [Instr.baseCycles]
    split <;> decide
  | _ => exact ⟨by simp [Instr.baseCycles], by simp [Instr.baseCycles]⟩

/-- An instruction takes at most nine cycles, of which one has been counted when its tick ends (R111, R260). -/
theorem countTick_countersOk {s u : State} (h : s.countersOk = true) (hexec : executeInstruction s = .next u) :
    (countTick u).countersOk = true := by
  obtain ⟨i, v, -, hnext, -, hbase⟩ := executeInstruction_cases hexec
  obtain ⟨-, hdot, hline, -⟩ := executeInstruction_clocks hexec
  obtain ⟨-, hadded⟩ := (execFrame_of_next hnext).cycles
  obtain ⟨-, hinrange⟩ := (countersOk_iff s).1 h
  have ⟨_, hle⟩ := baseCycles_range i
  rw [countersOk_iff]
  refine ⟨?_, ?_⟩
  · change u.cyclesRemaining - 1 ≤ 8
    omega
  · change u.dot ≤ 340 ∧ u.scanline ≤ 260
    rwa [hdot, hline]

theorem countersOk_of_step {s t : State} (h : s.countersOk = true) (hstep : step s = .next t) : t.countersOk = true := by
  rcases step_cases hstep with ⟨d, e, rest, rfl⟩ | ⟨u, hu, rfl⟩
  · exact deliver_countersOk e (idleTicks_countersOk d (s := withEnv rest s) h)
  · exact countTick_countersOk (atExecution_countersOk h) hu

/-- Settles O53: a step reads and then stores or pushes, which keeps the memories, and its counters are those of `countersOk_of_step`. -/
theorem stepKeepsTheInvariant : Obligations.StepKeepsTheInvariant := by
  unfold Obligations.StepKeepsTheInvariant
  intro s t hinv hstep
  rw [State.Inv, Bool.and_eq_true] at hinv ⊢
  obtain ⟨hmemories, hcounters⟩ := hinv
  obtain ⟨u, hread, hmemory⟩ := step_memory hstep
  exact ⟨memoriesWf_of_memoryStep hmemory (memoriesWf_of_readsOnly hread hmemories), countersOk_of_step hcounters hstep⟩

end Sys2Proof.Proofs.Invariants
end

section
/-!
What a program can see (10_state.md R18, R19, R37): two states that look alike to a program and owe cycles a fixed number apart stay so
through every access, every instruction and every step; and the obligations that say so.
-/
namespace Sys2Proof.Proofs.Visibility

open Sys2Proof Sys2Proof.Machine Sys2Proof.Proofs.MemoryMap Sys2Proof.Proofs.Encoding Sys2Proof.Proofs.Operands
  Sys2Proof.Proofs.Registers Sys2Proof.Proofs.Shifts Sys2Proof.Proofs.MemoryEffects Sys2Proof.Proofs.Ticks Sys2Proof.Proofs.Fetch

/-! ### Statuses alike but for B and U -/

theorem flagsOnly_or (p m : Byte) : flagsOnly (p ||| m) = flagsOnly p ||| flagsOnly m := by
  refine BitVec.eq_of_getLsbD_eq fun j _ => ?_
  simp only [flagsOnly, BitVec.getLsbD_and, BitVec.getLsbD_or, Bool.and_or_distrib_right]

theorem flagsOnly_and (p m : Byte) : flagsOnly (p &&& m) = flagsOnly p &&& m := by
  rw [flagsOnly, flagsOnly, BitVec.and_assoc, BitVec.and_comm m, ← BitVec.and_assoc]

section
variable {p q : Byte} (h : flagsOnly q = flagsOnly p)
include h

theorem flagsOnly_putFlag (mask : Byte) (f : Bool) : flagsOnly (putFlag mask f q) = flagsOnly (putFlag mask f p) := by
  cases f with
  | true => exact (flagsOnly_or _ _).trans (h ▸ (flagsOnly_or _ _).symm)
  | false => exact (flagsOnly_and _ _).trans (h ▸ (flagsOnly_and _ _).symm)

theorem flagsOnly_znStatus (v : Byte) : flagsOnly (znStatus v q) = flagsOnly (znStatus v p) :=
  flagsOnly_putFlag (flagsOnly_putFlag h _ _) _ _

theorem flagsOnly_bitStatus (a m : Byte) : flagsOnly (bitStatus a m q) = flagsOnly (bitStatus a m p) :=
  flagsOnly_putFlag (flagsOnly_putFlag (flagsOnly_putFlag h _ _) _ _) _ _

theorem flagsOnly_compareStatus (r m : Byte) : flagsOnly (compareStatus r m q) = flagsOnly (compareStatus r m p) :=
  flagsOnly_znStatus (flagsOnly_putFlag h _ _) _

theorem flagsOnly_shiftStatus (r : Shifted) : flagsOnly (shiftStatus r q) = flagsOnly (shiftStatus r p) :=
  flagsOnly_znStatus (flagsOnly_putFlag h _ _) _

/-- The six flags are visible. -/
theorem hasFlag_congr {mask : Byte} (hmask : 0xCF &&& mask = mask) : hasFlag mask q = hasFlag mask p := by
  have hflags (r : Byte) : r &&& mask = flagsOnly r &&& mask := by rw [flagsOnly, BitVec.and_assoc, hmask]
  rw [hasFlag, hasFlag, hflags, h, ← hflags]

theorem carryNat_congr : carryNat q = carryNat p := by
  rw [carryNat, carryNat, hasFlag_congr h (by decide)]

theorem adcResult_congr (a v : Byte) : adcResult a v q = adcResult a v p := by
  rw [adcResult, adcResult, adcSum, adcSum, carryNat_congr h]

theorem flagsOnly_adcStatus (a v : Byte) : flagsOnly (adcStatus a v q) = flagsOnly (adcStatus a v p) := by
  rw [adcStatus, adcOverflow, adcSum, carryNat_congr h, adcResult_congr h]
  exact flagsOnly_putFlag (flagsOnly_znStatus (flagsOnly_putFlag h _ _) _) _ _

/-- PHP and BRK push the same byte (45 R225, R227). -/
theorem pushedStatus_congr : pushedStatus q = pushedStatus p := by
  have hpushed (r : Byte) : pushedStatus r = flagsOnly r ||| 0x30 := by
    refine BitVec.eq_of_getLsbD_eq fun j hj => ?_
    rw [pushedStatus, flagsOnly, BitVec.getLsbD_or, BitVec.getLsbD_or, BitVec.getLsbD_and]
    interval_cases j <;> simp
  rw [hpushed, h, ← hpushed]

end

/-! ### States alike -/

/-- Two states look alike to a program, and the second owes `d` cycles more. -/
structure Alike (d : Int) (s s' : State) : Prop where
  a : s'.a = s.a
  x : s'.x = s.x
  y : s'.y = s.y
  sp : s'.sp = s.sp
  pc : s'.pc = s.pc
  flags : flagsOnly s'.status = flagsOnly s.status
  ram : s'.ram = s.ram
  cart : s'.cart = s.cart
  ppu : s'.ppu = s.ppu
  owed : (s'.cyclesRemaining : Int) = s.cyclesRemaining + d

theorem visible_eq_iff (s s' : State) :
    s.visible = s'.visible ↔ Alike (s'.cyclesRemaining - s.cyclesRemaining) s s' := by
  refine ⟨fun h => ?_, fun h => ?_⟩
  · simp only [State.visible, Visible.mk.injEq] at h
    obtain ⟨ha, hx, hy, hsp, hpc, hflags, hram, hcart, hppu⟩ := h
    exact ⟨ha.symm, hx.symm, hy.symm, hsp.symm, hpc.symm, hflags.symm, hram.symm, hcart.symm, hppu.symm, by omega⟩
  · rw [State.visible, State.visible, h.a, h.x, h.y, h.sp, h.pc, h.flags, h.ram, h.cart, h.ppu]

theorem Alike.visible {d : Int} {s s' : State} (h : Alike d s s') : s.visible = s'.visible :=
  (visible_eq_iff s s').2 { h with owed := by omega }

namespace Alike
variable {d : Int} {s s' : State} (h : Alike d s s')
include h

theorem sameMemories : SameMemories s s' := ⟨h.ram, h.cart, h.ppu⟩

theorem impliedMode : Alike d (impliedMode s) (impliedMode s') := { h with }

theorem setA {v v' : Byte} (hv : v' = v) : Alike d { s with a := v } { s' with a := v' } := { h with a := hv }

theorem setX {v v' : Byte} (hv : v' = v) : Alike d { s with x := v } { s' with x := v' } := { h with x := hv }

theorem setY {v v' : Byte} (hv : v' = v) : Alike d { s with y := v } { s' with y := v' } := { h with y := hv }

theorem setPc {w w' : Word} (hw : w' = w) : Alike d { s with pc := w } { s' with pc := w' } := { h with pc := hw }

theorem setZN {v v' : Byte} (hv : v' = v) : Alike d (setZN v s) (setZN v' s') :=
  { h with flags := hv ▸ flagsOnly_znStatus h.flags v }

theorem addWithCarry (v : Byte) : Alike d (addWithCarry v s) (addWithCarry v s') :=
  { h with
    a := by rw [addWithCarry_a, addWithCarry_a, h.a, adcResult_congr h.flags]
    flags := by rw [addWithCarry_status, addWithCarry_status, h.a, flagsOnly_adcStatus h.flags] }

theorem addCycles (n : Nat) : Alike d (addCycles n s) (addCycles n s') :=
  { h with owed := by simp only [addCycles_cyclesRemaining]; have := h.owed; omega }

theorem busRead (addr : Word) : (busRead addr s').1 = (busRead addr s).1 ∧ Alike d (busRead addr s).2 (busRead addr s').2 := by
  have hframe := busRead_frame addr s
  have hcongr := busRead_congr addr h.ram h.cart h.ppu
  refine ⟨by rw [hcongr], ?_⟩
  rw [hcongr, hframe]
  exact { h with ppu := rfl }

theorem busWrite (addr : Word) (v : Byte) : Alike d (busWrite addr v s) (busWrite addr v s') := by
  rw [busWrite_congr addr v h.ram h.cart h.ppu, busWrite_frame addr v s]
  exact { h with ram := rfl, cart := rfl, ppu := rfl }

theorem readWord (addr : Word) : (readWord addr s').1 = (readWord addr s).1 ∧ Alike d (readWord addr s).2 (readWord addr s').2 := by
  obtain ⟨hlo, hs⟩ := h.busRead addr
  obtain ⟨hhi, hs⟩ := hs.busRead (addr + 1)
  exact ⟨by rw [Machine.readWord, Machine.readWord, hlo, hhi], hs⟩

/-! ### The stack -/

theorem push {v v' : Byte} (hv : v' = v) : Alike d (push v s) (push v' s') := by
  subst hv
  have hwrite := h.busWrite (stackAddr s.sp) v'
  rw [Machine.push, Machine.push, h.sp]
  exact { hwrite with sp := congrArg (· - 1) hwrite.sp }

theorem pull : (pull s').1 = (pull s).1 ∧ Alike d (pull s).2 (pull s').2 := by
  have hsp : Alike d { s with sp := s.sp + 1 } { s' with sp := s.sp + 1 } := { h with sp := rfl }
  rw [Machine.pull, Machine.pull, h.sp]
  exact hsp.busRead _

theorem pushWord {w w' : Word} (hw : w' = w) : Alike d (pushWord w s) (pushWord w' s') :=
  (h.push (congrArg _ hw)).push (congrArg _ hw)

theorem pullWord : (pullWord s').1 = (pullWord s).1 ∧ Alike d (pullWord s).2 (pullWord s').2 := by
  obtain ⟨hlo, hs⟩ := h.pull
  obtain ⟨hhi, hs⟩ := hs.pull
  exact ⟨by rw [Machine.pullWord, Machine.pullWord, hlo, hhi], hs⟩

theorem enterHandler (pushed : Byte) (vector : Word) {live live' : Byte} (hlive : flagsOnly live' = flagsOnly live) :
    Alike d (enterHandler pushed live vector s) (enterHandler pushed live' vector s') := by
  have hpushed := (h.pushWord h.pc).push (v := pushed) rfl
  have hstatus : Alike d { Machine.push pushed (Machine.pushWord s.pc s) with status := live ||| 0x04 }
      { Machine.push pushed (Machine.pushWord s'.pc s') with status := live' ||| 0x04 } :=
    { hpushed with flags := (flagsOnly_or _ _).trans (hlive ▸ (flagsOnly_or _ _).symm) }
  obtain ⟨hword, hs⟩ := hstatus.readWord vector
  exact { hs with pc := hword }

theorem enterBrk : Alike d (enterBrk s) (enterBrk s') := by
  have hpc : Alike d { s with pc := s.pc + 1 } { s' with pc := s'.pc + 1 } := { h with pc := congrArg (· + 1) h.pc }
  rw [Machine.enterBrk, Machine.enterBrk, pushedStatus_congr h.flags]
  exact hpc.enterHandler _ _ h.flags

theorem returnFromInterrupt : Alike d (returnFromInterrupt s) (returnFromInterrupt s') := by
  obtain ⟨hp, hs⟩ := h.pull
  have hstatus : Alike d { (Machine.pull s).2 with status := (Machine.pull s).1 &&& 0xCF }
      { (Machine.pull s').2 with status := (Machine.pull s').1 &&& 0xCF } :=
    { hs with flags := by rw [hp] }
  obtain ⟨hword, hs⟩ := hstatus.pullWord
  exact { hs with pc := hword }

/-! ### Operands -/

theorem zeroPageWord (t : Byte) : zeroPageWord s' t = zeroPageWord s t := by
  rw [Machine.zeroPageWord, Machine.zeroPageWord, h.ram]

theorem operandAddr {m : Operand} (hacc : m ≠ .acc) : operandAddr m s' = operandAddr m s := by
  cases m with
  | acc => exact absurd rfl hacc
  | imm v => exact congrArg (· - 1) h.pc
  | zp0 b | abs w | ind w => rfl
  | zpx b | zpy b | abx w | aby w => simp only [Machine.operandAddr, h.x, h.y]
  | izx b | izy b => simp only [Machine.operandAddr, h.x, h.y, h.zeroPageWord]

theorem crossesPage {m : Operand} (hacc : m ≠ .acc) : crossesPage m s' = crossesPage m s := by
  have haddr := h.operandAddr hacc
  cases m with
  | abx w | aby w | izy b => simp only [Machine.crossesPage, haddr, h.zeroPageWord]
  | _ => rfl

theorem operandByte (m : Operand) : operandByte m s' = operandByte m s := by
  by_cases hacc : m = .acc
  · exact hacc ▸ h.a
  have haddr := h.operandAddr hacc
  cases m with
  | acc => exact absurd rfl hacc
  | imm v => rfl
  | _ =>
    simp only [Machine.operandByte, haddr]
    exact (h.busRead _).1

theorem afterRead (b : Bool) (m : Operand) : Alike d (afterRead b m s) (afterRead b m s') := by
  by_cases hacc : m = .acc
  · exact hacc ▸ { h with }
  have haddr := h.operandAddr hacc
  have hcross := h.crossesPage hacc
  have howed := h.owed
  cases m with
  | acc => exact absurd rfl hacc
  | imm v => exact { h with }
  | _ =>
    simp only [Machine.afterRead, haddr, hcross]
    exact { h with
      ppu := (h.busRead _).2.ppu
      owed := by simp only [Nat.cast_add]; omega }

theorem readOperand (b : Bool) {m : Operand} (hind : m.mode ≠ .ind) :
    (readOperand b m s').1 = (readOperand b m s).1 ∧ Alike d (readOperand b m s).2 (readOperand b m s').2 := by
  rw [readOperand_eq b s hind, readOperand_eq b s' hind]
  exact ⟨h.operandByte m, h.afterRead b m⟩

theorem storeOperand {m : Operand} {v v' : Byte} (hv : v' = v) (hacc : m ≠ .acc) (hind : m.mode ≠ .ind) :
    Alike d (storeOperand m v s) (storeOperand m v' s') := by
  subst hv
  have hscratch : Alike d { s with addrAbs := Machine.operandAddr m s } { s' with addrAbs := Machine.operandAddr m s } :=
    { h with }
  rw [storeOperand_eq v' s hacc hind, storeOperand_eq v' s' hacc hind, h.operandAddr hacc]
  exact hscratch.busWrite _ v'

theorem shiftOperand (f : Bool → Byte → Shifted) {m : Operand} (hind : m.mode ≠ .ind) :
    Alike d (shiftOperand f m s) (shiftOperand f m s') := by
  have hcarry : s'.status.getLsbD 0 = s.status.getLsbD 0 := by
    rw [← Adder.hasFlag_flagC, ← Adder.hasFlag_flagC, hasFlag_congr h.flags (by decide)]
  by_cases hacc : m = .acc
  · subst hacc
    have hresult : f (s'.status.getLsbD 0) s'.a = f (s.status.getLsbD 0) s.a := by rw [hcarry, h.a]
    rw [shiftOperand_acc f s rfl, shiftOperand_acc f s' hresult, ← shiftStatus_eq, ← shiftStatus_eq]
    exact { h with a := rfl, flags := flagsOnly_shiftStatus h.flags _ }
  · have hresult : f (s'.status.getLsbD 0) (Machine.operandByte m s') = f (s.status.getLsbD 0) (Machine.operandByte m s) := by
      rw [hcarry, h.operandByte]
    have hstored := (h.afterRead false m).busWrite (Machine.operandAddr m s)
      (f (s.status.getLsbD 0) (Machine.operandByte m s)).value
    rw [shiftOperand_memory f s hacc hind rfl, shiftOperand_memory f s' hacc hind hresult, h.operandAddr hacc,
      ← shiftStatus_eq, ← shiftStatus_eq]
    exact { hstored with flags := flagsOnly_shiftStatus h.flags _ }

theorem modifyMemory (f : Byte → Byte) {m : Operand} (hacc : m ≠ .acc) (hind : m.mode ≠ .ind) :
    Alike d (modifyMemory f m s) (modifyMemory f m s') := by
  have hstored := (h.afterRead false m).busWrite (Machine.operandAddr m s) (f (Machine.operandByte m s))
  rw [modifyMemory_eq f s hind rfl, modifyMemory_eq f s' hind (congrArg f (h.operandByte m)), h.operandAddr hacc,
    ← znStatus_eq, ← znStatus_eq]
  exact { hstored with flags := flagsOnly_znStatus h.flags _ }

theorem branch {taken taken' : Bool} (htaken : taken' = taken) (offset : Byte) :
    Alike d (branch taken offset s) (branch taken' offset s') := by
  subst htaken
  have hrel : Alike d { s with addrRel := sext16 offset } { s' with addrRel := sext16 offset } := { h with }
  cases taken' with
  | false => exact hrel
  | true =>
    simp only [Machine.branch, if_true, h.pc]
    exact { hrel.addCycles _ with pc := rfl }

theorem readIndirect (w : Word) :
    (readIndirect w s').1 = (readIndirect w s).1 ∧ Alike d (readIndirect w s).2 (readIndirect w s').2 := by
  obtain ⟨hlo, hs⟩ := h.busRead w
  obtain ⟨hhi, hs⟩ := hs.busRead (indirectHighAddr w)
  exact ⟨by rw [Machine.readIndirect, Machine.readIndirect, hlo, hhi], hs⟩

/-- The two modes of JMP leave the same address. -/
theorem jmpMode {m : Operand} (hwf : (Instr.jmp m).WellFormed = true) :
    (addrMode m s').2.addrAbs = (addrMode m s).2.addrAbs ∧ Alike d (addrMode m s).2 (addrMode m s').2 := by
  cases m with
  | abs w => exact ⟨rfl, { h with }⟩
  | ind w =>
    obtain ⟨haddr, hs⟩ := h.readIndirect w
    exact ⟨haddr, { hs with }⟩
  | _ => exact absurd hwf Bool.false_ne_true

theorem putFlag (mask : Byte) (f : Bool) :
    Alike d { s with status := putFlag mask f s.status } { s' with status := putFlag mask f s'.status } :=
  { h with flags := flagsOnly_putFlag h.flags mask f }

end Alike

/-! ### Instructions -/

/-- R18, R19, R37: an instruction makes of states alike states alike. -/
theorem exec_alike {i : Instr} (hwf : i.WellFormed = true) {d : Int} {s s' : State} (h : Alike d s s') :
    ∃ t t', exec i s = .next t ∧ exec i s' = .next t' ∧ Alike d t t' := by
  have himp := h.impliedMode
  cases i with
  | adc m | sbc m =>
    obtain ⟨hv, hr⟩ := h.readOperand true (mode_ne_ind hwf (by decide))
    exact ⟨_, _, rfl, rfl, hv ▸ hr.addWithCarry _⟩
  | and m =>
    obtain ⟨hv, hr⟩ := h.readOperand true (mode_ne_ind hwf (by decide))
    have hresult := congrArg₂ (· &&& ·) hr.a hv
    exact ⟨_, _, rfl, rfl, (hr.setA hresult).setZN hresult⟩
  | ora m =>
    obtain ⟨hv, hr⟩ := h.readOperand true (mode_ne_ind hwf (by decide))
    have hresult := congrArg₂ (· ||| ·) hr.a hv
    exact ⟨_, _, rfl, rfl, (hr.setA hresult).setZN hresult⟩
  | eor m =>
    obtain ⟨hv, hr⟩ := h.readOperand true (mode_ne_ind hwf (by decide))
    have hresult := congrArg₂ (· ^^^ ·) hr.a hv
    exact ⟨_, _, rfl, rfl, (hr.setA hresult).setZN hresult⟩
  | lda m =>
    obtain ⟨hv, hr⟩ := h.readOperand true (mode_ne_ind hwf (by decide))
    exact ⟨_, _, rfl, rfl, (hr.setA hv).setZN hv⟩
  | ldx m =>
    obtain ⟨hv, hr⟩ := h.readOperand true (mode_ne_ind hwf (by decide))
    exact ⟨_, _, rfl, rfl, (hr.setX hv).setZN hv⟩
  | ldy m =>
    obtain ⟨hv, hr⟩ := h.readOperand true (mode_ne_ind hwf (by decide))
    exact ⟨_, _, rfl, rfl, (hr.setY hv).setZN hv⟩
  | bit m =>
    obtain ⟨hv, hr⟩ := h.readOperand false (mode_ne_ind hwf (by decide))
    exact ⟨_, _, rfl, rfl, { hr with flags := by rw [hr.a, hv]; exact flagsOnly_bitStatus hr.flags _ _ }⟩
  | cmp m =>
    obtain ⟨hv, hr⟩ := h.readOperand true (mode_ne_ind hwf (by decide))
    exact ⟨_, _, rfl, rfl, { hr with flags := by rw [hr.a, hv]; exact flagsOnly_compareStatus hr.flags _ _ }⟩
  | cpx m =>
    obtain ⟨hv, hr⟩ := h.readOperand false (mode_ne_ind hwf (by decide))
    exact ⟨_, _, rfl, rfl, { hr with flags := by rw [hr.x, hv]; exact flagsOnly_compareStatus hr.flags _ _ }⟩
  | cpy m =>
    obtain ⟨hv, hr⟩ := h.readOperand false (mode_ne_ind hwf (by decide))
    exact ⟨_, _, rfl, rfl, { hr with flags := by rw [hr.y, hv]; exact flagsOnly_compareStatus hr.flags _ _ }⟩
  | sta m => exact ⟨_, _, rfl, rfl, h.storeOperand h.a (ne_acc hwf (by decide)) (mode_ne_ind hwf (by decide))⟩
  | stx m => exact ⟨_, _, rfl, rfl, h.storeOperand h.x (ne_acc hwf (by decide)) (mode_ne_ind hwf (by decide))⟩
  | sty m => exact ⟨_, _, rfl, rfl, h.storeOperand h.y (ne_acc hwf (by decide)) (mode_ne_ind hwf (by decide))⟩
  | asl m | lsr m | rol m | ror m => exact ⟨_, _, rfl, rfl, h.shiftOperand _ (mode_ne_ind hwf (by decide))⟩
  | inc m | dec m =>
    exact ⟨_, _, rfl, rfl, h.modifyMemory _ (ne_acc hwf (by decide)) (mode_ne_ind hwf (by decide))⟩
  | inx => exact ⟨_, _, rfl, rfl, (himp.setX (congrArg (· + 1) h.x)).setZN (congrArg (· + 1) h.x)⟩
  | iny => exact ⟨_, _, rfl, rfl, (himp.setY (congrArg (· + 1) h.y)).setZN (congrArg (· + 1) h.y)⟩
  | dex => exact ⟨_, _, rfl, rfl, (himp.setX (congrArg (· - 1) h.x)).setZN (congrArg (· - 1) h.x)⟩
  | dey => exact ⟨_, _, rfl, rfl, (himp.setY (congrArg (· - 1) h.y)).setZN (congrArg (· - 1) h.y)⟩
  | tax => exact ⟨_, _, rfl, rfl, (himp.setX h.a).setZN h.a⟩
  | tay => exact ⟨_, _, rfl, rfl, (himp.setY h.a).setZN h.a⟩
  | txa => exact ⟨_, _, rfl, rfl, (himp.setA h.x).setZN h.x⟩
  | tya => exact ⟨_, _, rfl, rfl, (himp.setA h.y).setZN h.y⟩
  | tsx => exact ⟨_, _, rfl, rfl, (himp.setX h.sp).setZN h.sp⟩
  | txs => exact ⟨_, _, rfl, rfl, { himp with sp := h.x }⟩
  | bcs offset | beq offset | bmi offset | bvs offset =>
    exact ⟨_, _, rfl, rfl, h.branch (hasFlag_congr h.flags (by decide)) offset⟩
  | bcc offset | bne offset | bpl offset | bvc offset =>
    exact ⟨_, _, rfl, rfl, h.branch (congrArg (!·) (hasFlag_congr h.flags (by decide))) offset⟩
  | jmp m =>
    obtain ⟨haddr, hs⟩ := h.jmpMode hwf
    exact ⟨_, _, rfl, rfl, hs.setPc haddr⟩
  | jsr w =>
    have hscratch : Alike d { s with addrAbs := w } { s' with addrAbs := w } := { h with }
    exact ⟨_, _, rfl, rfl, (hscratch.pushWord (congrArg (· - 1) h.pc)).setPc rfl⟩
  | rts =>
    obtain ⟨hw, hs⟩ := himp.pullWord
    exact ⟨_, _, rfl, rfl, hs.setPc (congrArg (· + 1) hw)⟩
  | pha => exact ⟨_, _, rfl, rfl, himp.push h.a⟩
  | php => exact ⟨_, _, rfl, rfl, himp.push (pushedStatus_congr h.flags)⟩
  | pla =>
    obtain ⟨hv, hs⟩ := himp.pull
    exact ⟨_, _, rfl, rfl, (hs.setA hv).setZN hv⟩
  | plp =>
    obtain ⟨hv, hs⟩ := himp.pull
    exact ⟨_, _, rfl, rfl, { hs with flags := congrArg flagsOnly hv }⟩
  | brk => exact ⟨_, _, rfl, rfl, himp.enterBrk⟩
  | rti => exact ⟨_, _, rfl, rfl, himp.returnFromInterrupt⟩
  | clc | sec | cld | sed | cli | sei | clv => exact ⟨_, _, rfl, rfl, himp.putFlag _ _⟩
  | nop | nopUnofficial op => exact ⟨_, _, rfl, rfl, himp⟩

/-- Settles O55: states that look alike are `Alike` by the difference of the cycles they owe, and `exec_alike` keeps that. -/
theorem execDependsOnVisibleState : Obligations.ExecDependsOnVisibleState := by
  unfold Obligations.ExecDependsOnVisibleState
  intro i s s' hwf h
  obtain ⟨t, t', ht, ht', halike⟩ := exec_alike hwf ((visible_eq_iff s s').1 h)
  exact ⟨t, t', ht, ht', halike.visible⟩

/-! ### Execution and the step -/

/-- R111: fetching reads the same code in states alike, and the base count loaded is that of one instruction. -/
theorem executeInstruction_alike {s s' : State} (h : s.visible = s'.visible) :
    ∃ t t', executeInstruction s = .next t ∧ executeInstruction s' = .next t' ∧ Alike 0 t t' := by
  have halike := (visible_eq_iff s s').1 h
  have hop : (busRead s.pc s').1 = (busRead s.pc s).1 := (halike.busRead s.pc).1
  obtain ⟨hbytes, hppu⟩ := readCode_congr (operandCount (busRead s.pc s).1 + 1) s.pc halike.sameMemories
  rw [executeInstruction, executeInstruction, fetch_eq_readCode, fetch_eq_readCode]
  simp only [halike.pc, hop, hbytes, hppu]
  exact exec_alike (decodeOp_spec _ _ _).1 { halike with pc := rfl, ppu := rfl, owed := (add_zero _).symm }

theorem visible_atExecution (s : State) : (atExecution s).visible = s.visible := by
  rw [atExecution_frame]
  rfl

theorem visible_countTick (t : State) : (countTick t).visible = t.visible := rfl

/-- Settles O56: both steps are one execution between counters, which are not visible. -/
theorem trajectoryIgnoresTheClocks : Obligations.TrajectoryIgnoresTheClocks := by
  unfold Obligations.TrajectoryIgnoresTheClocks
  intro s s' hruns hruns' h
  have hstart : (atExecution s).visible = (atExecution s').visible := by rw [visible_atExecution, visible_atExecution, h]
  obtain ⟨t, t', ht, ht', halike⟩ := executeInstruction_alike hstart
  refine ⟨countTick t, countTick t', ?_, ?_, ?_⟩
  · rw [step_of_runs hruns, ht]
    rfl
  · rw [step_of_runs hruns', ht']
    rfl
  · rw [visible_countTick, visible_countTick, halike.visible]

end Sys2Proof.Proofs.Visibility
end

section
/-!
The stepping helpers (60_exceptions.md R267, R268): what a loop of master ticks ends in, where the PPU stands after so many of them, and
the two obligations.
-/
namespace Sys2Proof.Proofs.Stepping

open Sys2Proof Sys2Proof.Machine Sys2Proof.Proofs.Frames Sys2Proof.Proofs.Ticks Sys2Proof.Proofs.Steps
  Sys2Proof.Proofs.DotClock Sys2Proof.Proofs.Invariants Sys2Proof.Proofs.Visibility

/-! ### Loops of master ticks -/

/-- A loop whose condition holds before the first so many ticks and not after them ends there. -/
theorem ticksWhile_eq_of_masterTicks {cond : State → Bool} {k n : Nat} {s t : State} (hk : k ≤ n)
    (hcond : ∀ j u, j < k → masterTicks j s = .next u → cond u = true) (hticks : masterTicks k s = .next t)
    (hstop : cond t = false) : ticksWhile cond n s = some (.next t) := by
  induction k generalizing n s with
  | zero =>
    obtain rfl : s = t := Host.Outcome.next.inj hticks
    cases n <;> simp [ticksWhile, hstop]
  | succ k ih =>
    obtain ⟨n, rfl⟩ : ∃ m, n = m + 1 := ⟨n - 1, by omega⟩
    obtain ⟨u, hu⟩ := masterTick_next s
    have hsucc (j : Nat) : masterTicks (j + 1) s = masterTicks j u := by rw [masterTicks, hu]; rfl
    have hrest := ih (n := n) (s := u) (by omega)
      (fun j v hj hv => hcond (j + 1) v (by omega) ((hsucc j).trans hv)) ((hsucc k).symm.trans hticks)
    simp only [ticksWhile, hcond 0 s (by omega) rfl, hu, if_true, hrest]

/-- Where its condition holds at the start, a do-while loop is a while loop. -/
theorem ticksDoWhile_eq_ticksWhile {cond : State → Bool} {s : State} (n : Nat) (h : cond s = true) :
    ticksDoWhile cond n s = ticksWhile cond (n + 1) s := by
  obtain ⟨t, ht⟩ := masterTick_next s
  simp only [ticksDoWhile, ticksWhile, h, ht, if_true]

/-- Until the next instruction the master ticks are idle. -/
theorem masterTicks_idle {n : Nat} {s : State} (h : n ≤ ticksToExecute s) : masterTicks n s = .next (idleTicks n s) := by
  induction n generalizing s with
  | zero => rfl
  | succ n ih =>
    have hidle : ¬ Executes s := by
      rw [executes_iff]
      omega
    have hticks := ticksToExecute_idleTick hidle
    rw [masterTicks, masterTick_idle hidle]
    exact ih (by omega)

theorem masterTicks_succ {n : Nat} {s t : State} (h : masterTicks n s = .next t) : masterTicks (n + 1) s = masterTick t := by
  induction n generalizing s with
  | zero =>
    obtain rfl : s = t := Host.Outcome.next.inj h
    obtain ⟨u, hu⟩ := masterTick_next s
    rw [masterTicks, hu]
    rfl
  | succ n ih =>
    obtain ⟨u, hu⟩ := masterTick_next s
    have hsucc (j : Nat) : masterTicks (j + 1) s = masterTicks j u := by rw [masterTicks, hu]; rfl
    rw [hsucc]
    exact ih ((hsucc n).symm.trans h)

/-! ### Finishing an instruction -/

/-- How many ticks pass until no cycle is owed: two fewer than until the next instruction executes (R260, R261). -/
def ticksToFinish (s : State) : Nat := ticksToExecute s - 2

theorem idleTicks_owed_iff (n : Nat) (s : State) : (idleTicks n s).cyclesRemaining = 0 ↔ ticksToFinish s ≤ n := by
  rw [idleTicks_cyclesRemaining, cpuClocksIn, Config.cpuDivider, ticksToFinish, ticksToExecute_eq]
  omega

/-- Ticking until no cycle is owed is that many idle ticks. -/
theorem ticksWhile_owed {n : Nat} {s : State} (h : ticksToFinish s ≤ n) :
    ticksWhile (fun t => t.cyclesRemaining != 0) n s = some (.next (idleTicks (ticksToFinish s) s)) := by
  have hle : ticksToFinish s ≤ ticksToExecute s := Nat.sub_le _ _
  refine ticksWhile_eq_of_masterTicks h (fun j u hj hu => ?_) (masterTicks_idle hle) ?_
  · obtain rfl : idleTicks j s = u := Host.Outcome.next.inj ((masterTicks_idle (by omega)).symm.trans hu)
    have howed := mt (idleTicks_owed_iff j s).1 (by omega)
    simpa using howed
  · have hnone := (idleTicks_owed_iff (ticksToFinish s) s).2 le_rfl
    simpa using hnone

/-! ### One instruction (R267) -/

theorem visible_idleTicks (n : Nat) (s : State) : (idleTicks n s).visible = s.visible := by
  rw [idleTicks_frame]
  rfl

theorem visible_ppuDotClock (s : State) : (ppuDotClock s).visible = s.visible := by
  rw [ppuDotClock_frame]
  rfl

/-- R95, R111: an instruction takes two cycles or more. -/
theorem two_le_cycles {s u : State} (h : executeInstruction s = .next u) : 2 ≤ u.cyclesRemaining := by
  obtain ⟨i, v, -, hnext, -, hbase⟩ := executeInstruction_cases h
  obtain ⟨hkept, -⟩ := (execFrame_of_next hnext).cycles
  obtain ⟨hlo, -⟩ := baseCycles_range i
  omega

/-- From a state with no cycle owed, ticking until a cycle is owed executes one instruction, by the same effect on what a program can see
and in the same number of cycles as at once. -/
theorem ticksDoWhile_none_owed {s u : State} (hnone : s.cyclesRemaining = 0) (hu : executeInstruction s = .next u) :
    ∃ t, ticksDoWhile (fun t => t.cyclesRemaining == 0) Config.cpuDivider s = some (.next t) ∧ t.visible = u.visible ∧
      t.cyclesRemaining + 1 = u.cyclesRemaining ∧ t.systemClock = s.systemClock + ticksToExecute s + 1 := by
  have hfew : ticksToExecute s < 3 := by
    rw [ticksToExecute_eq, hnone]
    omega
  have hsame : s.visible = (ppuDotClock (idleTicks (ticksToExecute s) s)).visible := by
    rw [visible_ppuDotClock, visible_idleTicks]
  obtain ⟨u', v, hu', hv, halike⟩ := executeInstruction_alike hsame
  obtain rfl : u' = u := Host.Outcome.next.inj (hu'.symm.trans hu)
  have hcycles := halike.owed
  have htwo := two_le_cycles hv
  have hidle := masterTicks_idle (s := s) (le_refl _)
  have hclock : v.systemClock = s.systemClock + ticksToExecute s := by
    rw [(executeInstruction_clocks hv).1, ppuDotClock_systemClock, idleTicks_systemClock]
  refine ⟨countTick v, ?_, halike.visible.symm, ?_, ?_⟩
  · rw [ticksDoWhile_eq_ticksWhile _ (by simpa using hnone)]
    refine ticksWhile_eq_of_masterTicks (k := ticksToExecute s + 1) (by rw [Config.cpuDivider]; omega) (fun j w hj hw => ?_) ?_ ?_
    · obtain rfl : idleTicks j s = w := Host.Outcome.next.inj ((masterTicks_idle (by omega)).symm.trans hw)
      rw [idleTicks_cyclesRemaining, hnone, Nat.zero_sub]
      rfl
    · rw [masterTicks_succ hidle, masterTick_executes (executes_idleTicks s), hv]
      rfl
    · have howed : (countTick v).cyclesRemaining = v.cyclesRemaining - 1 := rfl
      simp only [howed, beq_eq_false_iff_ne]
      omega
  · change v.cyclesRemaining - 1 + 1 = u'.cyclesRemaining
    omega
  · change v.systemClock + 1 = _
    rw [hclock]

/-- Settles O58: the first loop ends after the executing tick, the second with `ticksWhile_owed`. -/
theorem stepCpuInstructionRunsOne : Obligations.StepCpuInstructionRunsOne := by
  unfold Obligations.StepCpuInstructionRunsOne
  intro s hnone
  obtain ⟨u, hu⟩ := executeInstruction_next s
  obtain ⟨t, hloop, hvisible, hcycles, hclock⟩ := ticksDoWhile_none_owed hnone hu
  have htwo := two_le_cycles hu
  have hfinish : ticksToFinish t = 3 * t.cyclesRemaining := by
    rw [ticksToFinish, ticksToExecute_eq, hclock, ticksToExecute_eq, hnone]
    omega
  refine ⟨u, idleTicks (ticksToFinish t) t, hu, ?_, ?_, ?_, ?_, ?_⟩
  · have hrest := ticksDoWhile_eq_ticksWhile (cond := fun t => t.cyclesRemaining != 0) (s := t)
      (Config.cpuDivider * t.cyclesRemaining) (by simp only [bne_iff_ne]; omega)
    rw [stepCpuInstruction, hloop, thenLoop, hrest]
    exact ticksWhile_owed (by rw [hfinish, Config.cpuDivider]; omega)
  · exact (idleTicks_owed_iff _ t).2 le_rfl
  · rw [visible_idleTicks, hvisible]
  · rw [idleTicks_systemClock, hfinish, hclock, ticksToExecute_eq, hnone]
    omega
  · rw [idleTicks_systemClock, hfinish, hclock, ticksToExecute_eq, hnone]
    omega

/-! ### One frame (R262, R268) -/

/-- The PPU's counters stand `k` dots after the start of a frame, and `frame_complete` is set if that is past its end. -/
def AtDot (k : Nat) (s : State) : Prop :=
  s.dot = k % 341 ∧ s.scanline = k / 341 % 261 ∧ s.frameComplete = decide (89001 ≤ k)

theorem atDot_framePosition {s : State} (hdot : s.dot ≤ 340) (hline : s.scanline ≤ 260) (hclear : s.frameComplete = false) :
    AtDot (framePosition s) s := by
  have hbefore : ¬ 89001 ≤ framePosition s := by rw [framePosition]; omega
  refine ⟨?_, ?_, by rw [hclear, decide_eq_false hbefore]⟩
  · rw [framePosition]; omega
  · rw [framePosition]; omega

theorem AtDot.ppuDotClock {k : Nat} {s : State} (h : AtDot k s) : AtDot (k + 1) (ppuDotClock s) := by
  obtain ⟨hdot, hline, hcomplete⟩ := h
  have hs : s = dotsIntoFrame { s with frameComplete := false } k := by
    rw [dotsIntoFrame, ← hdot, ← hline, Bool.false_or, ← hcomplete]
  rw [hs, ppuDotClock_dotsIntoFrame]
  exact ⟨rfl, rfl, Bool.false_or _⟩

/-- A master tick is one dot on, one tick more, and keeps the counters in range (R260, R262). -/
theorem masterTick_atDot {k : Nat} {s t : State} (hat : AtDot k s) (hok : s.countersOk = true) (h : masterTick s = .next t) :
    AtDot (k + 1) t ∧ t.countersOk = true ∧ t.systemClock = s.systemClock + 1 := by
  rcases masterTick_cases s with ⟨-, hidle⟩ | ⟨-, u, hu, hexecutes⟩
  · obtain rfl : idleTick s = t := Host.Outcome.next.inj (hidle.symm.trans h)
    exact ⟨hat.ppuDotClock, idleTick_countersOk hok, rfl⟩
  · obtain rfl : countTick u = t := Host.Outcome.next.inj (hexecutes.symm.trans h)
    obtain ⟨hclock, hdot, hline, hcomplete⟩ := executeInstruction_clocks hu
    obtain ⟨hatDot, hatLine, hatComplete⟩ := hat.ppuDotClock
    refine ⟨⟨hdot.trans hatDot, hline.trans hatLine, hcomplete.trans hatComplete⟩,
      countTick_countersOk (ppuDotClock_countersOk hok) hu, ?_⟩
    rw [ppuDotClock_systemClock] at hclock
    exact congrArg (· + 1) hclock

theorem masterTicks_atDot {k : Nat} {s : State} (hat : AtDot k s) (hok : s.countersOk = true) (n : Nat) :
    ∃ t, masterTicks n s = .next t ∧ AtDot (k + n) t ∧ t.countersOk = true ∧ t.systemClock = s.systemClock + n := by
  induction n with
  | zero => exact ⟨s, rfl, hat, hok, rfl⟩
  | succ n ih =>
    obtain ⟨t, ht, htat, htok, htclock⟩ := ih
    obtain ⟨u, hu⟩ := masterTick_next t
    obtain ⟨huat, huok, huclock⟩ := masterTick_atDot htat htok hu
    exact ⟨u, by rw [masterTicks_succ ht, hu], huat, huok, by rw [huclock, htclock, Nat.add_assoc]⟩

/-- Ticking until `frame_complete` is ticking to the end of the frame (R268). -/
theorem ticksDoWhile_frame {s : State} (hat : AtDot (framePosition s) s) (hok : s.countersOk = true)
    (hclear : s.frameComplete = false) :
    ∃ t, ticksDoWhile (fun t => !t.frameComplete) frameTicks s = some (.next t) ∧ AtDot 89001 t ∧ t.countersOk = true ∧
      t.systemClock = s.systemClock + (89001 - framePosition s) := by
  have hframe : framePosition s ≤ 89000 := by
    obtain ⟨-, -, hcomplete⟩ := hat
    rw [hclear] at hcomplete
    have := of_decide_eq_false hcomplete.symm
    omega
  obtain ⟨t, ht, htat, htok, htclock⟩ := masterTicks_atDot hat hok (89001 - framePosition s)
  rw [show framePosition s + (89001 - framePosition s) = 89001 by omega] at htat
  refine ⟨t, ?_, htat, htok, htclock⟩
  rw [ticksDoWhile_eq_ticksWhile _ (by rw [hclear]; rfl)]
  have hfuel : frameTicks = 89001 := rfl
  refine ticksWhile_eq_of_masterTicks (by omega) (fun j u hj hu => ?_) ht ?_
  · obtain ⟨u', hu', ⟨-, -, hcomplete⟩, -⟩ := masterTicks_atDot hat hok j
    obtain rfl : u' = u := Host.Outcome.next.inj (hu'.symm.trans hu)
    rw [hcomplete, decide_eq_false (by omega)]
    rfl
  · obtain ⟨-, -, hcomplete⟩ := htat
    rw [hcomplete]
    rfl

/-- Settles O59: the first loop is `ticksDoWhile_frame`, the second `ticksWhile_owed`, whose ticks are the place in the new frame. -/
theorem stepPpuFrameEndsTheFrame : Obligations.StepPpuFrameEndsTheFrame := by
  unfold Obligations.StepPpuFrameEndsTheFrame
  intro s hdot hline howed hclear
  obtain ⟨t, hloop, htat, htok, htclock⟩ := ticksDoWhile_frame (atDot_framePosition hdot hline hclear)
    ((countersOk_iff s).2 ⟨howed, hdot, hline⟩) hclear
  obtain ⟨htowed, -⟩ := (countersOk_iff t).1 htok
  have hfinish : ticksToFinish t ≤ 24 := by
    rw [ticksToFinish, ticksToExecute_eq]
    omega
  have hfuel : ticksToFinish t ≤ Config.cpuDivider * (t.cyclesRemaining + 1) := by
    rw [ticksToFinish, ticksToExecute_eq, Config.cpuDivider]
    omega
  obtain ⟨u, hu, ⟨hudot, huline, -⟩, -, huclock⟩ := masterTicks_atDot htat htok (ticksToFinish t)
  obtain rfl : idleTicks (ticksToFinish t) t = u :=
    Host.Outcome.next.inj ((masterTicks_idle (Nat.sub_le _ _)).symm.trans hu)
  have hplace : framePosition { idleTicks (ticksToFinish t) t with frameComplete := false } = ticksToFinish t := by
    simp only [framePosition, hudot, huline]
    omega
  refine ⟨{ idleTicks (ticksToFinish t) t with frameComplete := false }, ?_, rfl, ?_, ?_, ?_⟩
  · rw [stepPpuFrame, hloop, thenLoop, ticksWhile_owed hfuel]
    rfl
  · exact (idleTicks_owed_iff _ t).2 le_rfl
  · rw [hplace]; exact hfinish
  · rw [hplace, ← htclock]; exact huclock

end Sys2Proof.Proofs.Stepping
end

section
/-!
The iNES loader (20_memory.md R57 to R59): taking bytes off an image, the header's fields by arithmetic, what the arrays hold, and the
obligation.
-/
namespace Sys2Proof.Proofs.Loader

open Sys2Proof Sys2Proof.Machine Sys2Proof.Proofs.Adder Sys2Proof.Proofs.MemoryMap

/-! ### Taking bytes off an image (R59) -/

theorem takeBytes_of_le {n : Nat} {bytes : List Byte} (h : n ≤ bytes.length) :
    takeBytes n bytes = .ok (bytes.take n, bytes.drop n) :=
  if_neg (Nat.not_lt.2 h)

theorem takeBytes_append {n : Nat} {front : List Byte} (rest : List Byte) (h : front.length = n) :
    takeBytes n (front ++ rest) = .ok (front, rest) := by
  rw [takeBytes_of_le (by rw [List.length_append]; omega), List.take_left' h, List.drop_left' h]

theorem takeBytes_of_lt {n : Nat} {bytes : List Byte} (h : bytes.length < n) : takeBytes n bytes = .error .ioError :=
  if_pos h

/-! ### The header's fields (R57, R58) -/

/-- R57: bit 2 of byte 6 announces a trainer. -/
theorem hasTrainer_eq (flags6 : Byte) : hasTrainer flags6 = flags6.getLsbD 2 := hasFlag_twoPow 2 flags6 (by decide)

theorem and_f0_eq (b : Byte) : b &&& 0xF0 = (b >>> 4) <<< 4 := by
  refine BitVec.eq_of_getLsbD_eq fun j hj => ?_
  rw [BitVec.getLsbD_and, BitVec.getLsbD_shiftLeft, BitVec.getLsbD_ushiftRight]
  interval_cases j <;> simp

/-- R58 step 4: two high nibbles make up the mapper id. -/
theorem mapperId_eq_ofNat (flags6 flags7 : Byte) :
    mapperId flags6 flags7 = BitVec.ofNat 8 (flags7.toNat / 16 * 16 + flags6.toNat / 16) := by
  have hdisjoint : (flags7 &&& 0xF0) &&& (flags6 >>> 4) = 0#8 := by
    refine BitVec.eq_of_getLsbD_eq fun j hj => ?_
    rw [BitVec.getLsbD_and, BitVec.getLsbD_and, BitVec.getLsbD_ushiftRight]
    interval_cases j <;> simp
  apply BitVec.eq_of_toNat_eq
  rw [mapperId, ← BitVec.add_eq_or_of_and_eq_zero _ _ hdisjoint, and_f0_eq, BitVec.toNat_add, BitVec.toNat_shiftLeft,
    BitVec.toNat_ushiftRight, BitVec.toNat_ushiftRight, Nat.shiftLeft_eq, Nat.shiftRight_eq_div_pow,
    Nat.shiftRight_eq_div_pow, BitVec.toNat_ofNat]
  omega

/-! ### What an array holds -/

/-- The array made of bytes holds each at its place. -/
theorem memRead_memOfBytes {bytes : List Byte} {k : Nat} {b : Byte} (i : Nat) (h : bytes[k]? = some b) :
    memRead (memOfBytes i bytes) (i + k) = b := by
  induction bytes generalizing i k with
  | nil => simp at h
  | cons head bytes ih =>
    obtain ⟨-, hlisted⟩ := wf_memOfBytes bytes (i + 1) (le_refl _)
    cases k with
    | zero =>
      obtain rfl : head = b := by simpa using h
      have hrest : memRead (memOfBytes (i + 1) bytes) i = memUnlisted :=
        memRead_of_not_listed fun c hc => by have := hlisted c hc; omega
      by_cases hhead : head = memUnlisted
      · simp [memOfBytes, hhead, hrest]
      · simp [memOfBytes, memRead, hhead]
    | succ k =>
      have hrest := ih (i + 1) (by simpa using h)
      rw [show i + 1 + k = i + (k + 1) by omega] at hrest
      by_cases hhead : head = memUnlisted
      · simp [memOfBytes, hhead, hrest]
      · simp [memOfBytes, memRead, hhead, hrest]

/-- R52, R53: the cartridge that declared bank counts and as many bytes make up. -/
theorem cartridge_wf {p c : Nat} {prg chr : List Byte} (hp : p ≠ 0) (hc : c ≠ 0) (hprg : prg.length = p * 16384)
    (hchr : chr.length = c * 8192) :
    Cartridge.wf { prgBanks := p, chrBanks := c, prg := memOfBytes 0 prg, chr := memOfBytes 0 chr } = true := by
  obtain ⟨hwfPrg, -⟩ := wf_memOfBytes prg 0 (size := p * 16384) (by omega)
  obtain ⟨hwfChr, -⟩ := wf_memOfBytes chr 0 (size := c * 8192) (by omega)
  simp [Cartridge.wf, hp, hc, hwfPrg, hwfChr]

/-! ### Images -/

/-- What the loader does with the bytes after a header with the right magic (R58 steps 3 to 6). -/
def loadBody (p c flags6 flags7 : Byte) (rest : List Byte) : Except LoadError Cartridge := do
  let (_, rest) ← takeBytes (if flags6.getLsbD 2 then 512 else 0) rest
  let (prg, rest) ← takeBytes (p.toNat * 16384) rest
  let (chr, _) ← takeBytes (c.toNat * 8192) rest
  if mapperId flags6 flags7 ≠ 0 then .error (.unsupportedMapper (mapperId flags6 flags7))
  if p.toNat = 0 ∨ c.toNat = 0 then .error .shapeNotAdmitted
  return { prgBanks := p.toNat, chrBanks := c.toNat, prg := memOfBytes 0 prg, chr := memOfBytes 0 chr }

theorem loadImage_header (p c flags6 flags7 : Byte) {unused : List Byte} (rest : List Byte) (h : unused.length = 8) :
    loadImage (inesMagic ++ [p, c, flags6, flags7] ++ unused ++ rest) = loadBody p c flags6 flags7 rest := by
  have hheader : (inesMagic ++ [p, c, flags6, flags7] ++ unused).length = inesHeaderBytes := by
    simp [inesMagic, inesHeaderBytes, h]
  rw [loadImage, takeBytes_append rest hheader, loadBody, ← hasTrainer_eq]
  rfl

theorem loadImage_wrong_magic {magic : List Byte} (fields : List Byte) {unused : List Byte} (rest : List Byte)
    (hlen : magic.length = 4) (hmagic : magic ≠ inesMagic) (hfields : fields.length = 4) (hunused : unused.length = 8) :
    loadImage (magic ++ fields ++ unused ++ rest) = .error .invalidFormat := by
  have hheader : (magic ++ fields ++ unused).length = inesHeaderBytes := by
    simp [inesHeaderBytes, hlen, hfields, hunused]
  have hfour : (magic ++ fields ++ unused).take 4 = magic := by
    rw [List.append_assoc, List.take_left' hlen]
  rw [loadImage, takeBytes_append rest hheader]
  simp only [bind, Except.bind, hfour]
  exact if_pos hmagic

/-- R58: a body of the declared sizes. -/
theorem loadBody_append (p c flags6 flags7 : Byte) {trainer prg chr : List Byte} (tail : List Byte)
    (htrainer : trainer.length = if flags6.getLsbD 2 then 512 else 0) (hprg : prg.length = p.toNat * 16384)
    (hchr : chr.length = c.toNat * 8192) :
    loadBody p c flags6 flags7 (trainer ++ (prg ++ (chr ++ tail))) =
      if mapperId flags6 flags7 ≠ 0 then .error (.unsupportedMapper (mapperId flags6 flags7))
      else if p.toNat = 0 ∨ c.toNat = 0 then .error .shapeNotAdmitted
      else .ok { prgBanks := p.toNat, chrBanks := c.toNat, prg := memOfBytes 0 prg, chr := memOfBytes 0 chr } := by
  simp only [loadBody, bind, Except.bind, takeBytes_append _ htrainer, takeBytes_append _ hprg, takeBytes_append _ hchr]
  rfl

/-- R59: a body that ends before the sizes that the header declares. -/
theorem loadBody_short (p c flags6 flags7 : Byte) {rest : List Byte}
    (h : rest.length < (if flags6.getLsbD 2 then 512 else 0) + p.toNat * 16384 + c.toNat * 8192) :
    loadBody p c flags6 flags7 rest = .error .ioError := by
  rw [loadBody]
  generalize (if flags6.getLsbD 2 then 512 else 0) = trainer at h ⊢
  by_cases htrainer : rest.length < trainer
  · rw [takeBytes_of_lt htrainer]
    rfl
  rw [takeBytes_of_le (by omega)]
  by_cases hprg : (rest.drop trainer).length < p.toNat * 16384
  · simp only [bind, Except.bind, takeBytes_of_lt hprg]
  · have hchr : ((rest.drop trainer).drop (p.toNat * 16384)).length < c.toNat * 8192 := by
      simp only [List.length_drop] at hprg ⊢
      omega
    simp only [bind, Except.bind, takeBytes_of_le (Nat.not_lt.1 hprg), takeBytes_of_lt hchr]

/-- Settles O60: a header with the right magic leads to `loadBody`, of which `loadBody_append` and `loadBody_short` say what it does. -/
theorem loaderPlacesTheImage : Obligations.LoaderPlacesTheImage := by
  unfold Obligations.LoaderPlacesTheImage
  refine ⟨fun p c flags6 flags7 unused trainer prg chr tail hunused htrainer hprg hchr => ?whole, fun image hshort => ?header,
    fun p c flags6 others hlen hshort => ?short⟩
  case whole =>
    intro id image
    have himage (magic : List Byte) : image magic =
        magic ++ [p, c, flags6, flags7] ++ unused ++ (trainer ++ (prg ++ (chr ++ tail))) := by
      simp only [image, List.append_assoc]
    have hid : mapperId flags6 flags7 = id := mapperId_eq_ofNat flags6 flags7
    have hload := (loadImage_header p c flags6 flags7 _ hunused).trans
      (loadBody_append p c flags6 flags7 tail htrainer hprg hchr)
    rw [← himage, hid, show inesMagic = [0x4E, 0x45, 0x53, 0x1A] from rfl] at hload
    have hzero (b : Byte) : b.toNat = 0 ↔ b = 0 := BitVec.toNat_inj (x := b) (y := 0)
    refine ⟨fun magic hfour hmagic => ?_, fun hne => ?_, fun heq hbanks => ?_, fun heq hp hc => ?_⟩
    · rw [himage]
      exact loadImage_wrong_magic _ _ hfour hmagic rfl hunused
    · rw [hload, if_pos hne]
    · rw [hload, if_neg (not_not.2 heq), if_pos (by rwa [hzero, hzero])]
    · rw [hload, if_neg (not_not.2 heq), if_neg (by rw [hzero, hzero]; exact not_or.2 ⟨hp, hc⟩)]
      refine ⟨_, rfl, cartridge_wf (mt (hzero p).1 hp) (mt (hzero c).1 hc) hprg hchr, rfl, rfl, fun k b hk => ?_, fun k b hk => ?_⟩
      · simpa using memRead_memOfBytes 0 hk
      · simpa using memRead_memOfBytes 0 hk
  case header =>
    rw [loadImage, takeBytes_of_lt (show image.length < inesHeaderBytes from hshort)]
    rfl
  case short =>
    obtain ⟨flags7, rest, rfl⟩ : ∃ flags7 rest, others = flags7 :: rest := List.exists_cons_of_length_pos (by omega)
    have hsplit : [0x4E, 0x45, 0x53, 0x1A, p, c, flags6] ++ flags7 :: rest =
        inesMagic ++ [p, c, flags6, flags7] ++ rest.take 8 ++ rest.drop 8 := by
      rw [List.append_assoc, List.take_append_drop]
      rfl
    rw [List.length_cons] at hlen hshort
    rw [hsplit, loadImage_header p c flags6 flags7 _ (by rw [List.length_take]; omega)]
    exact loadBody_short p c flags6 flags7 (by rw [List.length_drop]; omega)

end Sys2Proof.Proofs.Loader
end
